-- ==== Sys2Proof/Word.lean ====
section
/-!
DEFINITION. The words of the machine: bytes, ring positions, register words, tree fields.

Widths: ring positions are 12 bits (00_scope.md R6), host registers 32 bits (10_state.md R32), bytes 8 bits (20_memory.md R82).
-/

namespace Sys2Proof

/-- One byte: a port item, a ring slot, a token byte (20_memory.md R82). -/
abbrev Byte := BitVec 8

/-- A ring position `0..4095` (00_scope.md R6). Its addition wraps modulo `N` (40_ring_buffer.md R165). -/
abbrev Pos := BitVec 12

/-- A host register or the CMD word, 32 bits (10_state.md R32, 30_encoding.md R135). -/
abbrev Word := BitVec 32

/-- A child field or a root entry: a ring position, or NIL (10_state.md R43, R44, R46).
The unused 13-bit values `4097..8191` cannot be written down (93_implementation_defined.md item 6). -/
abbrev Child := Option Pos

/-- A link reference: the one link cell that points at a node, or `none` for a position in no tree (10_state.md R45). -/
inductive Link where
  /-- NONE: the position is in no tree. -/
  | none
  /-- ROOT(c): the node is `root[c]`. -/
  | root (c : Byte)
  /-- LEFT(q): the node is `left[q]`. -/
  | left (q : Pos)
  /-- RIGHT(q): the node is `right[q]`. -/
  | right (q : Pos)
  deriving DecidableEq, Repr, Inhabited

/-- Where in its stream an encoding stands; this alone tells a control byte, a literal and a match apart
(30_encoding.md R127). -/
inductive Place where
  /-- The first byte of a block. -/
  | control
  /-- A token slot whose control bit is 1. -/
  | literal
  /-- A token slot whose control bit is 0. -/
  | matchSlot
  /-- A host write of CMD. -/
  | command
  deriving DecidableEq, Repr

end Sys2Proof
end

