-- ==== Sys2Proof/Config.lean ====
section
/-!
DEFINITION. What is fixed for the block (00_scope.md, section 4), the platform's open parameters (92_eei_decisions.md)
and the free values of the model.

A free value is an `opaque` constant with no body: nothing can be proved of what it is. They are drawn by a reset
event, for the contents the spec leaves unspecified after it (log entry 8), and by an INSERT that finds no match, for
`best_pos` (log entry 15). `draw` is the model's counter of draws.
-/

namespace Sys2Proof.Config

/-- `N`, the number of ring positions (00_scope.md R6). -/
abbrev N : Nat := 4096

/-- `F`, the lookahead padding and the bound of the lookahead `run` (00_scope.md R7). -/
abbrev F : Nat := 16

/-- Physical ring slots, `N + F` (00_scope.md R7). -/
abbrev slots : Nat := 4112

/-- `THRESHOLD`, the least match length (00_scope.md R8). -/
abbrev threshold : Nat := 3

/-- `START = N - F`, the ring position of stream byte 0 in both modes (00_scope.md R12). -/
abbrev start : Pos := 4080#12

/-- `FILL`, the byte every ring slot holds at the start of a run (00_scope.md R13). -/
abbrev fill : Byte := 0x20#8

/-- The number of match trees (00_scope.md R11). -/
abbrev trees : Nat := 256

/-- `REG_BASE`, the platform address of the register block (decision D26): an open parameter (log entry 10). -/
opaque regBase : Nat

/-- `IRQ_LINE`, the number of the interrupt line at the platform's controller (decision D20): an open parameter
(log entry 10). -/
opaque irqLine : Nat

/-- Free value (log entry 8): the byte of ring slot `slot` after a reset event, where it held `old`. -/
opaque freeByte (draw slot : Nat) (old : Byte) : Byte

/-- Free value (log entry 8): entry `c` of the root table after a reset event. -/
opaque freeRoot (draw c : Nat) (old : Child) : Child

/-- Free value (log entry 8): the left child field of position `q` after a reset event. -/
opaque freeLeft (draw q : Nat) (old : Child) : Child

/-- Free value (log entry 8): the right child field of position `q` after a reset event. -/
opaque freeRight (draw q : Nat) (old : Child) : Child

/-- Free value (log entry 8): the parent field of position `q` after a reset event. -/
opaque freeParent (draw q : Nat) (old : Link) : Link

/-- Free value (log entry 8): the packer's token bytes after a reset event. -/
opaque freePkBuf (draw : Nat) (old : Vector Byte 16) : Vector Byte 16

/-- Free value (log entry 15): `best_pos` after an INSERT that found no match of `THRESHOLD` or more (10_state.md R53). -/
opaque freeBestPos (draw : Nat) (old : Pos) : Pos

end Sys2Proof.Config
end

