-- ==== Sys2Proof/Syntax.lean ====
section
/-!
DEFINITION. The instructions: one constructor per row of spec/opcode_table.json (30_encoding.md, the opcode map).

The token stream gives `ctrl`, `lit` and `matchTok`; the host's CMD word gives the other four.
-/

namespace Sys2Proof

/-- The instructions of the block. -/
inductive Instr where
  /-- CTRL: the control byte of a block; bit `t` of `k` is the kind of token `t` (30_encoding.md R121). -/
  | ctrl (k : Byte)
  /-- LIT: the literal byte `d` (30_encoding.md R122). -/
  | lit (d : Byte)
  /-- MATCH pos, len: an absolute ring position and a length `3..18` (30_encoding.md R123, R126). -/
  | matchTok (pos : Pos) (len : BitVec 5)
  /-- CMD NOP; `ign` is bits `[31:4]`, which are ignored (44_host_commands.md R310, 30_encoding.md R135). -/
  | cmdNop (ign : BitVec 28)
  /-- CMD START_ENCODE (44_host_commands.md R311). -/
  | cmdStartEncode (ign : BitVec 28)
  /-- CMD START_DECODE (44_host_commands.md R313). -/
  | cmdStartDecode (ign : BitVec 28)
  /-- CMD with a reserved OP, `0x3..0xF` (44_host_commands.md R314). -/
  | cmdReserved (op : BitVec 4) (ign : BitVec 28)
  deriving DecidableEq, Repr

end Sys2Proof
end

