-- ==== Sys2Proof/Machine/State.lean ====
section
/-!
DEFINITION. The state of the machine: everything 10_state.md gives the block, the two port streams, and the few fields
the model needs of its own (the turns of the agents, transfers in progress, the counter of draws).

State is plain data. The memories are lists of (index, value) pairs in canonical form (Machine/Store.lean).
-/

namespace Sys2Proof.Machine

/-! ### Host-visible registers -/

/-- STATUS.STATE (10_state.md R34). -/
inductive RunState where
  | idle
  | busy
  | done
  | error
  deriving DecidableEq, Repr

/-- STATUS.MODE (10_state.md R35). -/
inductive Mode where
  | encode
  | decode
  deriving DecidableEq, Repr

/-- STATUS.ERR (10_state.md R36). Codes `0x3..0xF` are never produced and cannot be written down. -/
inductive ErrCode where
  | none
  | inIo
  | outIo
  deriving DecidableEq, Repr

/-- The register block (10_state.md R32 to R40). CMD holds no state. -/
structure HostRegs where
  /-- STATUS.STATE. -/
  state : RunState
  /-- STATUS.MODE. -/
  mode : Mode
  /-- STATUS.ERR. -/
  err : ErrCode
  /-- IRQ_EN.IE. -/
  ie : Bool
  /-- IN_COUNT. -/
  inCount : Word
  /-- OUT_COUNT. -/
  outCount : Word
  deriving DecidableEq, Repr

/-! ### Memories -/

/-- The ring buffer `RB_PHYS`: the slots that differ from what an unlisted slot reads as (10_state.md R42). -/
abbrev Ring := List Host.Cell

/-- The match tree: root table and node memory (10_state.md R43, R44). Each is a list of (index, value) pairs; an unlisted
child is NIL, an unlisted parent is NONE. -/
structure Tree where
  root : List (Nat × Child)
  left : List (Nat × Child)
  right : List (Nat × Child)
  parent : List (Nat × Link)
  deriving DecidableEq, Repr

/-! ### Engine registers -/

/-- The engine's operation state (10_state.md R47). -/
inductive Phase where
  | idle
  | encPreload
  | encStep
  | encFinal
  | decCtrl
  | decToken
  | decCopy
  | halted
  deriving DecidableEq, Repr

/-- The encoder registers `enc_la`, `enc_eos`, `enc_p`, `enc_run`, `enc_skip` (10_state.md R48 to R52). -/
structure EncRegs where
  la : BitVec 5
  eos : Bool
  p : Pos
  run : BitVec 5
  skip : BitVec 4
  deriving DecidableEq, Repr

/-- The match-finder registers `best_len` and `best_pos` (10_state.md R53). -/
structure Finder where
  len : BitVec 5
  pos : Pos
  deriving DecidableEq, Repr

/-- The packer registers `pk_ctrl`, `pk_bit`, `pk_buf`, `pk_len` (10_state.md R54 to R56). -/
structure Packer where
  ctrl : Byte
  bit : BitVec 4
  buf : Vector Byte 16
  len : BitVec 5
  deriving DecidableEq, Repr

/-- The decoder registers `dec_cur`, `dec_ctrl`, `dec_bit`, `dec_pos`, `dec_rem` (10_state.md R57). -/
structure DecRegs where
  cur : Pos
  ctrl : Byte
  bit : BitVec 4
  pos : Pos
  rem : BitVec 5
  deriving DecidableEq, Repr

/-! ### Ports -/

/-- An item of the input stream, the answer to one `InRead` (20_memory.md R88). -/
inductive InItem where
  | data (b : Byte)
  | eos
  | err
  deriving DecidableEq, Repr

/-- The answer to one `OutWrite` (20_memory.md R91). -/
inductive SinkAnswer where
  | ok
  | err
  deriving DecidableEq, Repr

/-- The two streams (20_memory.md R80). `inStream` is what the input source answers from here on, `sink` what the output
sink answers from here on; while a list is empty that port has not answered. `outStream` is every byte accepted, oldest
first. -/
structure Ports where
  inStream : List InItem
  sink : List SinkAnswer
  outStream : List Byte
  deriving DecidableEq, Repr

/-! ### The other agents -/

/-- What a host access asks for (10_state.md R32). -/
inductive HostOp where
  | read
  | write (data : Word)
  deriving DecidableEq, Repr

/-- A host access: the operation, the address less `REG_BASE` (log entry 10), and the width in bytes. -/
structure HostAccess where
  op : HostOp
  off : Int
  size : Nat
  deriving DecidableEq, Repr

/-- One turn of the agents (00_scope.md R19; log entry 4): the engine moves, the host makes an access, the input source or
the output sink adds an answer, or the block is reset. -/
inductive Turn where
  | engine
  | host (a : HostAccess)
  | source (x : InItem)
  | sink (a : SinkAnswer)
  | reset
  deriving DecidableEq, Repr

/-! ### The state -/

/-- The state of the block and of the streams and agents around it. -/
structure State where
  /-- The register block (10_state.md R32). -/
  host : HostRegs
  /-- `RB_PHYS` (10_state.md R42). -/
  ring : Ring
  /-- Root table and node memory (10_state.md R43, R44). -/
  tree : Tree
  /-- `phase` (10_state.md R47). -/
  phase : Phase
  /-- Encoder registers (10_state.md R48 to R52). -/
  enc : EncRegs
  /-- Match-finder registers (10_state.md R53). -/
  finder : Finder
  /-- Packer registers (10_state.md R54 to R56). -/
  pk : Packer
  /-- Decoder registers (10_state.md R57). -/
  dec : DecRegs
  /-- The port streams (20_memory.md R80). -/
  ports : Ports
  /-- The model's own: who moves next; an empty list leaves every turn to the engine (log entry 4). -/
  env : List Turn
  /-- The model's own: the value the last host read returned (log entry 9). -/
  hostData : Word
  /-- The model's own: bytes of the token being read that `InRead` has returned (log entry 3). -/
  latch : List Byte
  /-- The model's own: the bytes of its block the FLUSH in progress has written, or none (log entry 3). -/
  flush : Option (BitVec 5)
  /-- The model's own: the number of draws so far, which makes each free value fresh (log entries 8 and 15). -/
  draw : Nat
  deriving DecidableEq, Repr

/-! ### Why a step stops -/

/-- The faults of the model. Each checks a condition the spec says always holds, so no run of the block raises one; stopping
there is safe (log entries 12 and 13). -/
inductive Fault where
  /-- An engine operation found a register outside the range 10_state.md R48 to R57 gives it. Raised by ENC_STEP, FLUSH and
  the token fetch. Safe: no claim of a next state can rest on it. -/
  | registerRange
  /-- INSERT of a position that is a member of a tree already; 41_match_tree.md R195 lets a model check it. Raised by
  ENC_STEP. Safe. -/
  | insertMember
  /-- LinkSet of NONE, which 41_match_tree.md R183 says is never evaluated. Raised by INSERT and DELETE in ENC_STEP. Safe. -/
  | danglingLink
  /-- A walk of the match tree met more nodes than there are positions, so the links form no tree (41_match_tree.md R180).
  Raised by INSERT and DELETE in ENC_STEP. Safe. -/
  | treeCycle
  deriving DecidableEq, Repr

/-- What a step refuses. -/
inductive Refusal where
  /-- An instruction with no meaning yet, by its mnemonic. Raised by no arm of exec. -/
  | notModelled (mnemonic : String)
  /-- A host access outside offsets `0x00..0xFF`, which 10_state.md R41 leaves undefined and a model refuses. Safe. -/
  | outsideRegisterBlock
  /-- A host access that is not 32 bits wide (10_state.md R41; 20_memory.md R84). Safe. -/
  | notThirtyTwoBits
  /-- A host access that is not 32-bit aligned (10_state.md R41; 20_memory.md R84). Safe. -/
  | unaligned
  deriving DecidableEq, Repr

/-! ### Reset -/

/-- The state right after reset (10_state.md R64). The memories and `pk_buf` are unspecified there: nothing is listed, so
the ring reads FILL, children NIL, parents NONE, and `pk_buf` is 0 (DESIGN CHOICE, log entries 5, 6 and 7). The streams are
empty and no agent has a turn: the environment's, not the block's (log entry 1). -/
def State.reset : State where
  host := { state := .idle, mode := .encode, err := .none, ie := false, inCount := 0#32, outCount := 0#32 }
  ring := []
  tree := { root := [], left := [], right := [], parent := [] }
  phase := .idle
  enc := { la := 0#5, eos := false, p := 0#12, run := 0#5, skip := 0#4 }
  finder := { len := 0#5, pos := 0#12 }
  pk := { ctrl := 0#8, bit := 0#4, buf := Vector.replicate 16 0#8, len := 0#5 }
  dec := { cur := 0#12, ctrl := 0#8, bit := 0#4, pos := 0#12, rem := 0#5 }
  ports := { inStream := [], sink := [], outStream := [] }
  env := []
  hostData := 0#32
  latch := []
  flush := none
  draw := 0

end Sys2Proof.Machine
end

