-- ==== Sys2Proof/Machine/Flags.lean ====
section
/-!
DEFINITION. The flags (10_state.md R58): the control bits of a block, the STATUS word and the interrupt line. There are no
condition codes and no arithmetic flags. `enc_eos` is the plain field State.enc.eos.
-/

namespace Sys2Proof.Machine

/-- Control bit `t` of a control byte: true for a literal, false for a match (30_encoding.md R121). -/
def controlBit (c : Byte) (t : BitVec 4) : Bool := c.getLsbD t.toNat

/-- A control byte with bit `t` set, `c | (1 << t)` (42_encoder.md R232). -/
def setControlBit (c : Byte) (t : BitVec 4) : Byte := c ||| (1#8 <<< t.toNat)

/-- The code of STATUS.STATE (10_state.md R34). -/
def RunState.code : RunState → Word
  | .idle => 0#32
  | .busy => 1#32
  | .done => 2#32
  | .error => 3#32

/-- The code of STATUS.MODE (10_state.md R35). -/
def Mode.code : Mode → Word
  | .encode => 0#32
  | .decode => 1#32

/-- The code of STATUS.ERR (10_state.md R36). -/
def ErrCode.code : ErrCode → Word
  | .none => 0#32
  | .inIo => 1#32
  | .outIo => 2#32

/-- The STATUS word, `ERR << 4 | MODE << 2 | STATE` (44_host_commands.md R316). -/
def HostRegs.statusWord (r : HostRegs) : Word := r.err.code <<< 4 ||| r.mode.code <<< 2 ||| r.state.code

/-- The interrupt line `irq = IE and (STATE = DONE or STATE = ERROR)` (60_exceptions.md R350). -/
def HostRegs.irq (r : HostRegs) : Bool := r.ie && (decide (r.state = .done) || decide (r.state = .error))

/-- The interrupt the platform's controller sees: the line `IRQ_LINE` while `irq` is asserted (60_exceptions.md R350; log
entry 10). -/
def HostRegs.interrupt (r : HostRegs) : Option Nat := if r.irq then some Config.irqLine else none

end Sys2Proof.Machine
end

