-- ==== Sys2Proof/WellFormed.lean ====
section
/-!
DEFINITION. Which instruction terms an encoding can stand for.
-/

namespace Sys2Proof

/-- The operands are in the ranges the encodings give: a match length is `3..18` (30_encoding.md R123), a reserved OP
is `0x3..0xF` (30_encoding.md R131). -/
def Instr.wf : Instr → Bool
  | .ctrl _ => true
  | .lit _ => true
  | .matchTok _ len => decide (3 ≤ len.toNat) && decide (len.toNat ≤ 18)
  | .cmdNop _ => true
  | .cmdStartEncode _ => true
  | .cmdStartDecode _ => true
  | .cmdReserved op _ => decide (3 ≤ op.toNat)

end Sys2Proof
end

