-- ==== Sys2Proof/Decode.lean ====
section
/-!
DEFINITION. The decoder, the encoder and the pseudo-instructions of the listing syntax (30_encoding.md).
-/

namespace Sys2Proof

/-! ### Operand assembly -/

/-- The position of a match token: `b0 + ((b1 & 0xF0) << 4)` (30_encoding.md R124). -/
def matchPosition (b0 b1 : Byte) : Pos :=
  b0.setWidth 12 + ((b1 &&& 0xF0#8).setWidth 12 <<< 4)

/-- The length of a match token: `(b1 & 0x0F) + 3` (30_encoding.md R124). -/
def matchLength (b1 : Byte) : BitVec 5 :=
  (b1 &&& 0x0F#8).setWidth 5 + 3#5

/-- The first byte of a match token: `position & 0xFF` (30_encoding.md R125). -/
def matchByte0 (pos : Pos) : Byte :=
  (pos &&& 0xFF#12).setWidth 8

/-- The second byte of a match token: `((position >> 4) & 0xF0) | (length - 3)` (30_encoding.md R125). -/
def matchByte1 (pos : Pos) (len : BitVec 5) : Byte :=
  ((pos >>> 4) &&& 0xF0#12).setWidth 8 ||| (len - 3#5).setWidth 8

/-- The OP field of a CMD word, bits `[3:0]` (10_state.md R33). -/
def cmdOp (w : Word) : BitVec 4 := w.extractLsb' 0 4

/-- The ignored field of a CMD word, bits `[31:4]` (10_state.md R33). -/
def cmdIgnored (w : Word) : BitVec 28 := w.extractLsb' 4 28

/-- A CMD word from its fields (30_encoding.md R135). -/
def cmdWord (op : BitVec 4) (ign : BitVec 28) : Word := ign ++ op

/-- The bytes of a register word on the host bus: byte `k` is bits `[8k+7:8k]` (20_memory.md R83). -/
def wordBytes (w : Word) : List Byte :=
  [w.extractLsb' 0 8, w.extractLsb' 8 8, w.extractLsb' 16 8, w.extractLsb' 24 8]

/-- The register word of four bytes, the first byte lowest (20_memory.md R83). -/
def bytesWord (b0 b1 b2 b3 : Byte) : Word := b3 ++ b2 ++ b1 ++ b0

/-! ### Places -/

/-- The bytes an encoding at this place takes (30_encoding.md R132, R135). -/
def Place.size : Place → Nat
  | .control => 1
  | .literal => 1
  | .matchSlot => 2
  | .command => 4

/-- The place an instruction stands at (30_encoding.md R127). -/
def Instr.place : Instr → Place
  | .ctrl _ => .control
  | .lit _ => .literal
  | .matchTok _ _ => .matchSlot
  | .cmdNop _ => .command
  | .cmdStartEncode _ => .command
  | .cmdStartDecode _ => .command
  | .cmdReserved _ _ => .command

/-! ### Decoding -/

/-- Why bytes are no instruction at a place. The token stream has no illegal encoding (30_encoding.md R128) and every CMD
word has a meaning (R131), so the one reason is that bytes are missing. -/
inductive DecodeError where
  /-- Fewer bytes than the encoding takes (30_encoding.md R132). -/
  | truncated
  deriving DecidableEq, Repr

/-- The instruction a CMD word stands for, by its OP field (30_encoding.md R131, 44_host_commands.md R310 to R314). -/
def decodeCommand (w : Word) : Instr :=
  if cmdOp w = 0#4 then .cmdNop (cmdIgnored w)
  else if cmdOp w = 1#4 then .cmdStartEncode (cmdIgnored w)
  else if cmdOp w = 2#4 then .cmdStartDecode (cmdIgnored w)
  else .cmdReserved (cmdOp w) (cmdIgnored w)

/-- The instruction at the head of the bytes at a place, and the bytes after it (30_encoding.md R121 to R124, R127, R135). -/
def decode : Place → List Byte → Except DecodeError (Instr × List Byte)
  | .control, k :: rest => .ok (.ctrl k, rest)
  | .literal, d :: rest => .ok (.lit d, rest)
  | .matchSlot, b0 :: b1 :: rest => .ok (.matchTok (matchPosition b0 b1) (matchLength b1), rest)
  | .command, b0 :: b1 :: b2 :: b3 :: rest => .ok (decodeCommand (bytesWord b0 b1 b2 b3), rest)
  | _, _ => .error .truncated

/-! ### Encoding -/

/-- The bytes of an instruction, in stream order or in the order of the host bus (30_encoding.md R121 to R125, R135). -/
def encode : Instr → List Byte
  | .ctrl k => [k]
  | .lit d => [d]
  | .matchTok pos len => [matchByte0 pos, matchByte1 pos len]
  | .cmdNop ign => wordBytes (cmdWord 0#4 ign)
  | .cmdStartEncode ign => wordBytes (cmdWord 1#4 ign)
  | .cmdStartDecode ign => wordBytes (cmdWord 2#4 ign)
  | .cmdReserved op ign => wordBytes (cmdWord op ign)

/-! ### Pseudo-instructions of the listing syntax -/

/-- Whether a token is a literal. -/
def Instr.isLit : Instr → Bool
  | .lit _ => true
  | _ => false

/-- The control byte of a block of tokens: bit `t` is 1 when token `t` is a LIT, every other bit 0 (30_encoding.md R134).
`t` is the number of the first token of the list. -/
def controlByteFrom (t : Nat) : List Instr → Byte
  | [] => 0#8
  | i :: rest => (if i.isLit then 1#8 <<< t else 0#8) ||| controlByteFrom (t + 1) rest

/-- The control byte of a block (30_encoding.md R121, R134). -/
def controlByte (tokens : List Instr) : Byte := controlByteFrom 0 tokens

/-- `BLOCK t0, …`: the control byte, then the tokens (30_encoding.md R134). -/
def expandBlock (tokens : List Instr) : List Instr := .ctrl (controlByte tokens) :: tokens

/-- The bytes of a block, token 0 first (30_encoding.md R120). -/
def encodeBlock (tokens : List Instr) : List Byte := (expandBlock tokens).flatMap encode

/-- `LITS "text"`: one LIT per character, by its ASCII code (30_encoding.md R133, R134). DESIGN CHOICE (log entry 21): the spec
gives no expansion for a character without an ASCII code; here its LIT is the character's code modulo 256. -/
def expandLits (text : String) : List Instr := text.toList.map fun c => .lit (BitVec.ofNat 8 c.toNat)

/-! ### The rows of the opcode table -/

/-- The bytes of a table word of the given number of bytes, the first byte its least significant. -/
def tableBytes : Nat → Nat → List Byte
  | 0, _ => []
  | n + 1, w => BitVec.ofNat 8 w :: tableBytes n (w / 256)

/-- The place a table word is read at (log entry 2). Sixteen bits are a match token, the one encoding of two bytes. Eight bits
are a control byte or a literal, which the byte alone does not tell apart (30_encoding.md R127), or the low byte of a CMD word
whose OP the table fixes, `0..2`: with OP bits `0..2` they are read as the CMD word, with any other as a control byte. Any other
width is a CMD word. -/
def tablePlace (nbits w : Nat) : Place :=
  if nbits = 16 then .matchSlot else if nbits = 8 ∧ 3 ≤ w % 16 then .control else .command

/-- The instruction the decoder reads from a word of the opcode table (log entry 2). -/
def decodeTableWord (nbits w : Nat) : Option Instr :=
  match decode (tablePlace nbits w) (tableBytes (tablePlace nbits w).size w) with
  | .ok (i, _) => some i
  | .error _ => none

end Sys2Proof
end

