-- ==== Sys2Proof/Machine/Operands.lean ====
section
/-!
DEFINITION. Operand forms: the place of the next token, the hardware encodings of children and link references, and which
host accesses the register block takes. The token operands themselves are in Sys2Proof/Decode.lean.
-/

namespace Sys2Proof.Machine

/-- The 13-bit encoding of a child field or root entry; NIL is 4096 (10_state.md R46). -/
def childBits : Child → BitVec 13
  | none => 4096#13
  | some q => q.setWidth 13

/-- The 14-bit encoding of a link reference: kind in bits `[13:12]`, index in bits `[11:0]` (10_state.md R45). -/
def linkBits : Link → BitVec 14
  | .none => (0#2) ++ (0#12)
  | .root c => (1#2) ++ (c.setWidth 12)
  | .left q => (2#2) ++ q
  | .right q => (3#2) ++ q

/-- The platform address of a register offset (10_state.md R32), and a host access at a platform address: the model carries
offsets from `REG_BASE` only (log entry 10). -/
def HostAccess.atAddress (op : HostOp) (addr : Nat) (size : Nat) : HostAccess :=
  { op := op, off := (addr : Int) - (Config.regBase : Int), size := size }

/-- Why a host access is refused, if it is (10_state.md R41, 20_memory.md R84): outside `0x00..0xFF`, not 32 bits wide, or
not aligned. -/
def HostAccess.refusal (a : HostAccess) : Option Refusal :=
  if a.off < 0 ∨ 0xFF < a.off then some .outsideRegisterBlock
  else if a.size ≠ 4 then some .notThirtyTwoBits
  else if a.off % 4 ≠ 0 then some .unaligned
  else none

end Sys2Proof.Machine
end

