-- ==== Sys2Proof/Machine/Store.lean ====
section
/-!
DEFINITION. Sparse memories: lists of (index, value) pairs in canonical form.

Canonical form: indexes strictly rising, every index below the size of the memory, and no entry equal to what an
unlisted index reads as (the default `d`). Equal memories are then equal lists.
-/

namespace Sys2Proof.Machine

variable {β : Type}

/-- The value at index `k`; `d` is what an unlisted index reads as. -/
def Store.get (d : β) (k : Nat) : List (Nat × β) → β
  | [] => d
  | (a, b) :: m => if a = k then b else Store.get d k m

/-- Put an entry in front, unless it is the default. -/
def Store.cons [DecidableEq β] (d : β) (k : Nat) (v : β) (m : List (Nat × β)) : List (Nat × β) :=
  if v = d then m else (k, v) :: m

/-- Write `v` at index `k`, keeping the canonical form. -/
def Store.set [DecidableEq β] (d : β) (k : Nat) (v : β) : List (Nat × β) → List (Nat × β)
  | [] => Store.cons d k v []
  | (a, b) :: m =>
    if k < a then Store.cons d k v ((a, b) :: m)
    else if k = a then Store.cons d k v m
    else (a, b) :: Store.set d k v m

/-- The canonical form from index `lo` on, for a memory of `n` entries. -/
def Store.wfFrom [DecidableEq β] (d : β) (n : Nat) : Nat → List (Nat × β) → Bool
  | _, [] => true
  | lo, (k, v) :: m => decide (lo ≤ k) && decide (k < n) && decide (v ≠ d) && Store.wfFrom d n (k + 1) m

/-- The canonical form of a memory of `n` entries. -/
def Store.wf [DecidableEq β] (d : β) (n : Nat) (m : List (Nat × β)) : Bool := Store.wfFrom d n 0 m

/-- Rewrite every index below `n` by a function of the index and its old value. -/
def Store.redraw [DecidableEq β] (d : β) (f : Nat → β → β) : Nat → List (Nat × β) → List (Nat × β)
  | 0, m => m
  | n + 1, m => Store.redraw d f n (Store.set d n (f n (Store.get d n m)) m)

/-- The canonical form of the ring buffer: 4112 slots, an unlisted slot reads FILL (log entry 5). -/
def Memory.wf (m : List Host.Cell) : Bool := Store.wf Config.fill Config.slots m

/-- The canonical form of the match tree: 256 roots, 4096 node records, unlisted children NIL, unlisted parents NONE
(log entry 6). -/
def Tree.wf (t : Tree) : Bool :=
  Store.wf none Config.trees t.root && Store.wf none Config.N t.left && Store.wf none Config.N t.right
    && Store.wf Link.none Config.N t.parent

end Sys2Proof.Machine
end

