-- ==== Sys2Proof/Machine/Ops.lean ====
section
/-!
DEFINITION. The shared operations: the ring buffer, the ports, the end of a run, error entry (the block's one exception),
the start of a run and the reset event.
-/

namespace Sys2Proof.Machine

/-! ### The ring buffer (40_ring_buffer.md) -/

/-- RB_FILL: every physical slot holds FILL (40_ring_buffer.md R161). A slot that is not listed reads as FILL. -/
def rbFill : Ring := []

/-- RB_WRITE(p, b): write slot `p`, and its padding copy when `p < F` (40_ring_buffer.md R162). -/
def rbWrite (p : Pos) (b : Byte) (m : Ring) : Ring :=
  let m1 := Store.set Config.fill p.toNat b m
  if p.toNat < Config.F then Store.set Config.fill (Config.N + p.toNat) b m1 else m1

/-- RB_READ_PHYS(q), for a physical index `q` in `0..4111` (40_ring_buffer.md R163). -/
def rbReadPhys (q : Nat) (m : Ring) : Byte := Store.get Config.fill q m

/-- RB_READ(p), for a ring position (40_ring_buffer.md R164). -/
def rbRead (p : Pos) (m : Ring) : Byte := rbReadPhys p.toNat m

/-! ### The end of a run -/

/-- The normal end of a run: STATE is DONE, the engine halts, MODE, ERR and the counters stay (42_encoder.md R236, R237;
43_decoder.md R282). No transfer is left in progress. -/
def runDone (s : State) : State :=
  { s with host := { s.host with state := .done }, phase := .halted, latch := [], flush := none }

/-- Error entry, the block's only exception (60_exceptions.md R343): STATE is ERROR, ERR is the code, the engine halts;
MODE, the counters and everything else stay. There is no vector and no saved position, and no return (R346): a host
continues with a START command. No transfer is left in progress. -/
def raiseError (code : ErrCode) (s : State) : State :=
  { s with host := { s.host with state := .error, err := code }, phase := .halted, latch := [], flush := none }

/-! ### The ports (20_memory.md) -/

/-- What an `InRead` came to: the source has not answered, or one of the three answers with the state after it. -/
inductive InAnswer where
  | held
  | data (b : Byte) (s : State)
  | eos (s : State)
  | err (s : State)

/-- InRead: take the next item of the input stream; IN_COUNT counts a DATA item (20_memory.md R88, 10_state.md R39). -/
def inRead (s : State) : InAnswer :=
  match s.ports.inStream with
  | [] => .held
  | .data b :: rest =>
    .data b { s with ports := { s.ports with inStream := rest }, host := { s.host with inCount := s.host.inCount + 1#32 } }
  | .eos :: rest => .eos { s with ports := { s.ports with inStream := rest } }
  | .err :: rest => .err { s with ports := { s.ports with inStream := rest } }

/-- What an `OutWrite` came to: the sink has not answered, or one of the two answers with the state after it. -/
inductive OutAnswer where
  | held
  | ok (s : State)
  | err (s : State)

/-- OutWrite(b): offer a byte; an accepted byte is appended to the output stream and OUT_COUNT counts it (20_memory.md R91,
10_state.md R40). -/
def outWrite (b : Byte) (s : State) : OutAnswer :=
  match s.ports.sink with
  | [] => .held
  | .ok :: rest =>
    .ok { s with
      ports := { s.ports with sink := rest, outStream := s.ports.outStream ++ [b] }
      host := { s.host with outCount := s.host.outCount + 1#32 } }
  | .err :: rest => .err { s with ports := { s.ports with sink := rest } }

/-- The step of an operation that offers one byte: hold while the sink has not answered (20_memory.md R91), enter OUT_IO
when it refuses (60_exceptions.md R342), and go on by `k` when it accepts. -/
def offer (b : Byte) (s : State) (k : State → State) : Host.Outcome State Fault Refusal :=
  match outWrite b s with
  | .held => .next s
  | .ok s1 => .next (k s1)
  | .err s1 => .next (raiseError .outIo s1)

/-! ### The start of a run -/

/-- START_COMMON(mode): BUSY, the mode, no error, both counters 0; IE stays (44_host_commands.md R312). -/
def startCommon (mode : Mode) (s : State) : State :=
  { s with host := { s.host with state := .busy, mode := mode, err := .none, inCount := 0#32, outCount := 0#32 } }

/-- DEC_INIT (43_decoder.md R272). The tree is not touched. No transfer is in progress in a fresh run. -/
def decInit (s : State) : State :=
  { s with
    ring := rbFill
    dec := { cur := Config.start, ctrl := 0#8, bit := 8#4, pos := 0#12, rem := 0#5 }
    phase := .decCtrl
    latch := []
    flush := none }

/-- TREE_INIT: every root NIL, every parent NONE; the child fields stay (41_match_tree.md R181). -/
def treeInit (t : Tree) : Tree := { t with root := [], parent := [] }

/-- ENC_INIT (42_encoder.md R223). No transfer is in progress in a fresh run. -/
def encInit (s : State) : State :=
  { s with
    ring := rbFill
    tree := treeInit s.tree
    enc := { la := 0#5, eos := false, p := Config.start, run := 0#5, skip := 0#4 }
    pk := { s.pk with ctrl := 0#8, bit := 0#4, len := 0#5 }
    phase := .encPreload
    latch := []
    flush := none }

/-! ### The reset event -/

/-- The match tree after a reset event: its contents are unspecified (10_state.md R64), free values (log entry
8). -/
def Tree.redraw (draw : Nat) (t : Tree) : Tree where
  root := Store.redraw none (Config.freeRoot draw) Config.trees t.root
  left := Store.redraw none (Config.freeLeft draw) Config.N t.left
  right := Store.redraw none (Config.freeRight draw) Config.N t.right
  parent := Store.redraw Link.none (Config.freeParent draw) Config.N t.parent

/-- The reset input asserted (70_reset_and_hazards.md R380): every register of 10_state.md R64 takes its reset value and
the engine waits in IDLE; a run in progress is abandoned with no error. What R64 leaves unspecified is a free value (log
entry 8). The streams, and the other agents' turns, are not the block's and stay (R381). -/
def resetEvent (s : State) : State :=
  { State.reset with
    ring := Store.redraw Config.fill (Config.freeByte s.draw) Config.slots s.ring
    tree := s.tree.redraw s.draw
    pk := { State.reset.pk with buf := Config.freePkBuf s.draw s.pk.buf }
    ports := s.ports
    env := s.env
    hostData := s.hostData
    draw := s.draw + 1 }

end Sys2Proof.Machine
end

