-- ==== Sys2Proof/Machine/MatchTree.lean ====
section
/-!
DEFINITION. The match tree (41_match_tree.md): link primitives, INSERT and DELETE.

The statements of the spec's pseudocode are written in its order, each on the tree the one before left. A step of it the
spec says is never evaluated is a fault (log entry 13).
-/

namespace Sys2Proof.Machine

/-! ### Fields -/

/-- `root[c]`. -/
def Tree.rootAt (t : Tree) (c : Byte) : Child := Store.get none c.toNat t.root

/-- `left[q]`. -/
def Tree.leftOf (t : Tree) (q : Pos) : Child := Store.get none q.toNat t.left

/-- `right[q]`. -/
def Tree.rightOf (t : Tree) (q : Pos) : Child := Store.get none q.toNat t.right

/-- `parent[q]`. -/
def Tree.parentOf (t : Tree) (q : Pos) : Link := Store.get Link.none q.toNat t.parent

/-- `root[c] <- v`. -/
def Tree.setRoot (c : Byte) (v : Child) (t : Tree) : Tree := { t with root := Store.set none c.toNat v t.root }

/-- `left[q] <- v`. -/
def Tree.setLeft (q : Pos) (v : Child) (t : Tree) : Tree := { t with left := Store.set none q.toNat v t.left }

/-- `right[q] <- v`. -/
def Tree.setRight (q : Pos) (v : Child) (t : Tree) : Tree := { t with right := Store.set none q.toNat v t.right }

/-- `parent[q] <- l`. -/
def Tree.setParentOf (q : Pos) (l : Link) (t : Tree) : Tree :=
  { t with parent := Store.set Link.none q.toNat l t.parent }

/-! ### Link primitives -/

/-- LinkGet(l) (41_match_tree.md R182). `LinkGet(NONE)` is never evaluated: the walk of INSERT passes only ROOT, LEFT and
RIGHT references, by its own text. -/
def Tree.linkGet (t : Tree) : Link → Child
  | .none => none
  | .root c => t.rootAt c
  | .left q => t.leftOf q
  | .right q => t.rightOf q

/-- LinkSet(l, v) (41_match_tree.md R183). `LinkSet(NONE, v)` is never evaluated: a fault. -/
def Tree.linkSet (l : Link) (v : Child) (t : Tree) : Except Fault Tree :=
  match l with
  | .none => .error .danglingLink
  | .root c => .ok (t.setRoot c v)
  | .left q => .ok (t.setLeft q v)
  | .right q => .ok (t.setRight q v)

/-- SetParent(q, l): nothing for NIL (41_match_tree.md R184). -/
def Tree.setParent (q : Child) (l : Link) (t : Tree) : Tree :=
  match q with
  | none => t
  | some q => t.setParentOf q l

/-! ### INSERT -/

/-- CPL(j, i, run): the length of the common prefix of the bytes from `j` and from `i`, at most `run` (41_match_tree.md
R185). -/
def cpl (m : Ring) : (j i run : Nat) → Nat
  | _, _, 0 => 0
  | j, i, run + 1 => if rbReadPhys j m = rbReadPhys i m then cpl m (j + 1) (i + 1) run + 1 else 0

/-- More than the nodes there are: a walk that takes this many steps is in no tree. -/
def walkFuel : Nat := 4097

/-- The empty slot case of INSERT: link `i` at `link` (41_match_tree.md R186, R194). -/
def attach (i : Pos) (link : Link) (t : Tree) : Except Fault Tree :=
  match t.linkSet link (some i) with
  | .error e => .error e
  | .ok t1 => .ok (t1.setParentOf i link)

/-- The exact case of INSERT: `i` takes the place of `j`, which leaves its tree (41_match_tree.md R186, R193). -/
def replaceNode (i j : Pos) (t : Tree) : Except Fault Tree :=
  let t1 := t.setLeft i (t.leftOf j)
  let t2 := t1.setRight i (t1.rightOf j)
  let t3 := t2.setParent (t2.leftOf j) (.left i)
  let t4 := t3.setParent (t3.rightOf j) (.right i)
  match t4.linkSet (t4.parentOf j) (some i) with
  | .error e => .error e
  | .ok t5 => .ok ((t5.setParentOf i (t5.parentOf j)).setParentOf j .none)

/-- `best_len` and `best_pos` after a node with common prefix `n`: replaced only when strictly longer (41_match_tree.md
R186, R189). -/
def Finder.better (f : Finder) (n : Nat) (j : Pos) : Finder :=
  if f.len.toNat < n then { len := BitVec.ofNat 5 n, pos := j } else f

/-- The link the walk of INSERT takes below `j`: left when the candidate's byte at offset `n` is greater, as unsigned
values, right otherwise (41_match_tree.md R186, R188). -/
def descend (m : Ring) (i j : Pos) (n : Nat) : Link :=
  if rbReadPhys (i.toNat + n) m < rbReadPhys (j.toNat + n) m then .left j else .right j

/-- The loop of INSERT from a link on (41_match_tree.md R186). -/
def insertWalk (m : Ring) (i : Pos) (run : Nat) : Nat → Link → Tree → Finder → Except Fault (Tree × Finder)
  | 0, _, _, _ => .error .treeCycle
  | fuel + 1, link, t, f =>
    match t.linkGet link with
    | none =>
      match attach i link t with
      | .error e => .error e
      | .ok t1 => .ok (t1, f)
    | some j =>
      let n := cpl m j.toNat i.toNat run
      if n = run then
        match replaceNode i j t with
        | .error e => .error e
        | .ok t1 => .ok (t1, f.better n j)
      else insertWalk m i run fuel (descend m i j n) t (f.better n j)

/-- INSERT(i, run): insert position `i` into the tree of its byte, and the longest match found on the way (41_match_tree.md
R186). The model checks the precondition of R195. `best_pos` stays where no match is found. -/
def insert (m : Ring) (i : Pos) (run : Nat) (t : Tree) (f : Finder) : Except Fault (Tree × Finder) :=
  if t.parentOf i ≠ .none then .error .insertMember
  else
    insertWalk m i run walkFuel (.root (rbRead i m)) ((t.setLeft i none).setRight i none)
      { f with len := BitVec.ofNat 5 (Config.threshold - 1) }

/-! ### DELETE -/

/-- The rightmost node from `y` on, along `right` links (41_match_tree.md R190, R192). -/
def rightmost (t : Tree) : Nat → Pos → Except Fault Pos
  | 0, _ => .error .treeCycle
  | fuel + 1, y =>
    match t.rightOf y with
    | none => .ok y
    | some y1 => rightmost t fuel y1

/-- The end of DELETE: `y`, or NIL, takes the place of `z` (41_match_tree.md R190). -/
def spliceOut (z : Pos) (y : Child) (t : Tree) : Except Fault Tree :=
  let t1 := t.setParent y (t.parentOf z)
  match t1.linkSet (t1.parentOf z) y with
  | .error e => .error e
  | .ok t2 => .ok (t2.setParentOf z .none)

/-- DELETE of a node with two children whose predecessor `y` is below its left child: `y`'s left subtree takes `y`'s place
and `y` takes over `z`'s left subtree (41_match_tree.md R190, R192). -/
def liftPredecessor (z y : Pos) (t : Tree) : Except Fault Tree :=
  match t.linkSet (t.parentOf y) (t.leftOf y) with
  | .error e => .error e
  | .ok t1 =>
    let t2 := t1.setParent (t1.leftOf y) (t1.parentOf y)
    let t3 := t2.setLeft y (t2.leftOf z)
    .ok (t3.setParent (t3.leftOf z) (.left y))

/-- The predecessor `y` takes over `z`'s right subtree (41_match_tree.md R190). -/
def takeRight (z y : Pos) (t : Tree) : Tree :=
  let t1 := t.setRight y (t.rightOf z)
  t1.setParent (t1.rightOf z) (.right y)

/-- DELETE of a node with two children, `y` its left child (41_match_tree.md R190, R192). -/
def deleteTwo (z y : Pos) (t : Tree) : Except Fault Tree :=
  if t.rightOf y = none then spliceOut z (some y) (takeRight z y t)
  else
    match rightmost t walkFuel y with
    | .error e => .error e
    | .ok p =>
      match liftPredecessor z p t with
      | .error e => .error e
      | .ok t1 => spliceOut z (some p) (takeRight z p t1)

/-- DELETE(z): remove position `z` from its tree, if it is in one (41_match_tree.md R190, R191). -/
def delete (z : Pos) (t : Tree) : Except Fault Tree :=
  if t.parentOf z = .none then .ok t
  else
    match t.rightOf z, t.leftOf z with
    | none, y => spliceOut z y t
    | some y, none => spliceOut z (some y) t
    | some _, some y => deleteTwo z y t

end Sys2Proof.Machine
end

