-- ==== Sys2Proof/Machine/Packer.lean ====
section
/-!
DEFINITION. The token packer (42_encoder.md, section 4): EMIT_LIT, EMIT_MATCH and the bytes of FLUSH.
-/

namespace Sys2Proof.Machine

/-- `pk_buf[pk_len] <- b; pk_len <- pk_len + 1` (42_encoder.md R232). -/
def Packer.push (b : Byte) (k : Packer) : Packer :=
  { k with buf := k.buf.setIfInBounds k.len.toNat b, len := k.len + 1#5 }

/-- EMIT_LIT(b), up to the flush of a full block (42_encoder.md R232). -/
def emitLit (b : Byte) (k : Packer) : Packer :=
  let k1 := { k with ctrl := setControlBit k.ctrl k.bit }.push b
  { k1 with bit := k1.bit + 1#4 }

/-- EMIT_MATCH(pos, len), up to the flush of a full block; the control bit stays 0 (42_encoder.md R233, 30_encoding.md
R125). -/
def emitMatch (pos : Pos) (len : BitVec 5) (k : Packer) : Packer :=
  let k1 := (k.push (matchByte0 pos)).push (matchByte1 pos len)
  { k1 with bit := k1.bit + 1#4 }

/-- Byte `n` of the block FLUSH writes: the control byte, then the token bytes in order (42_encoder.md R235). -/
def Packer.blockByte (k : Packer) (n : Nat) : Byte :=
  match n with
  | 0 => k.ctrl
  | t + 1 => k.buf.toList.getD t 0#8

/-- The packer after a flush (42_encoder.md R235). -/
def Packer.cleared (k : Packer) : Packer := { k with ctrl := 0#8, bit := 0#4, len := 0#5 }

/-- FLUSH begins: no byte of the block is written yet (42_encoder.md R235). -/
def beginFlush (s : State) : State := { s with flush := some 0#5 }

/-- FLUSH has written its last byte (42_encoder.md R235). -/
def endFlush (s : State) : State := { s with pk := s.pk.cleared, flush := none }

end Sys2Proof.Machine
end

