-- ==== Sys2Proof/Machine/Encoder.lean ====
section
/-!
DEFINITION. The encode run (42_encoder.md): ENC_PRELOAD, ENC_STEP, FLUSH and ENC_FINAL, at most one port access a step
(log entry 3).
-/

namespace Sys2Proof.Machine

/-! ### ENC_PRELOAD -/

/-- The condition of the preload's loop (42_encoder.md R224). -/
def preloading (e : EncRegs) : Bool := decide (e.la.toNat < Config.F) && !e.eos

/-- The end of ENC_PRELOAD, once its loop is over (42_encoder.md R224). -/
def preloadExit (s : State) : State :=
  if preloading s.enc then s
  else
    { s with
      enc := { s.enc with run := s.enc.la }
      phase := if s.enc.la.toNat = 0 then .encFinal else .encStep }

/-- ENC_PRELOAD, one `InRead` (42_encoder.md R224). -/
def preloadStep (s : State) : Host.Outcome State Fault Refusal :=
  if preloading s.enc then
    match inRead s with
    | .held => .next s
    | .data b s1 =>
      .next (preloadExit { s1 with
        ring := rbWrite (Config.start + s1.enc.la.setWidth 12) b s1.ring
        enc := { s1.enc with la := s1.enc.la + 1#5 } })
    | .eos s1 => .next (preloadExit { s1 with enc := { s1.enc with eos := true } })
    | .err s1 => .next (raiseError .inIo s1)
  else .next (preloadExit s)

/-! ### ENC_STEP -/

/-- `w = (enc_p + F) mod N`, the slot the newest lookahead byte enters (42_encoder.md R226, R228). -/
def lookaheadSlot (e : EncRegs) : Pos := e.p + 16#12

/-- The registers are in the ranges ENC_STEP works in (10_state.md R51, R55, R56; 42_encoder.md R222; log entry 12). -/
def encStepInRange (s : State) : Bool :=
  decide (1 ≤ s.enc.run.toNat) && decide (s.enc.run.toNat ≤ Config.F) && decide (s.pk.bit.toNat < 8)
    && decide (s.pk.len.toNat ≤ 2 * s.pk.bit.toNat)

/-- `enc_skip` after a step (42_encoder.md R226, R231): a match token leaves `best_len - 1`, a literal leaves 0, a step
inside a match counts down. -/
def nextSkip (e : EncRegs) (f : Finder) : BitVec 4 :=
  if e.skip = 0#4 then
    if Config.threshold ≤ f.len.toNat then (f.len - 1#5).setWidth 4 else e.skip
  else e.skip - 1#4

/-- The end of ENC_STEP, after its token and the flush of a full block (42_encoder.md R226). -/
def encStepTail (s : State) : State :=
  let run := if s.enc.eos then s.enc.run - 1#5 else s.enc.run
  { s with
    enc := { s.enc with skip := nextSkip s.enc s.finder, run := run, p := s.enc.p + 1#12 }
    phase := if run = 0#5 then .encFinal else s.phase }

/-- The result of the step's INSERT. With no match of `THRESHOLD` or more the value of `best_pos` is unspecified
(10_state.md R53): a free value (log entry 15). -/
def recordMatch (f : Finder) (s : State) : State :=
  if Config.threshold ≤ f.len.toNat then { s with finder := f }
  else { s with finder := { f with pos := Config.freeBestPos s.draw f.pos }, draw := s.draw + 1 }

/-- The token of ENC_STEP, where one starts (42_encoder.md R226, R230). -/
def emitToken (s : State) : Packer :=
  if Config.threshold ≤ s.finder.len.toNat then emitMatch s.finder.pos s.finder.len s.pk
  else emitLit (rbRead s.enc.p s.ring) s.pk

/-- ENC_STEP from its INSERT on: insert, emit the token that starts here, flush a full block first and finish the step
otherwise (42_encoder.md R226). -/
def encStepInsert (s : State) : Host.Outcome State Fault Refusal :=
  match insert s.ring s.enc.p s.enc.run.toNat s.tree s.finder with
  | .error e => .fault e
  | .ok (t, f) =>
    let s1 := recordMatch f { s with tree := t }
    if s1.enc.skip = 0#4 then
      let s2 := { s1 with pk := emitToken s1 }
      if s2.pk.bit = 8#4 then .next (beginFlush s2) else .next (encStepTail s2)
    else .next (encStepTail s1)

/-- ENC_STEP from its `InRead` on, the DELETE done: the lookahead byte goes to slot `w`, then INSERT (42_encoder.md R226,
R229, R391). -/
def encStepRead (s : State) : Host.Outcome State Fault Refusal :=
  if s.enc.eos then encStepInsert s
  else
    match inRead s with
    | .held => .next s
    | .data b s1 => encStepInsert { s1 with ring := rbWrite (lookaheadSlot s1.enc) b s1.ring }
    | .eos s1 => encStepInsert { s1 with enc := { s1.enc with eos := true } }
    | .err s1 => .next (raiseError .inIo s1)

/-- Whether ENC_STEP waits for the input source. -/
def encStepHolds (s : State) : Bool := !s.enc.eos && decide (s.ports.inStream = [])

/-- ENC_STEP (42_encoder.md R226): DELETE of slot `w`, then the read, then INSERT. While the source has not answered, the
step does not begin (log entry 16). -/
def encStep (s : State) : Host.Outcome State Fault Refusal :=
  if encStepInRange s = false then .fault .registerRange
  else if encStepHolds s then .next s
  else
    match delete (lookaheadSlot s.enc) s.tree with
    | .error e => .fault e
    | .ok t => encStepRead { s with tree := t }

/-! ### FLUSH and ENC_FINAL -/

/-- What follows a FLUSH: the rest of ENC_STEP, or the end of the run when ENC_FINAL called it (42_encoder.md R235, R236). -/
def afterFlush (s : State) : State :=
  if s.phase = .encFinal then runDone s else encStepTail s

/-- FLUSH after byte `n` is accepted: the next byte, or its end (42_encoder.md R235). -/
def flushNext (n : BitVec 5) (s : State) : State :=
  if n = s.pk.len then afterFlush (endFlush s) else { s with flush := some (n + 1#5) }

/-- FLUSH, one `OutWrite`: byte `n` of the block (42_encoder.md R235). -/
def flushStep (n : BitVec 5) (s : State) : Host.Outcome State Fault Refusal :=
  if s.pk.len.toNat < n.toNat ∨ Config.F < s.pk.len.toNat then .fault .registerRange
  else offer (s.pk.blockByte n.toNat) s (flushNext n)

/-- ENC_FINAL: flush a partial block, then the run is done (42_encoder.md R236, R237). -/
def encFinalStep (s : State) : Host.Outcome State Fault Refusal :=
  if s.pk.bit = 0#4 then .next (runDone s) else .next (beginFlush s)

end Sys2Proof.Machine
end

