-- ==== Sys2Proof/Machine/Command.lean ====
section
/-!
DEFINITION. The meanings of the host's commands (44_host_commands.md).
-/

namespace Sys2Proof.Machine

/-- CMD NOP: no effect in any STATE (44_host_commands.md R310). -/
def execCmdNop (_ign : BitVec 28) (s : State) : Host.Outcome State Fault Refusal := .next s

/-- CMD START_ENCODE: nothing while BUSY (44_host_commands.md R315), else START_COMMON and ENC_INIT (R311). -/
def execCmdStartEncode (_ign : BitVec 28) (s : State) : Host.Outcome State Fault Refusal :=
  if s.host.state = .busy then .next s else .next (encInit (startCommon .encode s))

/-- CMD START_DECODE: nothing while BUSY (44_host_commands.md R315), else START_COMMON and DEC_INIT (R313). -/
def execCmdStartDecode (_ign : BitVec 28) (s : State) : Host.Outcome State Fault Refusal :=
  if s.host.state = .busy then .next s else .next (decInit (startCommon .decode s))

/-- CMD with a reserved OP: no effect in any STATE, no error (44_host_commands.md R314). -/
def execCmdReserved (_op : BitVec 4) (_ign : BitVec 28) (s : State) : Host.Outcome State Fault Refusal := .next s

end Sys2Proof.Machine
end

