-- ==== Sys2Proof/Machine/Decoder.lean ====
section
/-!
DEFINITION. The decode run (43_decoder.md): the meanings of CTRL, LIT and MATCH, the reading of their bytes, and DEC_COPY.

The bytes of a token are read one `InRead` a step into the latch; once they are all there, the decoder reads the instruction
from the latch and the step runs its meaning (log entry 3).
-/

namespace Sys2Proof.Machine

/-- The end of a token: the next control bit, and back to DEC_CTRL after the eighth (43_decoder.md R275). -/
def tokenDone (s : State) : State :=
  let bit := s.dec.bit + 1#4
  { s with dec := { s.dec with bit := bit }, phase := if bit = 8#4 then .decCtrl else .decToken }

/-- An accepted output byte is stored at the write cursor, which advances modulo `N` (43_decoder.md R271, R276, R277). -/
def storeAtCursor (b : Byte) (s : State) : State :=
  { s with ring := rbWrite s.dec.cur b s.ring, dec := { s.dec with cur := s.dec.cur + 1#12 } }

/-! ### The meanings -/

/-- CTRL: DEC_CTRL with the control byte read (43_decoder.md R274). -/
def execCtrl (k : Byte) (s : State) : Host.Outcome State Fault Refusal :=
  .next { s with dec := { s.dec with ctrl := k, bit := 0#4 }, phase := .decToken, latch := [] }

/-- LIT once its byte is accepted: store it, next token (43_decoder.md R276). -/
def litDone (d : Byte) (s : State) : State := { tokenDone (storeAtCursor d s) with latch := [] }

/-- LIT: DEC_LIT with the literal read: offer it, and store it once accepted (43_decoder.md R276, R277). -/
def execLit (d : Byte) (s : State) : Host.Outcome State Fault Refusal := offer d s (litDone d)

/-- MATCH: DEC_MATCH with both bytes read: the copy starts (43_decoder.md R278). -/
def execMatch (pos : Pos) (len : BitVec 5) (s : State) : Host.Outcome State Fault Refusal :=
  .next { s with dec := { s.dec with pos := pos, rem := len }, phase := .decCopy, latch := [] }

/-! ### DEC_COPY -/

/-- DEC_COPY once its byte is accepted: store it, advance the source, count down, and end the token after the last byte
(43_decoder.md R279). -/
def copyDone (x : Byte) (s : State) : State :=
  let s1 := storeAtCursor x s
  let s2 := { s1 with dec := { s1.dec with pos := s1.dec.pos + 1#12, rem := s1.dec.rem - 1#5 } }
  if s2.dec.rem = 0#5 then tokenDone s2 else s2

/-- DEC_COPY, one byte: read the ring at the source, offer the byte, store it (43_decoder.md R279). -/
def copyStep (s : State) : Host.Outcome State Fault Refusal :=
  if s.dec.rem = 0#5 then .next (tokenDone s)
  else
    let x := rbRead s.dec.pos s.ring
    offer x s (copyDone x)

/-! ### Reading the bytes of a token -/

/-- The place of the next byte in the token stream: a control byte, or a token of the kind its control bit says
(43_decoder.md R270, R275; 30_encoding.md R127). -/
def streamPlace (s : State) : Place :=
  if s.phase = .decToken then if controlBit s.dec.ctrl s.dec.bit then .literal else .matchSlot
  else .control

/-- The instruction in the latch, once all of its bytes are there (30_encoding.md R132). -/
def latched (s : State) : Option Instr :=
  match decode (streamPlace s) s.latch with
  | .ok (i, _) => some i
  | .error .truncated => none

/-- One `InRead` of a token's bytes: DATA goes to the latch; END ends the run normally, in the middle of a token too
(43_decoder.md R274, R276, R278, R281, R282); ERR is IN_IO (60_exceptions.md R341). -/
def readTokenByte (s : State) : Host.Outcome State Fault Refusal :=
  match inRead s with
  | .held => .next s
  | .data b s1 => .next { s1 with latch := s1.latch ++ [b] }
  | .eos s1 => .next (runDone s1)
  | .err s1 => .next (raiseError .inIo s1)

end Sys2Proof.Machine
end

