-- ==== Sys2Proof/Machine/Dispatch.lean ====
section
/-!
DEFINITION. The meaning of each instruction, one arm per constructor.
-/

namespace Sys2Proof.Machine

/-- The instruction's effect on the state. -/
def exec (i : Instr) (s : State) : Host.Outcome State Fault Refusal :=
  match i with
  | .ctrl k => Sys2Proof.Machine.execCtrl k s
  | .lit d => Sys2Proof.Machine.execLit d s
  | .matchTok pos len => Sys2Proof.Machine.execMatch pos len s
  | .cmdNop ign => Sys2Proof.Machine.execCmdNop ign s
  | .cmdStartEncode ign => Sys2Proof.Machine.execCmdStartEncode ign s
  | .cmdStartDecode ign => Sys2Proof.Machine.execCmdStartDecode ign s
  | .cmdReserved op ign => Sys2Proof.Machine.execCmdReserved op ign s

end Sys2Proof.Machine
end

