-- ==== Sys2Proof/Machine/HostBus.lean ====
section
/-!
DEFINITION. Host accesses of the register block (10_state.md R32 to R41; 44_host_commands.md R316, R317).
-/

namespace Sys2Proof.Machine

/-- The value of the register at an offset (44_host_commands.md R316): CMD and reserved offsets read 0. -/
def regRead (off : Nat) (r : HostRegs) : Word :=
  if off = 0x04 then r.statusWord
  else if off = 0x08 then (if r.ie then 1#32 else 0#32)
  else if off = 0x0C then r.inCount
  else if off = 0x10 then r.outCount
  else 0#32

/-- A host write of CMD: the instruction its word stands for runs (44_host_commands.md R317; 30_encoding.md R135). The four
bytes of a word always decode. -/
def cmdWrite (data : Word) (s : State) : Host.Outcome State Fault Refusal :=
  match decode .command (wordBytes data) with
  | .ok (i, _) => exec i s
  | .error .truncated => .next s

/-- A host write at an offset (44_host_commands.md R317): CMD is a command, IRQ_EN sets `IE <- value[0]`, any other has no
effect. -/
def regWrite (off : Nat) (data : Word) (s : State) : Host.Outcome State Fault Refusal :=
  if off = 0x00 then cmdWrite data s
  else if off = 0x08 then .next { s with host := { s.host with ie := data.getLsbD 0 } }
  else .next s

/-- A host access: refused where 10_state.md R41 leaves it undefined; a read returns its value and changes nothing else
(44_host_commands.md R316). -/
def hostAccess (a : HostAccess) (s : State) : Host.Outcome State Fault Refusal :=
  match a.refusal with
  | some r => .refused r
  | none =>
    match a.op with
    | .read => .next { s with hostData := regRead a.off.toNat s.host }
    | .write data => regWrite a.off.toNat data s

end Sys2Proof.Machine
end

