-- ==== Sys2Proof/Machine/Engine.lean ====
section
/-!
DEFINITION. One step of the engine, and one turn of the agents.
-/

namespace Sys2Proof.Machine

/-- The token stream (43_decoder.md R270): run the instruction in the latch, or read its next byte. A control bit index
beyond 7 selects no token (R275; log entry 12). -/
def decodeStep (s : State) : Host.Outcome State Fault Refusal :=
  if s.phase = .decToken ∧ 8 ≤ s.dec.bit.toNat then .fault .registerRange
  else
    match latched s with
    | some i => exec i s
    | none => readTokenByte s

/-- One operation of the engine, by its phase (10_state.md R47); with no run in progress it waits (60_exceptions.md R365). -/
def phaseStep (s : State) : Host.Outcome State Fault Refusal :=
  match s.phase with
  | .idle => .next s
  | .encPreload => preloadStep s
  | .encStep => encStep s
  | .encFinal => encFinalStep s
  | .decCtrl => decodeStep s
  | .decToken => decodeStep s
  | .decCopy => copyStep s
  | .halted => .next s

/-- One step of the engine: a FLUSH in progress goes on, otherwise the phase says (log entry 3). -/
def engineStep (s : State) : Host.Outcome State Fault Refusal :=
  match s.flush with
  | some n => flushStep n s
  | none => phaseStep s

/-- One turn of an agent (00_scope.md R19; 60_exceptions.md R348; log entry 4). -/
def turnStep (t : Turn) (s : State) : Host.Outcome State Fault Refusal :=
  match t with
  | .engine => engineStep s
  | .host a => hostAccess a s
  | .source x => .next { s with ports := { s.ports with inStream := s.ports.inStream ++ [x] } }
  | .sink a => .next { s with ports := { s.ports with sink := s.ports.sink ++ [a] } }
  | .reset => .next (resetEvent s)

/-! ### Placing an instruction where the next step fetches it (log entry 1) -/

/-- The state with a host write of CMD as the next turn. -/
def placeCommand (w : Word) (s : State) : State :=
  { s with env := .host { op := .write w, off := 0, size := 4 } :: s.env }

/-- The state with the bytes of the next token in the latch and the engine's turn next. -/
def placeToken (bs : List Byte) (s : State) : State :=
  { s with latch := bs, flush := none, env := .engine :: s.env }

/-- The state in a decode run at a control byte: as it is where it stands at one, else a run just started. -/
def atControlByte (s : State) : State :=
  if s.phase = .decCtrl then s else decInit (startCommon .decode s)

/-- The state in a decode run at a match token: as it is where it stands at one, else a run just started whose first control
byte is 0. -/
def atMatchSlot (s : State) : State :=
  if s.phase = .decToken ∧ s.dec.bit.toNat < 8 ∧ streamPlace s = .matchSlot then s
  else
    let s1 := decInit (startCommon .decode s)
    { s1 with dec := { s1.dec with bit := 0#4 }, phase := .decToken }

/-- A word of the opcode table where the next step fetches it: a control byte or a match token in the token stream of a decode
run, a CMD word as the host's next write. No table word is read as a literal (log entry 2). -/
def placeTableWord (nbits w : Nat) (s : State) : State :=
  match tablePlace nbits w with
  | .control => placeToken (tableBytes 1 w) (atControlByte s)
  | .literal => s
  | .matchSlot => placeToken (tableBytes 2 w) (atMatchSlot s)
  | .command => placeCommand (BitVec.ofNat 32 w) s

end Sys2Proof.Machine
end

