-- ==== Sys2Proof/Machine/Step.lean ====
section
/-!
DEFINITION. One step of the machine.
-/

namespace Sys2Proof.Machine

/-- One step: the next agent takes its turn; with no turn listed, the engine moves (log entry 4). -/
def step (s : State) : Host.Outcome State Fault Refusal :=
  match s.env with
  | [] => engineStep s
  | t :: rest => turnStep t { s with env := rest }

/-- The state with an instruction of the opcode table placed where the next step fetches it (log entries 1 and 2). -/
def State.withFetchWord (s : State) (nbits w : Nat) : State := placeTableWord nbits w s

end Sys2Proof.Machine
end

