-- ==== Sys2Proof/Laws/Packer.lean ====
section
/-!
SUPPORT. The packer: what each emit does to each of its registers.
-/

namespace Sys2Proof.Machine

variable (k : Packer)

@[simp] theorem Packer.push_ctrl (b : Byte) : (k.push b).ctrl = k.ctrl := rfl
@[simp] theorem Packer.push_bit (b : Byte) : (k.push b).bit = k.bit := rfl
@[simp] theorem Packer.push_len (b : Byte) : (k.push b).len = k.len + 1#5 := rfl
@[simp] theorem Packer.push_buf (b : Byte) : (k.push b).buf = k.buf.setIfInBounds k.len.toNat b := rfl

@[simp] theorem emitLit_ctrl (b : Byte) : (emitLit b k).ctrl = setControlBit k.ctrl k.bit := rfl
@[simp] theorem emitLit_bit (b : Byte) : (emitLit b k).bit = k.bit + 1#4 := rfl
@[simp] theorem emitLit_len (b : Byte) : (emitLit b k).len = k.len + 1#5 := rfl
@[simp] theorem emitLit_buf (b : Byte) : (emitLit b k).buf = k.buf.setIfInBounds k.len.toNat b := rfl

@[simp] theorem emitMatch_ctrl (pos : Pos) (len : BitVec 5) : (emitMatch pos len k).ctrl = k.ctrl := rfl
@[simp] theorem emitMatch_bit (pos : Pos) (len : BitVec 5) : (emitMatch pos len k).bit = k.bit + 1#4 := rfl
@[simp] theorem emitMatch_len (pos : Pos) (len : BitVec 5) : (emitMatch pos len k).len = k.len + 1#5 + 1#5 := rfl
@[simp] theorem emitMatch_buf (pos : Pos) (len : BitVec 5) : (emitMatch pos len k).buf =
    (k.buf.setIfInBounds k.len.toNat (matchByte0 pos)).setIfInBounds (k.len + 1#5).toNat (matchByte1 pos len) := rfl

@[simp] theorem Packer.cleared_ctrl : k.cleared.ctrl = 0#8 := rfl
@[simp] theorem Packer.cleared_bit : k.cleared.bit = 0#4 := rfl
@[simp] theorem Packer.cleared_len : k.cleared.len = 0#5 := rfl
@[simp] theorem Packer.cleared_buf : k.cleared.buf = k.buf := rfl

@[simp] theorem Packer.blockByte_zero : k.blockByte 0 = k.ctrl := rfl
@[simp] theorem Packer.blockByte_succ (n : Nat) : k.blockByte (n + 1) = k.buf.toList.getD n 0#8 := rfl

end Sys2Proof.Machine
end

