-- ==== Sys2Proof/Laws/Store.lean ====
section
/-!
SUPPORT. Sparse memories: a read after a write, and that every operation keeps the canonical form.
-/

namespace Sys2Proof.Machine

variable {β : Type}

@[simp] theorem Store.get_nil (d : β) (k : Nat) : Store.get d k [] = d := rfl

theorem Store.get_cons_ne (d : β) {a k : Nat} (b : β) (m : List (Nat × β)) (h : a ≠ k) :
    Store.get d k ((a, b) :: m) = Store.get d k m := by
  simp [Store.get, h]

@[simp] theorem Store.get_cons_same (d : β) (k : Nat) (b : β) (m : List (Nat × β)) :
    Store.get d k ((k, b) :: m) = b := by
  simp [Store.get]

section
variable [DecidableEq β] {d : β} {n : Nat}

@[simp] theorem Store.wfFrom_nil (lo : Nat) : Store.wfFrom d n lo [] = true := rfl

theorem Store.wfFrom_cons {lo k : Nat} {v : β} {m : List (Nat × β)} :
    Store.wfFrom d n lo ((k, v) :: m) = true ↔ lo ≤ k ∧ k < n ∧ v ≠ d ∧ Store.wfFrom d n (k + 1) m = true := by
  simp [Store.wfFrom, and_assoc]

theorem Store.wfFrom_mono {lo lo' : Nat} {m : List (Nat × β)} (h : lo' ≤ lo) (hm : Store.wfFrom d n lo m = true) :
    Store.wfFrom d n lo' m = true := by
  cases m with
  | nil => rfl
  | cons p m =>
    obtain ⟨h1, h2⟩ := Store.wfFrom_cons.1 hm
    exact Store.wfFrom_cons.2 ⟨h.trans h1, h2⟩

/-- Below the first listed index everything reads as the default. -/
theorem Store.get_below {lo k : Nat} {m : List (Nat × β)} (hm : Store.wfFrom d n lo m = true) (h : k < lo) :
    Store.get d k m = d := by
  induction m generalizing lo with
  | nil => rfl
  | cons p m ih =>
    obtain ⟨h1, -, -, h2⟩ := Store.wfFrom_cons.1 hm
    rw [Store.get_cons_ne d _ _ (by omega)]
    exact ih h2 (by omega)

theorem Store.get_consEntry {lo k q : Nat} {v : β} {m : List (Nat × β)} (hm : Store.wfFrom d n lo m = true) (h : k < lo) :
    Store.get d q (Store.cons d k v m) = if q = k then v else Store.get d q m := by
  unfold Store.cons
  by_cases hv : v = d
  · by_cases hq : q = k
    · simp [hv, hq, Store.get_below hm h]
    · simp [hv, hq]
  · by_cases hq : q = k
    · simp [hv, hq]
    · simp [hv, hq, Store.get_cons_ne d v m (fun e => hq e.symm)]

theorem Store.wf_consEntry {lo k : Nat} {v : β} {m : List (Nat × β)} (hlo : lo ≤ k) (hk : k < n)
    (hm : Store.wfFrom d n (k + 1) m = true) : Store.wfFrom d n lo (Store.cons d k v m) = true := by
  unfold Store.cons
  by_cases hv : v = d
  · simpa [hv] using Store.wfFrom_mono (by omega : lo ≤ k + 1) hm
  · simpa [hv] using Store.wfFrom_cons.2 ⟨hlo, hk, hv, hm⟩

theorem Store.get_setFrom {lo k q : Nat} {v : β} {m : List (Nat × β)} (hm : Store.wfFrom d n lo m = true) :
    Store.get d q (Store.set d k v m) = if q = k then v else Store.get d q m := by
  induction m generalizing lo with
  | nil => exact Store.get_consEntry (n := n) (lo := k + 1) rfl (by omega)
  | cons p m ih =>
    obtain ⟨a, b⟩ := p
    obtain ⟨h1, h2, h3, h4⟩ := Store.wfFrom_cons.1 hm
    rcases Nat.lt_trichotomy k a with h | h | h
    · simp only [Store.set, h, if_true]
      exact Store.get_consEntry (Store.wfFrom_cons.2 ⟨le_rfl, h2, h3, h4⟩) h
    · subst h
      simp only [Store.set, Nat.lt_irrefl, if_false, if_true]
      rw [Store.get_consEntry h4 (by omega)]
      by_cases hq : q = k
      · simp [hq]
      · simp [hq, Store.get_cons_ne d b m (fun e => hq e.symm)]
    · simp only [Store.set, show ¬ k < a by omega, show ¬ k = a by omega, if_false]
      by_cases hq : a = q
      · subst hq
        simp [show ¬ a = k by omega]
      · rw [Store.get_cons_ne d b _ hq, Store.get_cons_ne d b _ hq, ih h4]

theorem Store.wf_setFrom {lo k : Nat} {v : β} {m : List (Nat × β)} (hm : Store.wfFrom d n lo m = true) (hlo : lo ≤ k)
    (hk : k < n) : Store.wfFrom d n lo (Store.set d k v m) = true := by
  induction m generalizing lo with
  | nil => exact Store.wf_consEntry hlo hk rfl
  | cons p m ih =>
    obtain ⟨a, b⟩ := p
    obtain ⟨h1, h2, h3, h4⟩ := Store.wfFrom_cons.1 hm
    rcases Nat.lt_trichotomy k a with h | h | h
    · simp only [Store.set, h, if_true]
      exact Store.wf_consEntry hlo hk (Store.wfFrom_cons.2 ⟨h, h2, h3, h4⟩)
    · subst h
      simp only [Store.set, Nat.lt_irrefl, if_false, if_true]
      exact Store.wf_consEntry hlo hk h4
    · simp only [Store.set, show ¬ k < a by omega, show ¬ k = a by omega, if_false]
      exact Store.wfFrom_cons.2 ⟨h1, h2, h3, ih h4 (by omega)⟩

/-- A read after a write, for a memory in canonical form. -/
theorem Store.get_set {k q : Nat} {v : β} {m : List (Nat × β)} (hm : Store.wf d n m = true) :
    Store.get d q (Store.set d k v m) = if q = k then v else Store.get d q m :=
  Store.get_setFrom hm

/-- A write keeps the canonical form. -/
theorem Store.wf_set {k : Nat} {v : β} {m : List (Nat × β)} (hm : Store.wf d n m = true) (hk : k < n) :
    Store.wf d n (Store.set d k v m) = true :=
  Store.wf_setFrom hm (Nat.zero_le k) hk

@[simp] theorem Store.wf_nil : Store.wf d n [] = true := rfl

/-- Rewriting a memory keeps the canonical form. -/
theorem Store.wf_redraw (f : Nat → β → β) {k : Nat} {m : List (Nat × β)} (hm : Store.wf d n m = true) (hk : k ≤ n) :
    Store.wf d n (Store.redraw d f k m) = true := by
  induction k generalizing m with
  | zero => exact hm
  | succ k ih => exact ih (Store.wf_set hm (by omega)) (by omega)

/-- In canonical form a memory is what it reads as. -/
theorem Store.ext_from {lo : Nat} {m m' : List (Nat × β)} (hm : Store.wfFrom d n lo m = true)
    (hm' : Store.wfFrom d n lo m' = true) (h : ∀ k, Store.get d k m = Store.get d k m') : m = m' := by
  induction m generalizing lo m' with
  | nil =>
    cases m' with
    | nil => rfl
    | cons p m' =>
      obtain ⟨a, b⟩ := p
      obtain ⟨-, -, h3, -⟩ := Store.wfFrom_cons.1 hm'
      exact absurd (by simpa using (h a).symm) h3
  | cons p m ih =>
    obtain ⟨a, b⟩ := p
    obtain ⟨h1, h2, h3, h4⟩ := Store.wfFrom_cons.1 hm
    cases m' with
    | nil => exact absurd (by simpa using h a) h3
    | cons p' m' =>
      obtain ⟨a', b'⟩ := p'
      obtain ⟨h1', h2', h3', h4'⟩ := Store.wfFrom_cons.1 hm'
      have hab : a = a' := by
        rcases Nat.lt_trichotomy a a' with hl | hl | hl
        · have := h a
          rw [Store.get_cons_same, Store.get_cons_ne d b' m' (by omega), Store.get_below h4' (by omega)] at this
          exact absurd this h3
        · exact hl
        · have := h a'
          rw [Store.get_cons_same, Store.get_cons_ne d b m (by omega), Store.get_below h4 (by omega)] at this
          exact absurd this.symm h3'
      subst hab
      have hb : b = b' := by simpa using h a
      subst hb
      congr 1
      refine ih h4 h4' fun k => ?_
      by_cases hk : a = k
      · subst hk
        rw [Store.get_below h4 (by omega), Store.get_below h4' (by omega)]
      · simpa [Store.get_cons_ne d b _ hk] using h k

/-- Equal memories are equal lists: two memories in canonical form that read the same are the same. -/
theorem Store.ext {m m' : List (Nat × β)} (hm : Store.wf d n m = true) (hm' : Store.wf d n m' = true)
    (h : ∀ k, Store.get d k m = Store.get d k m') : m = m' :=
  Store.ext_from hm hm' h

end

end Sys2Proof.Machine
end

