-- ==== Sys2Proof/Laws/Ring.lean ====
section
/-!
SUPPORT. The ring buffer: what RB_FILL and RB_WRITE leave to be read, and that they keep the canonical form.
-/

namespace Sys2Proof.Machine

@[simp] theorem rbReadPhys_rbFill (q : Nat) : rbReadPhys q rbFill = Config.fill := rfl

@[simp] theorem rbRead_rbFill (p : Pos) : rbRead p rbFill = Config.fill := rfl

@[simp] theorem Memory.wf_rbFill : Memory.wf rbFill = true := rfl

/-- RB_WRITE keeps the canonical form. -/
theorem Memory.wf_rbWrite {m : Ring} (p : Pos) (b : Byte) (hm : Memory.wf m = true) : Memory.wf (rbWrite p b m) = true := by
  have hp := p.isLt
  unfold rbWrite
  have h1 : Store.wf Config.fill Config.slots (Store.set Config.fill p.toNat b m) = true := Store.wf_set hm (by
    simp only [Config.slots]; omega)
  split
  · rename_i h
    exact Store.wf_set h1 (by simp only [Config.F, Config.N, Config.slots] at *; omega)
  · exact h1

/-- What a slot reads after RB_WRITE: the byte in slot `p` and, for `p < F`, in its padding copy; every other slot as
before (40_ring_buffer.md R162). -/
theorem rbReadPhys_rbWrite {m : Ring} (p : Pos) (b : Byte) (q : Nat) (hm : Memory.wf m = true) :
    rbReadPhys q (rbWrite p b m) =
      if q = p.toNat ∨ (p.toNat < Config.F ∧ q = Config.N + p.toNat) then b else rbReadPhys q m := by
  have hp := p.isLt
  have h1 : Store.wf Config.fill Config.slots (Store.set Config.fill p.toNat b m) = true := Store.wf_set hm (by
    simp only [Config.slots]; omega)
  unfold rbWrite rbReadPhys
  by_cases h : p.toNat < Config.F
  · simp only [h, if_true, Store.get_set h1, Store.get_set (n := Config.slots) hm, true_and]
    by_cases h2 : q = Config.N + p.toNat
    · simp [h2]
    · by_cases h3 : q = p.toNat <;> simp [h2, h3]
  · simp only [h, if_false, Store.get_set (n := Config.slots) hm, false_and, or_false]

end Sys2Proof.Machine
end

