-- ==== Sys2Proof/Laws/MatchTree.lean ====
section
/-!
SUPPORT. The match tree: what each field reads after each write, and that INSERT and DELETE keep the canonical form.
-/

namespace Sys2Proof.Machine

variable {t t1 : Tree}

/-! ### The canonical form of each memory -/

theorem Tree.wf_iff : t.wf = true ↔
    Store.wf none Config.trees t.root = true ∧ Store.wf none Config.N t.left = true ∧
    Store.wf none Config.N t.right = true ∧ Store.wf Link.none Config.N t.parent = true := by
  simp [Tree.wf, and_assoc]

@[simp] theorem Tree.wf_treeInit (h : t.wf = true) : (treeInit t).wf = true := by
  obtain ⟨-, hl, hr, -⟩ := Tree.wf_iff.1 h
  exact Tree.wf_iff.2 ⟨rfl, hl, hr, rfl⟩

theorem Tree.wf_setRoot (c : Byte) (v : Child) (h : t.wf = true) : (t.setRoot c v).wf = true := by
  obtain ⟨h0, hl, hr, hp⟩ := Tree.wf_iff.1 h
  exact Tree.wf_iff.2 ⟨Store.wf_set h0 c.isLt, hl, hr, hp⟩

theorem Tree.wf_setLeft (q : Pos) (v : Child) (h : t.wf = true) : (t.setLeft q v).wf = true := by
  obtain ⟨h0, hl, hr, hp⟩ := Tree.wf_iff.1 h
  exact Tree.wf_iff.2 ⟨h0, Store.wf_set hl q.isLt, hr, hp⟩

theorem Tree.wf_setRight (q : Pos) (v : Child) (h : t.wf = true) : (t.setRight q v).wf = true := by
  obtain ⟨h0, hl, hr, hp⟩ := Tree.wf_iff.1 h
  exact Tree.wf_iff.2 ⟨h0, hl, Store.wf_set hr q.isLt, hp⟩

theorem Tree.wf_setParentOf (q : Pos) (l : Link) (h : t.wf = true) : (t.setParentOf q l).wf = true := by
  obtain ⟨h0, hl, hr, hp⟩ := Tree.wf_iff.1 h
  exact Tree.wf_iff.2 ⟨h0, hl, hr, Store.wf_set hp q.isLt⟩

theorem Tree.wf_setParent (q : Child) (l : Link) (h : t.wf = true) : (t.setParent q l).wf = true := by
  cases q with
  | none => exact h
  | some q => exact Tree.wf_setParentOf q l h

theorem Tree.wf_redraw (draw : Nat) (h : t.wf = true) : (t.redraw draw).wf = true := by
  obtain ⟨h0, hl, hr, hp⟩ := Tree.wf_iff.1 h
  rw [Tree.wf_iff]
  simp only [Tree.redraw]
  exact ⟨Store.wf_redraw (Config.freeRoot draw) h0 le_rfl, Store.wf_redraw (Config.freeLeft draw) hl le_rfl,
    Store.wf_redraw (Config.freeRight draw) hr le_rfl, Store.wf_redraw (Config.freeParent draw) hp le_rfl⟩

/-! ### Reads after writes -/

@[simp] theorem Tree.leftOf_setRoot (c : Byte) (v : Child) (r : Pos) : (t.setRoot c v).leftOf r = t.leftOf r := rfl
@[simp] theorem Tree.rightOf_setRoot (c : Byte) (v : Child) (r : Pos) : (t.setRoot c v).rightOf r = t.rightOf r := rfl
@[simp] theorem Tree.parentOf_setRoot (c : Byte) (v : Child) (r : Pos) : (t.setRoot c v).parentOf r = t.parentOf r := rfl
@[simp] theorem Tree.rootAt_setLeft (q : Pos) (v : Child) (c : Byte) : (t.setLeft q v).rootAt c = t.rootAt c := rfl
@[simp] theorem Tree.rightOf_setLeft (q : Pos) (v : Child) (r : Pos) : (t.setLeft q v).rightOf r = t.rightOf r := rfl
@[simp] theorem Tree.parentOf_setLeft (q : Pos) (v : Child) (r : Pos) : (t.setLeft q v).parentOf r = t.parentOf r := rfl
@[simp] theorem Tree.rootAt_setRight (q : Pos) (v : Child) (c : Byte) : (t.setRight q v).rootAt c = t.rootAt c := rfl
@[simp] theorem Tree.leftOf_setRight (q : Pos) (v : Child) (r : Pos) : (t.setRight q v).leftOf r = t.leftOf r := rfl
@[simp] theorem Tree.parentOf_setRight (q : Pos) (v : Child) (r : Pos) : (t.setRight q v).parentOf r = t.parentOf r := rfl
@[simp] theorem Tree.rootAt_setParentOf (q : Pos) (l : Link) (c : Byte) : (t.setParentOf q l).rootAt c = t.rootAt c := rfl
@[simp] theorem Tree.leftOf_setParentOf (q : Pos) (l : Link) (r : Pos) : (t.setParentOf q l).leftOf r = t.leftOf r := rfl
@[simp] theorem Tree.rightOf_setParentOf (q : Pos) (l : Link) (r : Pos) : (t.setParentOf q l).rightOf r = t.rightOf r := rfl

@[simp] theorem Tree.rootAt_setParent (q : Child) (l : Link) (c : Byte) : (t.setParent q l).rootAt c = t.rootAt c := by
  cases q <;> rfl
@[simp] theorem Tree.leftOf_setParent (q : Child) (l : Link) (r : Pos) : (t.setParent q l).leftOf r = t.leftOf r := by
  cases q <;> rfl
@[simp] theorem Tree.rightOf_setParent (q : Child) (l : Link) (r : Pos) : (t.setParent q l).rightOf r = t.rightOf r := by
  cases q <;> rfl

theorem Tree.rootAt_setRoot (h : t.wf = true) (c : Byte) (v : Child) (c' : Byte) :
    (t.setRoot c v).rootAt c' = if c' = c then v else t.rootAt c' := by
  obtain ⟨h0, -⟩ := Tree.wf_iff.1 h
  simp only [Tree.rootAt, Tree.setRoot, Store.get_set h0, BitVec.toNat_inj]

theorem Tree.leftOf_setLeft (h : t.wf = true) (q : Pos) (v : Child) (r : Pos) :
    (t.setLeft q v).leftOf r = if r = q then v else t.leftOf r := by
  obtain ⟨-, hl, -⟩ := Tree.wf_iff.1 h
  simp only [Tree.leftOf, Tree.setLeft, Store.get_set hl, BitVec.toNat_inj]

theorem Tree.rightOf_setRight (h : t.wf = true) (q : Pos) (v : Child) (r : Pos) :
    (t.setRight q v).rightOf r = if r = q then v else t.rightOf r := by
  obtain ⟨-, -, hr, -⟩ := Tree.wf_iff.1 h
  simp only [Tree.rightOf, Tree.setRight, Store.get_set hr, BitVec.toNat_inj]

theorem Tree.parentOf_setParentOf (h : t.wf = true) (q : Pos) (l : Link) (r : Pos) :
    (t.setParentOf q l).parentOf r = if r = q then l else t.parentOf r := by
  obtain ⟨-, -, -, hp⟩ := Tree.wf_iff.1 h
  simp only [Tree.parentOf, Tree.setParentOf, Store.get_set hp, BitVec.toNat_inj]

theorem Tree.parentOf_setParent (h : t.wf = true) (q : Child) (l : Link) (r : Pos) :
    (t.setParent q l).parentOf r = if some r = q then l else t.parentOf r := by
  cases q with
  | none => simp [Tree.setParent]
  | some q => simp [Tree.setParent, Tree.parentOf_setParentOf h]

@[simp] theorem treeInit_rootAt (c : Byte) : (treeInit t).rootAt c = none := rfl
@[simp] theorem treeInit_parentOf (q : Pos) : (treeInit t).parentOf q = .none := rfl
@[simp] theorem treeInit_leftOf (q : Pos) : (treeInit t).leftOf q = t.leftOf q := rfl
@[simp] theorem treeInit_rightOf (q : Pos) : (treeInit t).rightOf q = t.rightOf q := rfl

/-! ### Link primitives -/

/-- LinkSet stops on NONE alone. -/
theorem Tree.linkSet_ok_iff {l : Link} {v : Child} : (∃ t1, t.linkSet l v = .ok t1) ↔ l ≠ .none := by
  cases l <;> simp [Tree.linkSet]

/-- LinkSet on a link cell: that cell reads `v`, every other as before, no parent changes, the canonical form stays. -/
theorem Tree.linkSet_spec {l : Link} {v : Child} (h : t.wf = true) (e : t.linkSet l v = .ok t1) :
    t1.wf = true ∧ l ≠ .none ∧ (∀ q, t1.parentOf q = t.parentOf q) ∧ t1.linkGet l = v ∧
    ∀ l', l' ≠ l → t1.linkGet l' = t.linkGet l' := by
  cases l with
  | none => cases e
  | root c =>
    cases e
    refine ⟨Tree.wf_setRoot c v h, by simp, fun _ => rfl, by simp [Tree.linkGet, Tree.rootAt_setRoot h], ?_⟩
    intro l' hl
    cases l' with
    | root c' => simp only [Tree.linkGet, Tree.rootAt_setRoot h, if_neg (fun e => hl (e ▸ rfl) : ¬ c' = c)]
    | _ => rfl
  | left r =>
    cases e
    refine ⟨Tree.wf_setLeft r v h, by simp, fun _ => rfl, by simp [Tree.linkGet, Tree.leftOf_setLeft h], ?_⟩
    intro l' hl
    cases l' with
    | left r' => simp only [Tree.linkGet, Tree.leftOf_setLeft h, if_neg (fun e => hl (e ▸ rfl) : ¬ r' = r)]
    | _ => rfl
  | right r =>
    cases e
    refine ⟨Tree.wf_setRight r v h, by simp, fun _ => rfl, by simp [Tree.linkGet, Tree.rightOf_setRight h], ?_⟩
    intro l' hl
    cases l' with
    | right r' => simp only [Tree.linkGet, Tree.rightOf_setRight h, if_neg (fun e => hl (e ▸ rfl) : ¬ r' = r)]
    | _ => rfl

/-! ### INSERT and DELETE keep the canonical form -/

theorem attach_wf {i : Pos} {link : Link} (h : t.wf = true) (e : attach i link t = .ok t1) : t1.wf = true := by
  unfold attach at e
  split at e
  · cases e
  · rename_i t2 e2
    cases e
    exact Tree.wf_setParentOf i link (Tree.linkSet_spec h e2).1

theorem replaceNode_wf {i j : Pos} (h : t.wf = true) (e : replaceNode i j t = .ok t1) : t1.wf = true := by
  simp only [replaceNode] at e
  split at e
  · cases e
  · rename_i t2 e2
    cases e
    refine Tree.wf_setParentOf j .none (Tree.wf_setParentOf i _ (Tree.linkSet_spec ?_ e2).1)
    exact Tree.wf_setParent _ _ (Tree.wf_setParent _ _ (Tree.wf_setRight i _ (Tree.wf_setLeft i _ h)))

theorem insertWalk_wf {m : Ring} {i : Pos} {run fuel : Nat} {link : Link} {f f1 : Finder} (h : t.wf = true)
    (e : insertWalk m i run fuel link t f = .ok (t1, f1)) : t1.wf = true := by
  induction fuel generalizing link f with
  | zero => cases e
  | succ fuel ih =>
    simp only [insertWalk] at e
    split at e
    · split at e
      · cases e
      · rename_i t2 e2
        cases e
        exact attach_wf h e2
    · split at e
      · split at e
        · cases e
        · rename_i t2 e2
          cases e
          exact replaceNode_wf h e2
      · exact ih e

/-- INSERT keeps the canonical form. -/
theorem insert_wf {m : Ring} {i : Pos} {run : Nat} {f f1 : Finder} (h : t.wf = true)
    (e : insert m i run t f = .ok (t1, f1)) : t1.wf = true := by
  unfold insert at e
  split at e
  · cases e
  · exact insertWalk_wf (Tree.wf_setRight i none (Tree.wf_setLeft i none h)) e

theorem spliceOut_wf {z : Pos} {y : Child} (h : t.wf = true) (e : spliceOut z y t = .ok t1) : t1.wf = true := by
  simp only [spliceOut] at e
  split at e
  · cases e
  · rename_i t2 e2
    cases e
    exact Tree.wf_setParentOf z .none (Tree.linkSet_spec (Tree.wf_setParent y _ h) e2).1

theorem takeRight_wf (z y : Pos) (h : t.wf = true) : (takeRight z y t).wf = true :=
  Tree.wf_setParent _ _ (Tree.wf_setRight y _ h)

theorem liftPredecessor_wf {z y : Pos} (h : t.wf = true) (e : liftPredecessor z y t = .ok t1) : t1.wf = true := by
  simp only [liftPredecessor] at e
  split at e
  · cases e
  · rename_i t2 e2
    cases e
    exact Tree.wf_setParent _ _ (Tree.wf_setLeft y _ (Tree.wf_setParent _ _ (Tree.linkSet_spec h e2).1))

/-- DELETE keeps the canonical form. -/
theorem delete_wf {z : Pos} (h : t.wf = true) (e : delete z t = .ok t1) : t1.wf = true := by
  unfold delete at e
  split at e
  · cases e; exact h
  · split at e
    · exact spliceOut_wf h e
    · exact spliceOut_wf h e
    · unfold deleteTwo at e
      split at e
      · exact spliceOut_wf (takeRight_wf _ _ h) e
      · split at e
        · cases e
        · split at e
          · cases e
          · rename_i e2
            exact spliceOut_wf (takeRight_wf _ _ (liftPredecessor_wf h e2)) e

/-! ### The common prefix -/

/-- CPL is at most `run`. -/
theorem cpl_le (m : Ring) (j i run : Nat) : cpl m j i run ≤ run := by
  induction run generalizing j i with
  | zero => simp [cpl]
  | succ run ih =>
    unfold cpl
    split
    · exact Nat.succ_le_succ (ih (j + 1) (i + 1))
    · omega

/-- The bytes before the common prefix ends are equal (41_match_tree.md R185). -/
theorem cpl_equal (m : Ring) (j i run k : Nat) (h : k < cpl m j i run) : rbReadPhys (j + k) m = rbReadPhys (i + k) m := by
  induction run generalizing j i k with
  | zero => simp [cpl] at h
  | succ run ih =>
    unfold cpl at h
    split at h
    · cases k with
      | zero => simpa
      | succ k =>
        have := ih (j + 1) (i + 1) k (by omega)
        simpa [Nat.add_assoc, Nat.add_comm 1 k] using this
    · omega

/-- The bytes where the common prefix ends early are different (41_match_tree.md R185, R188). -/
theorem cpl_differs (m : Ring) (j i run : Nat) (h : cpl m j i run < run) :
    rbReadPhys (j + cpl m j i run) m ≠ rbReadPhys (i + cpl m j i run) m := by
  induction run generalizing j i with
  | zero => omega
  | succ run ih =>
    by_cases e : rbReadPhys j m = rbReadPhys i m
    · have hc : cpl m j i (run + 1) = cpl m (j + 1) (i + 1) run + 1 := by simp [cpl, e]
      rw [hc] at h ⊢
      have := ih (j + 1) (i + 1) (by omega)
      simpa [Nat.add_assoc, Nat.add_comm 1] using this
    · have hc : cpl m j i (run + 1) = 0 := by simp [cpl, e]
      simpa [hc] using e

end Sys2Proof.Machine
end

