-- ==== Sys2Proof/Laws/State.lean ====
section
/-!
SUPPORT. What each named update of the state does to each field, so that no later proof unfolds a record update.
-/

namespace Sys2Proof.Machine

variable (s : State)

/-! ### runDone -/

@[simp] theorem runDone_host : (runDone s).host = { s.host with state := .done } := rfl
@[simp] theorem runDone_ring : (runDone s).ring = s.ring := rfl
@[simp] theorem runDone_tree : (runDone s).tree = s.tree := rfl
@[simp] theorem runDone_phase : (runDone s).phase = .halted := rfl
@[simp] theorem runDone_enc : (runDone s).enc = s.enc := rfl
@[simp] theorem runDone_finder : (runDone s).finder = s.finder := rfl
@[simp] theorem runDone_pk : (runDone s).pk = s.pk := rfl
@[simp] theorem runDone_dec : (runDone s).dec = s.dec := rfl
@[simp] theorem runDone_ports : (runDone s).ports = s.ports := rfl
@[simp] theorem runDone_env : (runDone s).env = s.env := rfl
@[simp] theorem runDone_hostData : (runDone s).hostData = s.hostData := rfl
@[simp] theorem runDone_latch : (runDone s).latch = [] := rfl
@[simp] theorem runDone_flush : (runDone s).flush = none := rfl
@[simp] theorem runDone_draw : (runDone s).draw = s.draw := rfl

/-! ### raiseError -/

@[simp] theorem raiseError_host (c : ErrCode) : (raiseError c s).host = { s.host with state := .error, err := c } := rfl
@[simp] theorem raiseError_ring (c : ErrCode) : (raiseError c s).ring = s.ring := rfl
@[simp] theorem raiseError_tree (c : ErrCode) : (raiseError c s).tree = s.tree := rfl
@[simp] theorem raiseError_phase (c : ErrCode) : (raiseError c s).phase = .halted := rfl
@[simp] theorem raiseError_enc (c : ErrCode) : (raiseError c s).enc = s.enc := rfl
@[simp] theorem raiseError_finder (c : ErrCode) : (raiseError c s).finder = s.finder := rfl
@[simp] theorem raiseError_pk (c : ErrCode) : (raiseError c s).pk = s.pk := rfl
@[simp] theorem raiseError_dec (c : ErrCode) : (raiseError c s).dec = s.dec := rfl
@[simp] theorem raiseError_ports (c : ErrCode) : (raiseError c s).ports = s.ports := rfl
@[simp] theorem raiseError_env (c : ErrCode) : (raiseError c s).env = s.env := rfl
@[simp] theorem raiseError_hostData (c : ErrCode) : (raiseError c s).hostData = s.hostData := rfl
@[simp] theorem raiseError_latch (c : ErrCode) : (raiseError c s).latch = [] := rfl
@[simp] theorem raiseError_flush (c : ErrCode) : (raiseError c s).flush = none := rfl
@[simp] theorem raiseError_draw (c : ErrCode) : (raiseError c s).draw = s.draw := rfl

/-! ### startCommon -/

@[simp] theorem startCommon_host (m : Mode) : (startCommon m s).host =
    { s.host with state := .busy, mode := m, err := .none, inCount := 0#32, outCount := 0#32 } := rfl
@[simp] theorem startCommon_ring (m : Mode) : (startCommon m s).ring = s.ring := rfl
@[simp] theorem startCommon_tree (m : Mode) : (startCommon m s).tree = s.tree := rfl
@[simp] theorem startCommon_phase (m : Mode) : (startCommon m s).phase = s.phase := rfl
@[simp] theorem startCommon_enc (m : Mode) : (startCommon m s).enc = s.enc := rfl
@[simp] theorem startCommon_finder (m : Mode) : (startCommon m s).finder = s.finder := rfl
@[simp] theorem startCommon_pk (m : Mode) : (startCommon m s).pk = s.pk := rfl
@[simp] theorem startCommon_dec (m : Mode) : (startCommon m s).dec = s.dec := rfl
@[simp] theorem startCommon_ports (m : Mode) : (startCommon m s).ports = s.ports := rfl
@[simp] theorem startCommon_env (m : Mode) : (startCommon m s).env = s.env := rfl
@[simp] theorem startCommon_hostData (m : Mode) : (startCommon m s).hostData = s.hostData := rfl
@[simp] theorem startCommon_latch (m : Mode) : (startCommon m s).latch = s.latch := rfl
@[simp] theorem startCommon_flush (m : Mode) : (startCommon m s).flush = s.flush := rfl
@[simp] theorem startCommon_draw (m : Mode) : (startCommon m s).draw = s.draw := rfl

/-! ### decInit -/

@[simp] theorem decInit_host : (decInit s).host = s.host := rfl
@[simp] theorem decInit_ring : (decInit s).ring = rbFill := rfl
@[simp] theorem decInit_tree : (decInit s).tree = s.tree := rfl
@[simp] theorem decInit_phase : (decInit s).phase = .decCtrl := rfl
@[simp] theorem decInit_enc : (decInit s).enc = s.enc := rfl
@[simp] theorem decInit_finder : (decInit s).finder = s.finder := rfl
@[simp] theorem decInit_pk : (decInit s).pk = s.pk := rfl
@[simp] theorem decInit_dec : (decInit s).dec =
    { cur := Config.start, ctrl := 0#8, bit := 8#4, pos := 0#12, rem := 0#5 } := rfl
@[simp] theorem decInit_ports : (decInit s).ports = s.ports := rfl
@[simp] theorem decInit_env : (decInit s).env = s.env := rfl
@[simp] theorem decInit_hostData : (decInit s).hostData = s.hostData := rfl
@[simp] theorem decInit_latch : (decInit s).latch = [] := rfl
@[simp] theorem decInit_flush : (decInit s).flush = none := rfl
@[simp] theorem decInit_draw : (decInit s).draw = s.draw := rfl

/-! ### encInit -/

@[simp] theorem encInit_host : (encInit s).host = s.host := rfl
@[simp] theorem encInit_ring : (encInit s).ring = rbFill := rfl
@[simp] theorem encInit_tree : (encInit s).tree = treeInit s.tree := rfl
@[simp] theorem encInit_phase : (encInit s).phase = .encPreload := rfl
@[simp] theorem encInit_enc : (encInit s).enc =
    { la := 0#5, eos := false, p := Config.start, run := 0#5, skip := 0#4 } := rfl
@[simp] theorem encInit_finder : (encInit s).finder = s.finder := rfl
@[simp] theorem encInit_pk : (encInit s).pk = { s.pk with ctrl := 0#8, bit := 0#4, len := 0#5 } := rfl
@[simp] theorem encInit_dec : (encInit s).dec = s.dec := rfl
@[simp] theorem encInit_ports : (encInit s).ports = s.ports := rfl
@[simp] theorem encInit_env : (encInit s).env = s.env := rfl
@[simp] theorem encInit_hostData : (encInit s).hostData = s.hostData := rfl
@[simp] theorem encInit_latch : (encInit s).latch = [] := rfl
@[simp] theorem encInit_flush : (encInit s).flush = none := rfl
@[simp] theorem encInit_draw : (encInit s).draw = s.draw := rfl

/-! ### resetEvent -/

@[simp] theorem resetEvent_host : (resetEvent s).host = State.reset.host := rfl
@[simp] theorem resetEvent_ring : (resetEvent s).ring =
    Store.redraw Config.fill (Config.freeByte s.draw) Config.slots s.ring := by
  simp only [resetEvent]
@[simp] theorem resetEvent_tree : (resetEvent s).tree = s.tree.redraw s.draw := by
  simp only [resetEvent]
@[simp] theorem resetEvent_phase : (resetEvent s).phase = .idle := rfl
@[simp] theorem resetEvent_enc : (resetEvent s).enc = State.reset.enc := rfl
@[simp] theorem resetEvent_finder : (resetEvent s).finder = State.reset.finder := rfl
@[simp] theorem resetEvent_pk : (resetEvent s).pk =
    { State.reset.pk with buf := Config.freePkBuf s.draw s.pk.buf } := by
  simp only [resetEvent]
@[simp] theorem resetEvent_dec : (resetEvent s).dec = State.reset.dec := rfl
@[simp] theorem resetEvent_ports : (resetEvent s).ports = s.ports := rfl
@[simp] theorem resetEvent_env : (resetEvent s).env = s.env := rfl
@[simp] theorem resetEvent_hostData : (resetEvent s).hostData = s.hostData := rfl
@[simp] theorem resetEvent_latch : (resetEvent s).latch = [] := rfl
@[simp] theorem resetEvent_flush : (resetEvent s).flush = none := rfl
@[simp] theorem resetEvent_draw : (resetEvent s).draw = s.draw + 1 := rfl

/-! ### beginFlush -/

@[simp] theorem beginFlush_host : (beginFlush s).host = s.host := rfl
@[simp] theorem beginFlush_ring : (beginFlush s).ring = s.ring := rfl
@[simp] theorem beginFlush_tree : (beginFlush s).tree = s.tree := rfl
@[simp] theorem beginFlush_phase : (beginFlush s).phase = s.phase := rfl
@[simp] theorem beginFlush_enc : (beginFlush s).enc = s.enc := rfl
@[simp] theorem beginFlush_finder : (beginFlush s).finder = s.finder := rfl
@[simp] theorem beginFlush_pk : (beginFlush s).pk = s.pk := rfl
@[simp] theorem beginFlush_dec : (beginFlush s).dec = s.dec := rfl
@[simp] theorem beginFlush_ports : (beginFlush s).ports = s.ports := rfl
@[simp] theorem beginFlush_env : (beginFlush s).env = s.env := rfl
@[simp] theorem beginFlush_hostData : (beginFlush s).hostData = s.hostData := rfl
@[simp] theorem beginFlush_latch : (beginFlush s).latch = s.latch := rfl
@[simp] theorem beginFlush_flush : (beginFlush s).flush = some 0#5 := rfl
@[simp] theorem beginFlush_draw : (beginFlush s).draw = s.draw := rfl

/-! ### endFlush -/

@[simp] theorem endFlush_host : (endFlush s).host = s.host := rfl
@[simp] theorem endFlush_ring : (endFlush s).ring = s.ring := rfl
@[simp] theorem endFlush_tree : (endFlush s).tree = s.tree := rfl
@[simp] theorem endFlush_phase : (endFlush s).phase = s.phase := rfl
@[simp] theorem endFlush_enc : (endFlush s).enc = s.enc := rfl
@[simp] theorem endFlush_finder : (endFlush s).finder = s.finder := rfl
@[simp] theorem endFlush_pk : (endFlush s).pk = s.pk.cleared := rfl
@[simp] theorem endFlush_dec : (endFlush s).dec = s.dec := rfl
@[simp] theorem endFlush_ports : (endFlush s).ports = s.ports := rfl
@[simp] theorem endFlush_env : (endFlush s).env = s.env := rfl
@[simp] theorem endFlush_hostData : (endFlush s).hostData = s.hostData := rfl
@[simp] theorem endFlush_latch : (endFlush s).latch = s.latch := rfl
@[simp] theorem endFlush_flush : (endFlush s).flush = none := rfl
@[simp] theorem endFlush_draw : (endFlush s).draw = s.draw := rfl

/-! ### encStepTail -/

@[simp] theorem encStepTail_host : (encStepTail s).host = s.host := rfl
@[simp] theorem encStepTail_ring : (encStepTail s).ring = s.ring := rfl
@[simp] theorem encStepTail_tree : (encStepTail s).tree = s.tree := rfl
@[simp] theorem encStepTail_phase : (encStepTail s).phase =
    if (if s.enc.eos then s.enc.run - 1#5 else s.enc.run) = 0#5 then .encFinal else s.phase := rfl
@[simp] theorem encStepTail_enc : (encStepTail s).enc =
    { s.enc with
      skip := nextSkip s.enc s.finder
      run := if s.enc.eos then s.enc.run - 1#5 else s.enc.run
      p := s.enc.p + 1#12 } := rfl
@[simp] theorem encStepTail_finder : (encStepTail s).finder = s.finder := rfl
@[simp] theorem encStepTail_pk : (encStepTail s).pk = s.pk := rfl
@[simp] theorem encStepTail_dec : (encStepTail s).dec = s.dec := rfl
@[simp] theorem encStepTail_ports : (encStepTail s).ports = s.ports := rfl
@[simp] theorem encStepTail_env : (encStepTail s).env = s.env := rfl
@[simp] theorem encStepTail_hostData : (encStepTail s).hostData = s.hostData := rfl
@[simp] theorem encStepTail_latch : (encStepTail s).latch = s.latch := rfl
@[simp] theorem encStepTail_flush : (encStepTail s).flush = s.flush := rfl
@[simp] theorem encStepTail_draw : (encStepTail s).draw = s.draw := rfl

/-! ### recordMatch -/

@[simp] theorem recordMatch_host (f : Finder) : (recordMatch f s).host = s.host := by
  unfold recordMatch; split <;> rfl
@[simp] theorem recordMatch_ring (f : Finder) : (recordMatch f s).ring = s.ring := by
  unfold recordMatch; split <;> rfl
@[simp] theorem recordMatch_tree (f : Finder) : (recordMatch f s).tree = s.tree := by
  unfold recordMatch; split <;> rfl
@[simp] theorem recordMatch_phase (f : Finder) : (recordMatch f s).phase = s.phase := by
  unfold recordMatch; split <;> rfl
@[simp] theorem recordMatch_enc (f : Finder) : (recordMatch f s).enc = s.enc := by
  unfold recordMatch; split <;> rfl
@[simp] theorem recordMatch_pk (f : Finder) : (recordMatch f s).pk = s.pk := by
  unfold recordMatch; split <;> rfl
@[simp] theorem recordMatch_dec (f : Finder) : (recordMatch f s).dec = s.dec := by
  unfold recordMatch; split <;> rfl
@[simp] theorem recordMatch_ports (f : Finder) : (recordMatch f s).ports = s.ports := by
  unfold recordMatch; split <;> rfl
@[simp] theorem recordMatch_env (f : Finder) : (recordMatch f s).env = s.env := by
  unfold recordMatch; split <;> rfl
@[simp] theorem recordMatch_hostData (f : Finder) : (recordMatch f s).hostData = s.hostData := by
  unfold recordMatch; split <;> rfl
@[simp] theorem recordMatch_latch (f : Finder) : (recordMatch f s).latch = s.latch := by
  unfold recordMatch; split <;> rfl
@[simp] theorem recordMatch_flush (f : Finder) : (recordMatch f s).flush = s.flush := by
  unfold recordMatch; split <;> rfl
@[simp] theorem recordMatch_len (f : Finder) : (recordMatch f s).finder.len = f.len := by
  unfold recordMatch; split <;> rfl
theorem recordMatch_finder (f : Finder) (h : 3 ≤ f.len.toNat) : (recordMatch f s).finder = f := by
  simp only [recordMatch, Config.threshold, if_pos h]

/-! ### tokenDone -/

@[simp] theorem tokenDone_host : (tokenDone s).host = s.host := rfl
@[simp] theorem tokenDone_ring : (tokenDone s).ring = s.ring := rfl
@[simp] theorem tokenDone_tree : (tokenDone s).tree = s.tree := rfl
@[simp] theorem tokenDone_phase : (tokenDone s).phase = if s.dec.bit + 1#4 = 8#4 then .decCtrl else .decToken := rfl
@[simp] theorem tokenDone_enc : (tokenDone s).enc = s.enc := rfl
@[simp] theorem tokenDone_finder : (tokenDone s).finder = s.finder := rfl
@[simp] theorem tokenDone_pk : (tokenDone s).pk = s.pk := rfl
@[simp] theorem tokenDone_dec : (tokenDone s).dec = { s.dec with bit := s.dec.bit + 1#4 } := rfl
@[simp] theorem tokenDone_ports : (tokenDone s).ports = s.ports := rfl
@[simp] theorem tokenDone_env : (tokenDone s).env = s.env := rfl
@[simp] theorem tokenDone_hostData : (tokenDone s).hostData = s.hostData := rfl
@[simp] theorem tokenDone_latch : (tokenDone s).latch = s.latch := rfl
@[simp] theorem tokenDone_flush : (tokenDone s).flush = s.flush := rfl
@[simp] theorem tokenDone_draw : (tokenDone s).draw = s.draw := rfl

/-! ### storeAtCursor -/

@[simp] theorem storeAtCursor_host (b : Byte) : (storeAtCursor b s).host = s.host := rfl
@[simp] theorem storeAtCursor_ring (b : Byte) : (storeAtCursor b s).ring = rbWrite s.dec.cur b s.ring := rfl
@[simp] theorem storeAtCursor_tree (b : Byte) : (storeAtCursor b s).tree = s.tree := rfl
@[simp] theorem storeAtCursor_phase (b : Byte) : (storeAtCursor b s).phase = s.phase := rfl
@[simp] theorem storeAtCursor_enc (b : Byte) : (storeAtCursor b s).enc = s.enc := rfl
@[simp] theorem storeAtCursor_finder (b : Byte) : (storeAtCursor b s).finder = s.finder := rfl
@[simp] theorem storeAtCursor_pk (b : Byte) : (storeAtCursor b s).pk = s.pk := rfl
@[simp] theorem storeAtCursor_dec (b : Byte) : (storeAtCursor b s).dec = { s.dec with cur := s.dec.cur + 1#12 } := rfl
@[simp] theorem storeAtCursor_ports (b : Byte) : (storeAtCursor b s).ports = s.ports := rfl
@[simp] theorem storeAtCursor_env (b : Byte) : (storeAtCursor b s).env = s.env := rfl
@[simp] theorem storeAtCursor_hostData (b : Byte) : (storeAtCursor b s).hostData = s.hostData := rfl
@[simp] theorem storeAtCursor_latch (b : Byte) : (storeAtCursor b s).latch = s.latch := rfl
@[simp] theorem storeAtCursor_flush (b : Byte) : (storeAtCursor b s).flush = s.flush := rfl
@[simp] theorem storeAtCursor_draw (b : Byte) : (storeAtCursor b s).draw = s.draw := rfl

/-! ### litDone -/

@[simp] theorem litDone_host (b : Byte) : (litDone b s).host = s.host := rfl
@[simp] theorem litDone_ring (b : Byte) : (litDone b s).ring = rbWrite s.dec.cur b s.ring := rfl
@[simp] theorem litDone_tree (b : Byte) : (litDone b s).tree = s.tree := rfl
@[simp] theorem litDone_phase (b : Byte) : (litDone b s).phase =
    if s.dec.bit + 1#4 = 8#4 then .decCtrl else .decToken := rfl
@[simp] theorem litDone_enc (b : Byte) : (litDone b s).enc = s.enc := rfl
@[simp] theorem litDone_finder (b : Byte) : (litDone b s).finder = s.finder := rfl
@[simp] theorem litDone_pk (b : Byte) : (litDone b s).pk = s.pk := rfl
@[simp] theorem litDone_dec (b : Byte) : (litDone b s).dec =
    { s.dec with cur := s.dec.cur + 1#12, bit := s.dec.bit + 1#4 } := rfl
@[simp] theorem litDone_ports (b : Byte) : (litDone b s).ports = s.ports := rfl
@[simp] theorem litDone_env (b : Byte) : (litDone b s).env = s.env := rfl
@[simp] theorem litDone_hostData (b : Byte) : (litDone b s).hostData = s.hostData := rfl
@[simp] theorem litDone_latch (b : Byte) : (litDone b s).latch = [] := rfl
@[simp] theorem litDone_flush (b : Byte) : (litDone b s).flush = s.flush := rfl
@[simp] theorem litDone_draw (b : Byte) : (litDone b s).draw = s.draw := rfl

/-! ### copyDone -/

theorem copyDone_ring (x : Byte) : (copyDone x s).ring = rbWrite s.dec.cur x s.ring := by
  simp only [copyDone]; split <;> rfl

theorem copyDone_dec (x : Byte) : (copyDone x s).dec =
    { s.dec with
      cur := s.dec.cur + 1#12
      pos := s.dec.pos + 1#12
      rem := s.dec.rem - 1#5
      bit := if s.dec.rem - 1#5 = 0#5 then s.dec.bit + 1#4 else s.dec.bit } := by
  simp only [copyDone, storeAtCursor]; split <;> rename_i h <;> simp_all

theorem copyDone_phase (x : Byte) : (copyDone x s).phase =
    if s.dec.rem - 1#5 = 0#5 then (if s.dec.bit + 1#4 = 8#4 then .decCtrl else .decToken) else s.phase := by
  simp only [copyDone, storeAtCursor]; split <;> rename_i h <;> simp_all

@[simp] theorem copyDone_host (x : Byte) : (copyDone x s).host = s.host := by
  simp only [copyDone]; split <;> rfl

@[simp] theorem copyDone_tree (x : Byte) : (copyDone x s).tree = s.tree := by
  simp only [copyDone]; split <;> rfl

@[simp] theorem copyDone_enc (x : Byte) : (copyDone x s).enc = s.enc := by
  simp only [copyDone]; split <;> rfl

@[simp] theorem copyDone_finder (x : Byte) : (copyDone x s).finder = s.finder := by
  simp only [copyDone]; split <;> rfl

@[simp] theorem copyDone_pk (x : Byte) : (copyDone x s).pk = s.pk := by
  simp only [copyDone]; split <;> rfl

@[simp] theorem copyDone_ports (x : Byte) : (copyDone x s).ports = s.ports := by
  simp only [copyDone]; split <;> rfl

@[simp] theorem copyDone_env (x : Byte) : (copyDone x s).env = s.env := by
  simp only [copyDone]; split <;> rfl

@[simp] theorem copyDone_hostData (x : Byte) : (copyDone x s).hostData = s.hostData := by
  simp only [copyDone]; split <;> rfl

@[simp] theorem copyDone_latch (x : Byte) : (copyDone x s).latch = s.latch := by
  simp only [copyDone]; split <;> rfl

@[simp] theorem copyDone_flush (x : Byte) : (copyDone x s).flush = s.flush := by
  simp only [copyDone]; split <;> rfl

@[simp] theorem copyDone_draw (x : Byte) : (copyDone x s).draw = s.draw := by
  simp only [copyDone]; split <;> rfl

/-! ### preloadExit -/

/-- The preload goes on, or it ends with `enc_run <- enc_la` and the next phase (42_encoder.md R224). -/
theorem preloadExit_cases :
    (preloading s.enc = true ∧ preloadExit s = s) ∨
    (preloading s.enc = false ∧ preloadExit s =
      { s with
        enc := { s.enc with run := s.enc.la }
        phase := if s.enc.la.toNat = 0 then .encFinal else .encStep }) := by
  cases h : preloading s.enc
  · exact .inr ⟨rfl, by simp [preloadExit, h]⟩
  · exact .inl ⟨rfl, by simp [preloadExit, h]⟩

end Sys2Proof.Machine
end

