-- ==== Sys2Proof/Laws/Ports.lean ====
section
/-!
SUPPORT. The ports: everything an `InRead`, an `OutWrite` and the offer of one byte can come to.
-/

namespace Sys2Proof.Machine

variable {s t : State}

/-- Everything `InRead` can come to (20_memory.md R88). -/
theorem inRead_cases (s : State) :
    (s.ports.inStream = [] ∧ inRead s = .held) ∨
    (∃ b rest, s.ports.inStream = .data b :: rest ∧ inRead s = .data b { s with
      ports := { s.ports with inStream := rest }, host := { s.host with inCount := s.host.inCount + 1#32 } }) ∨
    (∃ rest, s.ports.inStream = .eos :: rest ∧ inRead s = .eos { s with ports := { s.ports with inStream := rest } }) ∨
    (∃ rest, s.ports.inStream = .err :: rest ∧ inRead s = .err { s with ports := { s.ports with inStream := rest } }) := by
  unfold inRead
  split
  · exact .inl ⟨‹_›, rfl⟩
  · exact .inr (.inl ⟨_, _, ‹_›, rfl⟩)
  · exact .inr (.inr (.inl ⟨_, ‹_›, rfl⟩))
  · exact .inr (.inr (.inr ⟨_, ‹_›, rfl⟩))

/-- The state after a byte is accepted (20_memory.md R91). -/
def accepted (b : Byte) (rest : List SinkAnswer) (s : State) : State :=
  { s with
    ports := { s.ports with sink := rest, outStream := s.ports.outStream ++ [b] }
    host := { s.host with outCount := s.host.outCount + 1#32 } }

/-- The state after a byte is refused, before the error entry (20_memory.md R91). -/
def turnedAway (rest : List SinkAnswer) (s : State) : State := { s with ports := { s.ports with sink := rest } }

/-- Everything the offer of a byte can come to (20_memory.md R91; 60_exceptions.md R342): it always answers a next state. -/
theorem offer_cases (b : Byte) (s : State) (k : State → State) :
    (s.ports.sink = [] ∧ offer b s k = .next s) ∨
    (∃ rest, s.ports.sink = .ok :: rest ∧ offer b s k = .next (k (accepted b rest s))) ∨
    (∃ rest, s.ports.sink = .err :: rest ∧ offer b s k = .next (raiseError .outIo (turnedAway rest s))) := by
  unfold offer outWrite
  split
  · rename_i h
    split at h
    · exact .inl ⟨‹_›, rfl⟩
    all_goals cases h
  · rename_i h
    split at h
    · cases h
    · cases h
      exact .inr (.inl ⟨_, ‹_›, rfl⟩)
    · cases h
  · rename_i h
    split at h
    · cases h
    · cases h
    · cases h
      exact .inr (.inr ⟨_, ‹_›, rfl⟩)

/-- Everything the reading of a token byte can come to (43_decoder.md R274, R276, R278, R281; 60_exceptions.md R341). -/
theorem readTokenByte_cases (s : State) :
    (s.ports.inStream = [] ∧ readTokenByte s = .next s) ∨
    (∃ b rest, s.ports.inStream = .data b :: rest ∧ readTokenByte s = .next { s with
      ports := { s.ports with inStream := rest }
      host := { s.host with inCount := s.host.inCount + 1#32 }
      latch := s.latch ++ [b] }) ∨
    (∃ rest, s.ports.inStream = .eos :: rest ∧
      readTokenByte s = .next (runDone { s with ports := { s.ports with inStream := rest } })) ∨
    (∃ rest, s.ports.inStream = .err :: rest ∧
      readTokenByte s = .next (raiseError .inIo { s with ports := { s.ports with inStream := rest } })) := by
  unfold readTokenByte
  obtain ⟨h, e⟩ | ⟨b, rest, h, e⟩ | ⟨rest, h, e⟩ | ⟨rest, h, e⟩ := inRead_cases s
  · exact .inl ⟨h, by rw [e]⟩
  · exact .inr (.inl ⟨b, rest, h, by rw [e]⟩)
  · exact .inr (.inr (.inl ⟨rest, h, by rw [e]⟩))
  · exact .inr (.inr (.inr ⟨rest, h, by rw [e]⟩))

end Sys2Proof.Machine
end

