-- ==== Sys2Proof/Safety.lean ====
section
/-!
DEFINITION. What claims about the machine are stated in: the outcomes of a step, and the invariants of a run.

Each invariant says what the rules of the spec promise of every state between two steps; none of them is assumed by the
model itself.
-/

namespace Sys2Proof.Machine

/-! ### Outcomes -/

/-- A step that ends in a next state, whichever it is. -/
def Answers (o : Host.Outcome State Fault Refusal) : Prop := ∃ t, o = .next t

/-- A step that stops with no fault. -/
def NoFault (o : Host.Outcome State Fault Refusal) : Prop := ∀ f, o ≠ .fault f

/-- Error entry (60_exceptions.md R343): STATE is ERROR and ERR the code, the engine halts, MODE and the counters keep their
values, and nothing more is written. -/
structure ErrorEntry (code : ErrCode) (s t : State) : Prop where
  host : t.host = { s.host with state := .error, err := code }
  phase : t.phase = .halted
  outStream : t.ports.outStream = s.ports.outStream

/-- The normal end of a run (42_encoder.md R237, 43_decoder.md R282): STATE is DONE, the engine halts, MODE, ERR and the
counters keep their values, and nothing more is written. -/
structure RunEnded (s t : State) : Prop where
  host : t.host = { s.host with state := .done }
  phase : t.phase = .halted
  outStream : t.ports.outStream = s.ports.outStream

/-- The engine is at the token stream: at a control byte, or at a token with `dec_bit` in `0..7` (43_decoder.md R270, R275). -/
def AtToken (s : State) : Prop :=
  s.flush = none ∧ (s.phase = .decCtrl ∨ (s.phase = .decToken ∧ s.dec.bit.toNat < 8))

/-- The engine waits for an `InRead` to be answered (20_memory.md R88): in the preload, at the read of an encoder step, or at
a byte of a token. -/
def WaitsForInput (s : State) : Prop :=
  s.ports.inStream = [] ∧ s.flush = none ∧
  ((s.phase = .encPreload ∧ s.enc.la.toNat < Config.F ∧ s.enc.eos = false) ∨
   (s.phase = .encStep ∧ encStepInRange s = true ∧ s.enc.eos = false) ∨
   (AtToken s ∧ s.latch.length < (streamPlace s).size))

/-- The engine waits for an `OutWrite` to be answered (20_memory.md R91): in a FLUSH, at a literal that has been read, or at a
byte of a copy. -/
def WaitsForOutput (s : State) : Prop :=
  s.ports.sink = [] ∧
  ((∃ n, s.flush = some n ∧ n.toNat ≤ s.pk.len.toNat ∧ s.pk.len.toNat ≤ Config.F) ∨
   (AtToken s ∧ streamPlace s = .literal ∧ s.latch ≠ []) ∨
   (s.flush = none ∧ s.phase = .decCopy ∧ s.dec.rem ≠ 0#5))

/-- The packer with one more token (42_encoder.md R232, R233); a term that is no token adds nothing. -/
def emitInstr (k : Packer) : Instr → Packer
  | .lit d => emitLit d k
  | .matchTok pos len => emitMatch pos len k
  | .ctrl _ => k
  | .cmdNop _ => k
  | .cmdStartEncode _ => k
  | .cmdStartDecode _ => k
  | .cmdReserved _ _ => k

/-- A list of LIT and MATCH terms. -/
def AllTokens (ts : List Instr) : Prop := ∀ i ∈ ts, i.place = .literal ∨ i.place = .matchSlot

/-! ### The end of an encoder step -/

/-- `enc_skip` once a token has been emitted for a match of `len`: the positions of a match after its first, none of a literal
(42_encoder.md R226, R231). -/
def skipAfter (len : BitVec 5) : BitVec 4 := if 3 ≤ len.toNat then (len - 1#5).setWidth 4 else 0#4

/-- `enc_run` at the end of a step: one less from the step that read END on (42_encoder.md R222, R226). -/
def runAfter (e : EncRegs) : BitVec 5 := if e.eos then e.run - 1#5 else e.run

/-- The phase at the end of a step (42_encoder.md R226). -/
def phaseAfter (e : EncRegs) : Phase := if runAfter e = 0#5 then .encFinal else .encStep

/-- What ENC_STEP leaves from its INSERT on (42_encoder.md R226, R230, R231), in the engine registers: `e` the encoder registers
at the INSERT, `m` the ring and `f` the result there. Inside a match nothing is emitted and the step ends. Where a token starts,
a match of 3 or more emits EMIT_MATCH and anything else EMIT_LIT; then the step ends, or, with the eighth token of the block,
FLUSH begins and the rest of the step waits for it. -/
structure StepEmits (e : EncRegs) (k : Packer) (m : Ring) (f : Finder) (t : State) : Prop where
  len : t.finder.len = f.len
  found : 3 ≤ f.len.toNat → t.finder = f
  ring : t.ring = m
  inside : e.skip ≠ 0#4 → t.pk = k ∧ t.flush = none ∧ t.phase = phaseAfter e ∧
    t.enc = { e with skip := e.skip - 1#4, run := runAfter e, p := e.p + 1#12 }
  token : e.skip = 0#4 → t.pk = if 3 ≤ f.len.toNat then emitMatch f.pos f.len k else emitLit (rbRead e.p m) k
  notFull : e.skip = 0#4 → k.bit ≠ 7#4 → t.flush = none ∧ t.phase = phaseAfter e ∧
    t.enc = { e with skip := skipAfter f.len, run := runAfter e, p := e.p + 1#12 }
  full : e.skip = 0#4 → k.bit = 7#4 → t.flush = some 0#5 ∧ t.phase = .encStep ∧ t.enc = e

/-! ### The walk of INSERT and the choice of DELETE -/

/-- `vs` are the nodes the walk of INSERT visits from child `c` on, nearest the root first (41_match_tree.md R186, R188): it
stops at an empty child and at a node whose common prefix is the whole `run`; else it goes left where the node's first
differing byte is the greater, as a number `0..255`, and right where it is the lesser. -/
def Visits (m : Ring) (i : Pos) (run : Nat) (t : Tree) : List Pos → Child → Prop
  | [], c => c = none
  | j :: vs, c => c = some j ∧
    (cpl m j.toNat i.toNat run = run → vs = []) ∧
    (cpl m j.toNat i.toNat run ≠ run → Visits m i run t vs
      (if (rbReadPhys (i.toNat + cpl m j.toNat i.toNat run) m).toNat < (rbReadPhys (j.toNat + cpl m j.toNat i.toNat run) m).toNat
        then t.leftOf j else t.rightOf j))

/-- The link at which that walk ends, from `l` on: the slot of the node it stopped at, or the empty slot (41_match_tree.md R186,
R193, R194). -/
def landing (m : Ring) (i : Pos) (run : Nat) : List Pos → Link → Link
  | [], l => l
  | j :: vs, l =>
    if cpl m j.toNat i.toNat run = run then l
    else landing m i run vs
      (if (rbReadPhys (i.toNat + cpl m j.toNat i.toNat run) m).toNat < (rbReadPhys (j.toNat + cpl m j.toNat i.toNat run) m).toNat
        then .left j else .right j)

/-- The node `n` right links below `a`, if there is one (41_match_tree.md R192). -/
def rightBelow (t : Tree) : Nat → Pos → Child
  | 0, a => some a
  | n + 1, a =>
    match t.rightOf a with
    | none => none
    | some b => rightBelow t n b

/-! ### Phases -/

/-- The phases of an encode run (10_state.md R47). -/
def Phase.encoding : Phase → Bool
  | .encPreload => true
  | .encStep => true
  | .encFinal => true
  | .idle => false
  | .decCtrl => false
  | .decToken => false
  | .decCopy => false
  | .halted => false

/-- The phases of a decode run (10_state.md R47). -/
def Phase.decoding : Phase → Bool
  | .decCtrl => true
  | .decToken => true
  | .decCopy => true
  | .idle => false
  | .encPreload => false
  | .encStep => false
  | .encFinal => false
  | .halted => false

/-! ### The status invariant -/

/-- STATUS agrees with the engine's phase (10_state.md R34 to R36, R47), and a transfer is in progress only inside the
operation it belongs to (log entry 3). -/
structure StatusInv (s : State) : Prop where
  /-- STATE is BUSY exactly when `phase` is neither IDLE nor HALTED (10_state.md R47). -/
  busy : s.host.state = .busy ↔ s.phase ≠ .idle ∧ s.phase ≠ .halted
  /-- STATE is IDLE only before the first run since reset (10_state.md R34). -/
  idle : s.host.state = .idle ↔ s.phase = .idle
  /-- ERR is non-zero exactly when STATE is ERROR (10_state.md R36). -/
  err : s.host.err ≠ .none ↔ s.host.state = .error
  /-- MODE is the mode of the run in progress (10_state.md R35). -/
  encMode : s.phase.encoding = true → s.host.mode = .encode
  /-- MODE is the mode of the run in progress (10_state.md R35). -/
  decMode : s.phase.decoding = true → s.host.mode = .decode
  /-- Token bytes are held only while a token is read. -/
  latch : s.latch ≠ [] → s.phase = .decCtrl ∨ s.phase = .decToken
  /-- A FLUSH is in progress only in ENC_STEP and ENC_FINAL (42_encoder.md R235). -/
  flush : s.flush ≠ none → s.phase = .encStep ∨ s.phase = .encFinal

/-! ### The range invariant -/

/-- The engine registers are in the ranges 10_state.md R48 to R57 give them, with what their operations add. -/
structure RangeInv (s : State) : Prop where
  /-- `enc_la` is `0..16` (10_state.md R48). -/
  la : s.enc.la.toNat ≤ 16
  /-- `enc_run` is `0..16` (10_state.md R51). -/
  run : s.enc.run.toNat ≤ 16
  /-- ENC_STEP is entered while `enc_run >= 1` (42_encoder.md R226). -/
  stepRun : s.phase = .encStep → 1 ≤ s.enc.run.toNat
  /-- `best_len` is at most 16 (10_state.md R53). -/
  bestLen : s.finder.len.toNat ≤ 16
  /-- `pk_bit` is `0..8` (10_state.md R55). -/
  pkBit : s.pk.bit.toNat ≤ 8
  /-- Each token of a block has one or two bytes (30_encoding.md R132), so `pk_len` is `0..16` (10_state.md R56). -/
  pkLen : s.pk.len.toNat ≤ 2 * s.pk.bit.toNat
  /-- A full block is flushed at once (42_encoder.md R232, R233). -/
  pkOpen : s.phase.encoding = true → s.flush = none → s.pk.bit.toNat < 8
  /-- FLUSH writes at most the control byte and `pk_len` token bytes (42_encoder.md R235). -/
  flushed : ∀ n, s.flush = some n → n.toNat ≤ s.pk.len.toNat
  /-- `dec_bit` is `0..8` (10_state.md R57). -/
  decBit : s.dec.bit.toNat ≤ 8
  /-- A control byte is read only once the eight control bits are used (43_decoder.md R270, R275). -/
  ctrlBit : s.phase = .decCtrl → s.dec.bit = 8#4
  /-- A token is processed with `dec_bit` in `0..7` (43_decoder.md R275). -/
  tokenBit : s.phase = .decToken ∨ s.phase = .decCopy → s.dec.bit.toNat < 8
  /-- `dec_rem` is `0..18` (10_state.md R57). -/
  decRem : s.dec.rem.toNat ≤ 18
  /-- DEC_COPY has a byte left to copy (43_decoder.md R279). -/
  copyRem : s.phase = .decCopy → 1 ≤ s.dec.rem.toNat
  /-- A token has at most two bytes (30_encoding.md R132). -/
  latch : s.latch.length ≤ 2

/-! ### The memory invariants -/

/-- The memories are in canonical form (log entries 5 and 6). -/
structure MemoryInv (s : State) : Prop where
  ring : Memory.wf s.ring = true
  tree : s.tree.wf = true

/-- The padding slots equal slots `0..F-1` from the first RB_FILL on (40_ring_buffer.md R166). -/
def MirrorInv (s : State) : Prop :=
  s.phase ≠ .idle → ∀ k, k < Config.F → rbReadPhys (Config.N + k) s.ring = rbReadPhys k s.ring

/-! ### The tree invariant -/

/-- A link cell that belongs to a tree: a root entry, or a child field of a member. -/
def Tree.live (t : Tree) : Link → Prop
  | .none => False
  | .root _ => True
  | .left r => t.parentOf r ≠ .none
  | .right r => t.parentOf r ≠ .none

/-- The links form trees (41_match_tree.md R180, R198): a member's parent reference is the one live cell that points at it,
and ranks that rise along every child link rule out a cycle. -/
structure Tree.Sound (t : Tree) : Prop where
  /-- A member's parent reference is a live cell, and that cell points at it (10_state.md R45). -/
  up : ∀ q, t.parentOf q ≠ .none → t.live (t.parentOf q) ∧ t.linkGet (t.parentOf q) = some q
  /-- A live cell that points at a position is that position's parent reference; so no position is in two places, nor in
  two trees (41_match_tree.md R198). -/
  down : ∀ l q, t.live l → t.linkGet l = some q → t.parentOf q = l
  /-- No node is below itself. -/
  ranked : ∃ rank : Pos → Nat, ∀ q r, (t.parentOf q = .left r ∨ t.parentOf q = .right r) → rank r < rank q

/-- In an encode run the links form trees (41_match_tree.md R180, R198). -/
def TreeInv (s : State) : Prop := s.phase.encoding = true → s.tree.Sound

/-- In an encode run only the last `W = N - F` inserted positions can be members (41_match_tree.md R198; 00_scope.md R14):
before the first step no position is; between two steps none of `enc_p .. enc_p + F - 1` is; during a FLUSH inside a step,
whose INSERT is done, none of `enc_p + 1 .. enc_p + F` is. -/
structure WindowInv (s : State) : Prop where
  preload : s.phase = .encPreload → ∀ q, s.tree.parentOf q = .none
  between : s.phase = .encStep → s.flush = none → ∀ k : Pos, k.toNat < Config.F → s.tree.parentOf (s.enc.p + k) = .none
  flushing : s.phase = .encStep → s.flush ≠ none →
    ∀ k : Pos, k.toNat < Config.F → s.tree.parentOf (s.enc.p + 1#12 + k) = .none

/-- In an encode run that has inserted `n` positions so far, the inserted positions are `START + k` for `k < n` (42_encoder.md
R220, R225), `enc_p` is the next of them, and every member is one of the last `W = N - F` of them (41_match_tree.md R198,
00_scope.md R14). During a FLUSH inside a step its INSERT is done and `enc_p` has yet to advance. -/
structure InsertedInv (n : Nat) (s : State) : Prop where
  next : s.phase.encoding = true →
    s.enc.p + (if s.phase = .encStep ∧ s.flush ≠ none then 1#12 else 0#12) = Config.start + BitVec.ofNat 12 n
  members : s.phase.encoding = true → ∀ q, s.tree.parentOf q ≠ .none →
    ∃ k, k < n ∧ n ≤ k + 4080 ∧ q = Config.start + BitVec.ofNat 12 k

/-- The invariants together. -/
structure Inv (s : State) : Prop where
  status : StatusInv s
  range : RangeInv s
  memory : MemoryInv s
  mirror : MirrorInv s
  tree : TreeInv s
  window : WindowInv s

end Sys2Proof.Machine
end

