-- ==== Sys2Proof/Laws/Step.lean ====
section
/-!
SUPPORT. Steps: what each step can come to, said once, for the invariants to cite.
-/

namespace Sys2Proof.Machine

variable {s t : State}

/-! ### Turns -/

@[simp] theorem step_engine (h : s.env = []) : step s = engineStep s := by
  simp [step, h]

theorem step_turn {x : Turn} {rest : List Turn} (h : s.env = x :: rest) :
    step s = turnStep x { s with env := rest } := by
  simp [step, h]

/-- A step is a step of the engine or the turn at the head of `env`. -/
theorem step_cases (s : State) :
    (s.env = [] ∧ step s = engineStep s) ∨
    ∃ x rest, s.env = x :: rest ∧ step s = turnStep x { s with env := rest } := by
  cases h : s.env with
  | nil => exact .inl ⟨rfl, step_engine h⟩
  | cons x rest => exact .inr ⟨x, rest, rfl, step_turn h⟩

/-! ### The engine by phase -/

theorem engineStep_flush {n : BitVec 5} (h : s.flush = some n) : engineStep s = flushStep n s := by
  simp [engineStep, h]

theorem engineStep_phase (h : s.flush = none) : engineStep s = phaseStep s := by
  simp [engineStep, h]

/-- A step of the engine is a FLUSH going on or the operation of its phase. -/
theorem engineStep_cases (s : State) :
    (∃ n, s.flush = some n ∧ engineStep s = flushStep n s) ∨
    (s.flush = none ∧ s.phase = .idle ∧ engineStep s = .next s) ∨
    (s.flush = none ∧ s.phase = .encPreload ∧ engineStep s = preloadStep s) ∨
    (s.flush = none ∧ s.phase = .encStep ∧ engineStep s = encStep s) ∨
    (s.flush = none ∧ s.phase = .encFinal ∧ engineStep s = encFinalStep s) ∨
    (s.flush = none ∧ s.phase = .decCtrl ∧ engineStep s = decodeStep s) ∨
    (s.flush = none ∧ s.phase = .decToken ∧ engineStep s = decodeStep s) ∨
    (s.flush = none ∧ s.phase = .decCopy ∧ engineStep s = copyStep s) ∨
    (s.flush = none ∧ s.phase = .halted ∧ engineStep s = .next s) := by
  cases hf : s.flush with
  | some n => exact .inl ⟨n, rfl, engineStep_flush hf⟩
  | none =>
    right
    rw [engineStep_phase hf]
    unfold phaseStep
    cases hp : s.phase <;> simp

/-! ### FLUSH -/

/-- FLUSH stops only where it has written more than its block (log entry 12). -/
theorem flushStep_inRange {n : BitVec 5} (hn : n.toNat ≤ s.pk.len.toNat) (hl : s.pk.len.toNat ≤ Config.F) :
    flushStep n s = offer (s.pk.blockByte n.toNat) s (flushNext n) := by
  have h : ¬ (s.pk.len.toNat < n.toNat ∨ Config.F < s.pk.len.toNat) := by omega
  simp only [flushStep, h, if_false]

/-! ### ENC_PRELOAD -/

/-- Everything a step of ENC_PRELOAD can come to (42_encoder.md R224). -/
theorem preloadStep_cases (s : State) :
    (preloading s.enc = false ∧ preloadStep s = .next (preloadExit s)) ∨
    (preloading s.enc = true ∧ s.ports.inStream = [] ∧ preloadStep s = .next s) ∨
    (∃ b rest, preloading s.enc = true ∧ s.ports.inStream = .data b :: rest ∧ preloadStep s = .next (preloadExit { s with
      ports := { s.ports with inStream := rest }
      host := { s.host with inCount := s.host.inCount + 1#32 }
      ring := rbWrite (Config.start + s.enc.la.setWidth 12) b s.ring
      enc := { s.enc with la := s.enc.la + 1#5 } })) ∨
    (∃ rest, preloading s.enc = true ∧ s.ports.inStream = .eos :: rest ∧ preloadStep s = .next (preloadExit { s with
      ports := { s.ports with inStream := rest }
      enc := { s.enc with eos := true } })) ∨
    (∃ rest, preloading s.enc = true ∧ s.ports.inStream = .err :: rest ∧
      preloadStep s = .next (raiseError .inIo { s with ports := { s.ports with inStream := rest } })) := by
  unfold preloadStep
  cases hp : preloading s.enc with
  | false => exact .inl ⟨rfl, by simp⟩
  | true =>
    right
    obtain ⟨h, e⟩ | ⟨b, rest, h, e⟩ | ⟨rest, h, e⟩ | ⟨rest, h, e⟩ := inRead_cases s
    · exact .inl ⟨rfl, h, by simp [e]⟩
    · exact .inr (.inl ⟨b, rest, rfl, h, by simp [e]⟩)
    · exact .inr (.inr (.inl ⟨rest, rfl, h, by simp [e]⟩))
    · exact .inr (.inr (.inr ⟨rest, rfl, h, by simp [e]⟩))

/-! ### ENC_STEP -/

/-- The state a FLUSH starts from or the step ends in, once INSERT has answered (42_encoder.md R226). -/
def encStepEmit (s : State) : State :=
  if s.enc.skip = 0#4 then
    if (emitToken s).bit = 8#4 then beginFlush { s with pk := emitToken s } else encStepTail { s with pk := emitToken s }
  else encStepTail s

/-- Everything ENC_STEP from its INSERT on can come to (42_encoder.md R226). -/
theorem encStepInsert_cases (s : State) :
    (∃ e, insert s.ring s.enc.p s.enc.run.toNat s.tree s.finder = .error e ∧ encStepInsert s = .fault e) ∨
    (∃ tr f, insert s.ring s.enc.p s.enc.run.toNat s.tree s.finder = .ok (tr, f) ∧
      encStepInsert s = .next (encStepEmit (recordMatch f { s with tree := tr }))) := by
  unfold encStepInsert
  cases h : insert s.ring s.enc.p s.enc.run.toNat s.tree s.finder with
  | error e => exact .inl ⟨e, rfl, rfl⟩
  | ok r =>
    obtain ⟨tr, f⟩ := r
    refine .inr ⟨tr, f, rfl, ?_⟩
    have he : (recordMatch f { s with tree := tr }).enc = s.enc := recordMatch_enc _ f
    simp only [encStepEmit, he]
    by_cases h1 : s.enc.skip = 0#4
    · simp only [h1, if_true]
      split <;> rfl
    · simp only [h1, if_false]

theorem encStepHolds_iff : encStepHolds s = true ↔ s.enc.eos = false ∧ s.ports.inStream = [] := by
  simp [encStepHolds]

/-- Everything a step of ENC_STEP can come to (42_encoder.md R226): out of range, waiting, a fault of DELETE, an error entry,
or its INSERT after DELETE and the read, in that order. -/
theorem encStep_cases (s : State) :
    (encStepInRange s = false ∧ encStep s = .fault .registerRange) ∨
    (encStepInRange s = true ∧ s.enc.eos = false ∧ s.ports.inStream = [] ∧ encStep s = .next s) ∨
    (encStepInRange s = true ∧ (∃ e, delete (lookaheadSlot s.enc) s.tree = .error e ∧ encStep s = .fault e)) ∨
    (∃ tr, encStepInRange s = true ∧ delete (lookaheadSlot s.enc) s.tree = .ok tr ∧
      ((s.enc.eos = true ∧ encStep s = encStepInsert { s with tree := tr }) ∨
       (∃ b rest, s.enc.eos = false ∧ s.ports.inStream = .data b :: rest ∧ encStep s = encStepInsert { s with
          tree := tr
          ports := { s.ports with inStream := rest }
          host := { s.host with inCount := s.host.inCount + 1#32 }
          ring := rbWrite (lookaheadSlot s.enc) b s.ring }) ∨
       (∃ rest, s.enc.eos = false ∧ s.ports.inStream = .eos :: rest ∧ encStep s = encStepInsert { s with
          tree := tr
          ports := { s.ports with inStream := rest }
          enc := { s.enc with eos := true } }) ∨
       (∃ rest, s.enc.eos = false ∧ s.ports.inStream = .err :: rest ∧
          encStep s = .next (raiseError .inIo { s with tree := tr, ports := { s.ports with inStream := rest } })))) := by
  cases hr : encStepInRange s with
  | false => exact .inl ⟨rfl, by simp [encStep, hr]⟩
  | true =>
    right
    cases hd : delete (lookaheadSlot s.enc) s.tree with
    | error e =>
      cases hh : encStepHolds s with
      | true =>
        obtain ⟨h1, h2⟩ := encStepHolds_iff.1 hh
        exact .inl ⟨rfl, h1, h2, by simp [encStep, hr, hh]⟩
      | false => exact .inr (.inl ⟨rfl, e, rfl, by simp [encStep, hr, hh, hd]⟩)
    | ok tr =>
      cases hh : encStepHolds s with
      | true =>
        obtain ⟨h1, h2⟩ := encStepHolds_iff.1 hh
        exact .inl ⟨rfl, h1, h2, by simp [encStep, hr, hh]⟩
      | false =>
        have he : encStep s = encStepRead { s with tree := tr } := by simp [encStep, hr, hh, hd]
        refine .inr (.inr ⟨tr, rfl, rfl, ?_⟩)
        rw [he]
        cases h : s.enc.eos with
        | true => exact .inl ⟨rfl, by simp [encStepRead, h]⟩
        | false =>
          right
          cases hi : s.ports.inStream with
          | nil => exact absurd (encStepHolds_iff.2 ⟨h, hi⟩) (by simp [hh])
          | cons x rest =>
            cases x with
            | data b => exact .inl ⟨b, rest, rfl, rfl, by simp [encStepRead, h, hi, inRead]⟩
            | eos => exact .inr (.inl ⟨rest, rfl, rfl, by simp [encStepRead, h, hi, inRead]⟩)
            | err => exact .inr (.inr ⟨rest, rfl, rfl, by simp [encStepRead, h, hi, inRead]⟩)

/-! ### The decode run -/

/-- The place of a token decides which instruction the latch can hold (30_encoding.md R127, R132). -/
theorem latched_cases (s : State) :
    (latched s = none ∧ s.latch.length < (streamPlace s).size) ∨
    (∃ k rest, streamPlace s = .control ∧ s.latch = k :: rest ∧ latched s = some (.ctrl k)) ∨
    (∃ d rest, streamPlace s = .literal ∧ s.latch = d :: rest ∧ latched s = some (.lit d)) ∨
    (∃ b0 b1 rest, streamPlace s = .matchSlot ∧ s.latch = b0 :: b1 :: rest ∧
      latched s = some (.matchTok (matchPosition b0 b1) (matchLength b1))) := by
  have hc : streamPlace s ≠ .command := by
    unfold streamPlace
    split
    · split <;> simp
    · simp
  unfold latched
  cases hp : streamPlace s with
  | command => exact absurd hp hc
  | control =>
    cases hl : s.latch with
    | nil => exact .inl ⟨rfl, by simp [Place.size]⟩
    | cons k rest => exact .inr (.inl ⟨k, rest, rfl, rfl, rfl⟩)
  | literal =>
    cases hl : s.latch with
    | nil => exact .inl ⟨rfl, by simp [Place.size]⟩
    | cons d rest => exact .inr (.inr (.inl ⟨d, rest, rfl, rfl, rfl⟩))
  | matchSlot =>
    cases hl : s.latch with
    | nil => exact .inl ⟨rfl, by simp [Place.size]⟩
    | cons b0 r0 =>
      cases r0 with
      | nil => exact .inl ⟨rfl, by simp [Place.size]⟩
      | cons b1 rest => exact .inr (.inr (.inr ⟨b0, b1, rest, rfl, rfl, rfl⟩))

/-- Everything a step of the token stream can come to (43_decoder.md R270, R275). -/
theorem decodeStep_cases (s : State) :
    (s.phase = .decToken ∧ 8 ≤ s.dec.bit.toNat ∧ decodeStep s = .fault .registerRange) ∨
    (¬ (s.phase = .decToken ∧ 8 ≤ s.dec.bit.toNat) ∧
      ((latched s = none ∧ decodeStep s = readTokenByte s) ∨
       (∃ i, latched s = some i ∧ decodeStep s = exec i s))) := by
  unfold decodeStep
  by_cases h : s.phase = .decToken ∧ 8 ≤ s.dec.bit.toNat
  · exact .inl ⟨h.1, h.2, by simp [h]⟩
  · refine .inr ⟨h, ?_⟩
    simp only [h, if_false]
    cases hl : latched s with
    | none => exact .inl ⟨rfl, rfl⟩
    | some i => exact .inr ⟨i, rfl, rfl⟩

/-! ### Host accesses -/

/-- The four bytes of a word on the host bus are that word again (20_memory.md R83). -/
theorem bytesWord_wordBytes (w : Word) :
    bytesWord (w.extractLsb' 0 8) (w.extractLsb' 8 8) (w.extractLsb' 16 8) (w.extractLsb' 24 8) = w := by
  apply BitVec.eq_of_getLsbD_eq
  intro i hi
  simp only [bytesWord, BitVec.getLsbD_append, BitVec.getLsbD_extractLsb']
  by_cases h8 : i < 8
  · simp [h8]
  · by_cases h16 : i - 8 < 8
    · simp [h8, h16]; congr 1; omega
    · by_cases h24 : i - 8 - 8 < 8
      · simp [h8, h16, h24]; congr 1; omega
      · simp [h8, h16, h24]
        rw [show 24 + (i - 8 - 8 - 8) = i by omega]
        simp; omega

/-- A host write of CMD runs the instruction of its word (44_host_commands.md R317). -/
theorem cmdWrite_eq (w : Word) (s : State) : cmdWrite w s = exec (decodeCommand w) s := by
  simp only [cmdWrite, wordBytes, decode, bytesWord_wordBytes]

/-- Everything a host access can come to (10_state.md R41; 44_host_commands.md R316, R317). -/
theorem hostAccess_cases (a : HostAccess) (s : State) :
    (∃ r, a.refusal = some r ∧ hostAccess a s = .refused r) ∨
    (a.refusal = none ∧ a.op = .read ∧ hostAccess a s = .next { s with hostData := regRead a.off.toNat s.host }) ∨
    (∃ w, a.refusal = none ∧ a.op = .write w ∧ a.off.toNat = 0 ∧ hostAccess a s = exec (decodeCommand w) s) ∨
    (∃ w, a.refusal = none ∧ a.op = .write w ∧ a.off.toNat = 8 ∧
      hostAccess a s = .next { s with host := { s.host with ie := w.getLsbD 0 } }) ∨
    (∃ w, a.refusal = none ∧ a.op = .write w ∧ a.off.toNat ≠ 0 ∧ a.off.toNat ≠ 8 ∧ hostAccess a s = .next s) := by
  unfold hostAccess
  cases hr : a.refusal with
  | some r => exact .inl ⟨r, rfl, rfl⟩
  | none =>
    right
    cases ho : a.op with
    | read => exact .inl ⟨rfl, rfl, rfl⟩
    | write w =>
      right
      show (∃ w', _ ∧ HostOp.write w = .write w' ∧ _ ∧ regWrite a.off.toNat w s = _) ∨
        (∃ w', _ ∧ HostOp.write w = .write w' ∧ _ ∧ regWrite a.off.toNat w s = _) ∨
        (∃ w', _ ∧ HostOp.write w = .write w' ∧ _ ∧ _ ∧ regWrite a.off.toNat w s = _)
      by_cases h0 : a.off.toNat = 0
      · exact .inl ⟨w, rfl, rfl, h0, by simp [regWrite, h0, cmdWrite_eq]⟩
      · right
        by_cases h8 : a.off.toNat = 8
        · exact .inl ⟨w, rfl, rfl, h8, by simp [regWrite, h8]⟩
        · exact .inr ⟨w, rfl, rfl, h0, h8, by simp [regWrite, h0, h8]⟩

end Sys2Proof.Machine
end

