-- ==== Sys2Proof/Certificates/Slice0/Obligations.lean ====
section
/-!
DEFINITION. The statements for the provers: what the numbered rules of the spec say of the machine.
-/

open Sys2Proof Sys2Proof.Machine

/-! ### Encoding -/

/-- Decoding the bytes of a well-formed instruction gives it back, with the bytes after it (30_encoding.md R121 to R125,
R135). -/
def Obligations.DecodeOfEncodeIsTheInstruction : Prop :=
  ∀ (i : Instr) (rest : List Byte), i.wf = true → decode i.place (encode i ++ rest) = .ok (i, rest)

/-- What the decoder reads is well formed, stands at the place read, and encodes to the very bytes read: no bit is dropped
(30_encoding.md R121 to R125, R127, R135). -/
def Obligations.EncodeOfDecodeIsTheBytes : Prop :=
  ∀ (p : Place) (bs rest : List Byte) (i : Instr), decode p bs = .ok (i, rest) →
    i.wf = true ∧ i.place = p ∧ encode i ++ rest = bs

/-- The decoder rejects exactly the byte lists shorter than the encoding at their place: no control byte, literal, match pair
or CMD word is illegal (30_encoding.md R128, R131, R132). -/
def Obligations.OnlyMissingBytesAreRejected : Prop :=
  ∀ (p : Place) (bs : List Byte),
    (decode p bs = .error .truncated ↔ bs.length < p.size) ∧
    ((∃ i rest, decode p bs = .ok (i, rest)) ↔ p.size ≤ bs.length)

/-- The operands of a match token, by the quoted formulas and by the fields (30_encoding.md R124). -/
def Obligations.MatchOperandsAreTheTokenFields : Prop :=
  ∀ b0 b1 : Byte, ∃ pos len, decode .matchSlot [b0, b1] = .ok (.matchTok pos len, []) ∧
    pos.toNat = b0.toNat + ((b1.toNat &&& 0xF0) <<< 4) ∧ len.toNat = (b1.toNat &&& 0x0F) + 3 ∧
    pos = b1.extractLsb' 4 4 ++ b0 ∧ len = (b1.extractLsb' 0 4).setWidth 5 + 3#5 ∧
    3 ≤ len.toNat ∧ len.toNat ≤ 18

/-- Words written out from the encodings decode to what they stand for (30_encoding.md R121 to R124, R134, R135). -/
def Obligations.WordsOfTheTableDecodeAsWritten : Prop :=
  decode .control [0x03#8] = .ok (.ctrl 0x03#8, []) ∧
  decode .literal [0x41#8] = .ok (.lit 0x41#8, []) ∧
  decode .matchSlot [0xF0#8, 0xF5#8] = .ok (.matchTok 4080#12 8#5, []) ∧
  decode .matchSlot [0x34#8, 0xAB#8] = .ok (.matchTok 2612#12 14#5, []) ∧
  decode .command [0x00#8, 0x00#8, 0x00#8, 0x00#8] = .ok (.cmdNop 0#28, []) ∧
  decode .command [0x11#8, 0x00#8, 0x00#8, 0x00#8] = .ok (.cmdStartEncode 1#28, []) ∧
  decode .command [0x02#8, 0x00#8, 0x00#8, 0x00#8] = .ok (.cmdStartDecode 0#28, []) ∧
  decode .command [0x0F#8, 0x00#8, 0x00#8, 0x80#8] = .ok (.cmdReserved 15#4 0x8000000#28, [])

/-- The size of a block (00_scope.md R10). -/
def Obligations.BlockSizeIsOnePlusItsTokens : Prop :=
  ∀ ts : List Instr, AllTokens ts → ts.length ≤ 8 →
    (encodeBlock ts).length = 1 + ts.countP (fun i => i.place = .literal) + 2 * ts.countP (fun i => i.place = .matchSlot) ∧
    (encodeBlock ts).length ≤ 17

/-- Bit `t` of the control byte of a block is 1 exactly when token `t` is a literal (30_encoding.md R121, R134). -/
def Obligations.ControlBitsAreTheTokenKinds : Prop :=
  ∀ (ts : List Instr) (t : Nat), AllTokens ts → ts.length ≤ 8 → t < 8 →
    ((controlByte ts).getLsbD t = true ↔ ∃ d, ts[t]? = some (.lit d))

/-- The 14-bit encoding of a link reference: the kind in bits 13..12, the index in bits 11..0, no two references alike
(10_state.md R45). -/
def Obligations.LinkReferencesHaveDistinctCodes : Prop :=
  (∀ l : Link, (linkBits l).extractLsb' 12 2 =
      (match l with | .none => 0#2 | .root _ => 1#2 | .left _ => 2#2 | .right _ => 3#2) ∧
    (linkBits l).extractLsb' 0 12 =
      (match l with | .none => 0#12 | .root c => c.setWidth 12 | .left q => q | .right q => q)) ∧
  (∀ l l' : Link, linkBits l = linkBits l' → l = l') ∧
  (∀ c c' : Child, childBits c = childBits c' → c = c')

/-! ### The packer and FLUSH -/

/-- Emitting the tokens of a block, from an empty packer, assembles exactly the bytes the block encodes to: the encoder's
packer and the token format the replay engine reads agree (42_encoder.md R232, R233, R234; 30_encoding.md R120, R134). -/
def Obligations.PackerAssemblesTheEncodedBlock : Prop :=
  ∀ (ts : List Instr) (k0 : Packer), AllTokens ts → ts.length ≤ 8 →
    k0.ctrl = 0#8 → k0.bit = 0#4 → k0.len = 0#5 →
    (ts.foldl emitInstr k0).bit.toNat = ts.length ∧
    (ts.foldl emitInstr k0).len.toNat + 1 = (encodeBlock ts).length ∧
    ∀ n, n < (encodeBlock ts).length → (encodeBlock ts)[n]? = some ((ts.foldl emitInstr k0).blockByte n)

/-- EMIT_LIT and EMIT_MATCH, register by register (42_encoder.md R232, R233). -/
def Obligations.EmitWritesTheTokenBytes : Prop :=
  ∀ (k : Packer) (b : Byte) (pos : Pos) (len : BitVec 5),
    ((emitLit b k).ctrl = k.ctrl ||| (1#8 <<< k.bit.toNat) ∧ (emitLit b k).bit = k.bit + 1#4 ∧
      (emitLit b k).len = k.len + 1#5 ∧ (emitLit b k).buf.toList = k.buf.toList.set k.len.toNat b) ∧
    (k.len.toNat < 15 →
      (emitMatch pos len k).ctrl = k.ctrl ∧ (emitMatch pos len k).bit = k.bit + 1#4 ∧
      (emitMatch pos len k).len = k.len + 2#5 ∧
      (emitMatch pos len k).buf.toList =
        (k.buf.toList.set k.len.toNat ((pos &&& 0xFF#12).setWidth 8)).set (k.len.toNat + 1)
          (((pos >>> 4) &&& 0xF0#12).setWidth 8 ||| (len - 3#5).setWidth 8))

/-- A FLUSH whose bytes are all accepted writes the control byte and the `pk_len` token bytes, in order, and clears the packer;
then ENC_FINAL ends the run, and ENC_STEP ends the step whose token filled the block: `enc_skip`, `enc_run`, `enc_p`, and
ENC_FINAL once `enc_run` is 0 (42_encoder.md R226, R235, R236; 10_state.md R40). That it takes one step a byte is the model's
choice (log entry 3). -/
def Obligations.FlushWritesTheWholeBlock : Prop :=
  ∀ (s : State) (rest : List SinkAnswer), s.env = [] → s.flush = some 0#5 → s.pk.len.toNat ≤ 16 →
    s.ports.sink = List.replicate (s.pk.len.toNat + 1) .ok ++ rest →
    ∃ t, Sys2Proof.core.run (s.pk.len.toNat + 1) s = .next t ∧
      t.ports.outStream = s.ports.outStream ++ s.pk.ctrl :: s.pk.buf.toList.take s.pk.len.toNat ∧
      t.ports.sink = rest ∧ t.ports.inStream = s.ports.inStream ∧
      t.host.outCount = s.host.outCount + BitVec.ofNat 32 (s.pk.len.toNat + 1) ∧
      t.pk.ctrl = 0#8 ∧ t.pk.bit = 0#4 ∧ t.pk.len = 0#5 ∧ t.flush = none ∧
      (s.phase = .encFinal → t.host.state = .done ∧ t.phase = .halted) ∧
      (s.phase = .encStep → s.enc.skip = 0#4 → t.host.state = s.host.state ∧ t.phase = phaseAfter s.enc ∧
        t.enc = { s.enc with skip := skipAfter s.finder.len, run := runAfter s.enc, p := s.enc.p + 1#12 })

/-! ### The token instructions -/

/-- CTRL sets the control byte and goes to the first token (43_decoder.md R274, its DATA case). Two things are the model's choice:
the input stream and IN_COUNT stay and the latch is emptied, because an earlier step read the byte, where R274 itself does the
`InRead` (log entry 3); and the meaning acts in every state (log entry 18). -/
def Obligations.CtrlSetsTheControlByte : Prop :=
  ∀ (k : Byte) (s : State), exec (.ctrl k) s = .next { s with
    dec := { s.dec with ctrl := k, bit := 0#4 }, phase := .decToken, latch := [] }

/-- LIT, by the sink's answer: accepted, the byte is output and stored at the cursor and its padding copy, the cursor and the
control bit advance; refused, the run ends in OUT_IO and nothing is stored; not answered, the engine holds (43_decoder.md R276,
R277; 40_ring_buffer.md R162; 20_memory.md R91; 60_exceptions.md R342). Two clauses are the model's choice (log entry 3): a held
engine is a step without effect, and the input stream and IN_COUNT stay because an earlier step read the byte, where R276 itself
does the `InRead`. -/
def Obligations.LitOutputsAndStoresItsByte : Prop :=
  ∀ (d : Byte) (s : State), Memory.wf s.ring = true →
    (∀ rest, s.ports.sink = .ok :: rest → ∃ t, exec (.lit d) s = .next t ∧
      t.ports = { s.ports with sink := rest, outStream := s.ports.outStream ++ [d] } ∧
      t.host = { s.host with outCount := s.host.outCount + 1#32 } ∧
      t.dec = { s.dec with cur := s.dec.cur + 1#12, bit := s.dec.bit + 1#4 } ∧
      t.phase = (if s.dec.bit + 1#4 = 8#4 then .decCtrl else .decToken) ∧ t.latch = [] ∧
      ∀ q, q < 4112 → rbReadPhys q t.ring =
        if q = s.dec.cur.toNat ∨ (s.dec.cur.toNat < 16 ∧ q = 4096 + s.dec.cur.toNat) then d else rbReadPhys q s.ring) ∧
    (∀ rest, s.ports.sink = .err :: rest → ∃ t, exec (.lit d) s = .next t ∧ ErrorEntry .outIo s t ∧
      t.ring = s.ring ∧ t.dec = s.dec ∧ t.ports.sink = rest) ∧
    (s.ports.sink = [] → exec (.lit d) s = .next s)

/-- MATCH sets the source and the count and starts the copy (43_decoder.md R278, its last three lines). Two things are the model's
choice: the input stream and IN_COUNT stay and the latch is emptied, because earlier steps read the two bytes, where R278 itself
does the two `InRead`s (log entry 3); and the meaning acts in every state (log entry 18). -/
def Obligations.MatchStartsTheCopy : Prop :=
  ∀ (pos : Pos) (len : BitVec 5) (s : State), exec (.matchTok pos len) s = .next { s with
    dec := { s.dec with pos := pos, rem := len }, phase := .decCopy, latch := [] }

/-- What CTRL, LIT and MATCH leave unchanged (43_decoder.md R274, R276, R278; 60_exceptions.md R343). That they leave the input
stream and IN_COUNT unchanged is the model's split (log entry 3): earlier steps have read their bytes into the latch, where the
rules do the `InRead` in the operation itself. -/
def Obligations.TokenInstructionsFrame : Prop :=
  ∀ (i : Instr) (s t : State), i.place ≠ .command → exec i s = .next t →
    (t.tree = s.tree ∧ t.enc = s.enc ∧ t.finder = s.finder ∧ t.pk = s.pk ∧ t.env = s.env ∧ t.hostData = s.hostData ∧
      t.draw = s.draw ∧ t.ports.inStream = s.ports.inStream ∧ t.host.mode = s.host.mode ∧ t.host.ie = s.host.ie ∧
      t.host.inCount = s.host.inCount) ∧
    (i.place ≠ .literal → t.host = s.host ∧ t.ports = s.ports ∧ t.flush = s.flush ∧ t.dec.cur = s.dec.cur ∧
      ∀ q, q < 4112 → rbReadPhys q t.ring = rbReadPhys q s.ring) ∧
    (i.place = .control → t.dec.pos = s.dec.pos ∧ t.dec.rem = s.dec.rem) ∧
    (i.place = .matchSlot → t.dec.ctrl = s.dec.ctrl ∧ t.dec.bit = s.dec.bit) ∧
    (i.place = .literal → t.dec.ctrl = s.dec.ctrl ∧ t.dec.pos = s.dec.pos ∧ t.dec.rem = s.dec.rem ∧
      (Memory.wf s.ring = true → ∀ q, q < 4112 → q ≠ s.dec.cur.toNat →
        ¬ (s.dec.cur.toNat < 16 ∧ q = 4096 + s.dec.cur.toNat) → rbReadPhys q t.ring = rbReadPhys q s.ring))

/-! ### The commands -/

/-- CMD NOP and a reserved OP have no effect in any state (44_host_commands.md R310, R314). -/
def Obligations.NopAndReservedCommandsHaveNoEffect : Prop :=
  ∀ (op : BitVec 4) (ign : BitVec 28) (s : State),
    exec (.cmdNop ign) s = .next s ∧ exec (.cmdReserved op ign) s = .next s

/-- START_ENCODE while no run is in progress: a fresh encode run (44_host_commands.md R311, R312; 42_encoder.md R223;
40_ring_buffer.md R161; 41_match_tree.md R181). -/
def Obligations.StartEncodeBeginsAFreshRun : Prop :=
  ∀ (ign : BitVec 28) (s : State), s.host.state ≠ .busy → ∃ t, exec (.cmdStartEncode ign) s = .next t ∧
    t.host = { s.host with state := .busy, mode := .encode, err := .none, inCount := 0#32, outCount := 0#32 } ∧
    t.phase = .encPreload ∧
    t.enc = { la := 0#5, eos := false, p := 4080#12, run := 0#5, skip := 0#4 } ∧
    t.pk.ctrl = 0#8 ∧ t.pk.bit = 0#4 ∧ t.pk.len = 0#5 ∧
    (∀ q, q < 4112 → rbReadPhys q t.ring = 0x20#8) ∧
    (∀ c, t.tree.rootAt c = none) ∧ (∀ q, t.tree.parentOf q = .none) ∧
    (∀ q, t.tree.leftOf q = s.tree.leftOf q ∧ t.tree.rightOf q = s.tree.rightOf q)

/-- START_DECODE while no run is in progress: a fresh decode run; the tree is not touched (44_host_commands.md R313, R312;
43_decoder.md R272; 40_ring_buffer.md R161). -/
def Obligations.StartDecodeBeginsAFreshRun : Prop :=
  ∀ (ign : BitVec 28) (s : State), s.host.state ≠ .busy → ∃ t, exec (.cmdStartDecode ign) s = .next t ∧
    t.host = { s.host with state := .busy, mode := .decode, err := .none, inCount := 0#32, outCount := 0#32 } ∧
    t.phase = .decCtrl ∧
    t.dec = { cur := 4080#12, ctrl := 0#8, bit := 8#4, pos := 0#12, rem := 0#5 } ∧
    (∀ q, q < 4112 → rbReadPhys q t.ring = 0x20#8) ∧ t.tree = s.tree

/-- A START while BUSY has no effect (44_host_commands.md R315). -/
def Obligations.StartWhileBusyHasNoEffect : Prop :=
  ∀ (ign : BitVec 28) (s : State), s.host.state = .busy →
    exec (.cmdStartEncode ign) s = .next s ∧ exec (.cmdStartDecode ign) s = .next s

/-- What the commands leave unchanged (44_host_commands.md R310 to R315; 42_encoder.md R223; 43_decoder.md R272). -/
def Obligations.CommandsFrame : Prop :=
  ∀ (i : Instr) (s t : State), i.place = .command → exec i s = .next t →
    (t.ports = s.ports ∧ t.env = s.env ∧ t.hostData = s.hostData ∧ t.draw = s.draw ∧ t.finder = s.finder ∧
      t.host.ie = s.host.ie ∧ t.pk.buf = s.pk.buf ∧ t.tree.left = s.tree.left ∧ t.tree.right = s.tree.right) ∧
    (s.host.state = .busy → t = s) ∧
    (∀ ign, i = .cmdStartEncode ign → t.dec = s.dec) ∧
    (∀ ign, i = .cmdStartDecode ign → t.tree = s.tree ∧ t.enc = s.enc ∧ t.pk = s.pk) ∧
    (∀ ign, i = .cmdNop ign → t = s) ∧ (∀ op ign, i = .cmdReserved op ign → t = s)

/-! ### Steps -/

/-- The engine's turn runs the instruction its latch decodes to; a host write of CMD runs the instruction its word decodes to
(43_decoder.md R274 to R278; 44_host_commands.md R317). The latch and the turns are the model's own (log entries 3, 4). -/
def Obligations.StepRunsTheDecodedInstruction : Prop :=
  (∀ (s : State) (i : Instr) (rest : List Byte), AtToken s → decode (streamPlace s) s.latch = .ok (i, rest) →
    (s.env = [] → step s = exec i s) ∧
    (∀ e, s.env = .engine :: e → step s = exec i { s with env := e })) ∧
  (∀ (s : State) (w : Word) (i : Instr) (rest : List Byte) (e : List Turn),
    s.env = .host { op := .write w, off := 0, size := 4 } :: e → decode .command (wordBytes w) = .ok (i, rest) →
    step s = exec i { s with env := e })

/-- The read of a token's byte, by the source's answer; END ends the run normally with what was output so far, in the middle
of a token too (43_decoder.md R274, R276, R278, R281, R282; 20_memory.md R88; 60_exceptions.md R341). That a step reads one item
and that a DATA byte goes to the latch only is the model's choice (log entry 3); the END and ERR clauses are the spec's. -/
def Obligations.TokenBytesAreReadOneItemAtATime : Prop :=
  ∀ s : State, AtToken s → s.latch.length < (streamPlace s).size →
    (∀ b rest, s.ports.inStream = .data b :: rest → engineStep s = .next { s with
      ports := { s.ports with inStream := rest }, host := { s.host with inCount := s.host.inCount + 1#32 },
      latch := s.latch ++ [b] }) ∧
    (∀ rest, s.ports.inStream = .eos :: rest → ∃ t, engineStep s = .next t ∧ RunEnded s t ∧ t.ring = s.ring ∧
      t.dec = s.dec ∧ t.ports.inStream = rest) ∧
    (∀ rest, s.ports.inStream = .err :: rest → ∃ t, engineStep s = .next t ∧ ErrorEntry .inIo s t ∧ t.ring = s.ring ∧
      t.dec = s.dec ∧ t.ports.inStream = rest)

/-- DEC_COPY, one byte, by the sink's answer (43_decoder.md R279; 40_ring_buffer.md R162; 60_exceptions.md R342). That a step
moves one byte is the model's choice (log entry 3). -/
def Obligations.CopyMovesOneByte : Prop :=
  ∀ s : State, s.flush = none → s.phase = .decCopy → s.dec.rem ≠ 0#5 → Memory.wf s.ring = true →
    (∀ rest, s.ports.sink = .ok :: rest → ∃ t, engineStep s = .next t ∧
      t.ports = { s.ports with sink := rest, outStream := s.ports.outStream ++ [rbRead s.dec.pos s.ring] } ∧
      t.host = { s.host with outCount := s.host.outCount + 1#32 } ∧
      t.dec.pos = s.dec.pos + 1#12 ∧ t.dec.cur = s.dec.cur + 1#12 ∧ t.dec.rem = s.dec.rem - 1#5 ∧
      t.dec.ctrl = s.dec.ctrl ∧
      (s.dec.rem ≠ 1#5 → t.dec.bit = s.dec.bit ∧ t.phase = .decCopy) ∧
      (s.dec.rem = 1#5 → t.dec.bit = s.dec.bit + 1#4 ∧
        t.phase = if s.dec.bit + 1#4 = 8#4 then .decCtrl else .decToken) ∧
      ∀ q, q < 4112 → rbReadPhys q t.ring =
        if q = s.dec.cur.toNat ∨ (s.dec.cur.toNat < 16 ∧ q = 4096 + s.dec.cur.toNat) then rbRead s.dec.pos s.ring
        else rbReadPhys q s.ring) ∧
    (∀ rest, s.ports.sink = .err :: rest → ∃ t, engineStep s = .next t ∧ ErrorEntry .outIo s t ∧ t.ring = s.ring ∧
      t.dec = s.dec ∧ t.ports.sink = rest)

/-- A whole copy, with `d` the distance from the source to the cursor: byte `r` of the copy is byte `r - d` of the same copy
where `1 <= d <= r`, and the byte the ring held at the source plus `r` otherwise. So a source that trails the cursor by less
than the length repeats its last `d` bytes (43_decoder.md R279, R280; 20_memory.md R97; 70_reset_and_hazards.md R390). That it takes one step a
byte is the model's choice (log entry 3). -/
def Obligations.CopyRepeatsWhatItJustWrote : Prop :=
  ∀ (s : State) (rest : List SinkAnswer), s.env = [] → s.flush = none → s.phase = .decCopy → s.dec.rem ≠ 0#5 →
    Memory.wf s.ring = true → s.ports.sink = List.replicate s.dec.rem.toNat .ok ++ rest →
    ∃ (t : State) (copied : List Byte), Sys2Proof.core.run s.dec.rem.toNat s = .next t ∧
      copied.length = s.dec.rem.toNat ∧ t.ports.outStream = s.ports.outStream ++ copied ∧
      (∀ r, r < s.dec.rem.toNat → copied[r]? =
        if 1 ≤ (s.dec.cur - s.dec.pos).toNat ∧ (s.dec.cur - s.dec.pos).toNat ≤ r
        then copied[r - (s.dec.cur - s.dec.pos).toNat]?
        else some (rbRead (s.dec.pos + BitVec.ofNat 12 r) s.ring)) ∧
      t.dec.cur = s.dec.cur + s.dec.rem.setWidth 12 ∧ t.dec.rem = 0#5 ∧ t.dec.bit = s.dec.bit + 1#4 ∧
      t.ports.sink = rest

/-! ### The encode run -/

/-- ENC_PRELOAD reads one item: a DATA byte goes to `(START + enc_la) mod N`; the loop ends at 16 bytes or END, with the run
in ENC_STEP or, for an empty stream, ENC_FINAL (42_encoder.md R224; 60_exceptions.md R341). That a step reads one item is the
model's choice (log entry 3). -/
def Obligations.PreloadReadsTheFirstBytes : Prop :=
  ∀ s : State, s.flush = none → s.phase = .encPreload → s.enc.la.toNat < 16 → s.enc.eos = false →
    (∀ b rest, s.ports.inStream = .data b :: rest → ∃ t, engineStep s = .next t ∧
      t.ring = rbWrite (4080#12 + s.enc.la.setWidth 12) b s.ring ∧ t.enc.la = s.enc.la + 1#5 ∧ t.enc.eos = false ∧
      t.ports.inStream = rest ∧ t.host = { s.host with inCount := s.host.inCount + 1#32 } ∧
      (s.enc.la = 15#5 → t.enc.run = 16#5 ∧ t.phase = .encStep) ∧
      (s.enc.la ≠ 15#5 → t.enc.run = s.enc.run ∧ t.phase = .encPreload)) ∧
    (∀ rest, s.ports.inStream = .eos :: rest → ∃ t, engineStep s = .next t ∧ t.ring = s.ring ∧ t.enc.la = s.enc.la ∧
      t.enc.eos = true ∧ t.enc.run = s.enc.la ∧ t.ports.inStream = rest ∧ t.host = s.host ∧
      (s.enc.la = 0#5 → t.phase = .encFinal) ∧ (s.enc.la ≠ 0#5 → t.phase = .encStep)) ∧
    (∀ rest, s.ports.inStream = .err :: rest → ∃ t, engineStep s = .next t ∧ ErrorEntry .inIo s t)

/-- ENC_STEP before END, by the source's answer: DELETE of slot `enc_p + 16`; a DATA byte is stored there, END sets `enc_eos` and
stores nothing, and both go on to INSERT of `enc_p` and the token that starts there; the step that reads END already takes one
off `enc_run`. With the eighth token of a block FLUSH begins, its bytes are written by later steps of the model, and the rest of
the step follows it (log entry 3). ERR enters IN_IO (42_encoder.md R222, R226, R228 to R231; 70_reset_and_hazards.md R391; 60_exceptions.md R341).
That DELETE, read and INSERT are one step is the model's choice (log entry 16). -/
def Obligations.EncoderStepDeletesWritesInserts : Prop :=
  ∀ (s : State) (rest : List InItem) (t1 : Tree),
    s.flush = none → s.phase = .encStep → encStepInRange s = true → s.enc.eos = false →
    delete (s.enc.p + 16#12) s.tree = .ok t1 →
    (∀ b t2 f, s.ports.inStream = .data b :: rest →
      insert (rbWrite (s.enc.p + 16#12) b s.ring) s.enc.p s.enc.run.toNat t1 s.finder = .ok (t2, f) →
      ∃ t, engineStep s = .next t ∧ t.tree = t2 ∧
        StepEmits s.enc s.pk (rbWrite (s.enc.p + 16#12) b s.ring) f t ∧
        t.ports = { s.ports with inStream := rest } ∧
        t.host = { s.host with inCount := s.host.inCount + 1#32 } ∧ t.dec = s.dec) ∧
    (∀ t2 f, s.ports.inStream = .eos :: rest →
      insert s.ring s.enc.p s.enc.run.toNat t1 s.finder = .ok (t2, f) →
      ∃ t, engineStep s = .next t ∧ t.tree = t2 ∧ StepEmits { s.enc with eos := true } s.pk s.ring f t ∧
        t.ports = { s.ports with inStream := rest } ∧ t.host = s.host ∧ t.dec = s.dec) ∧
    (s.ports.inStream = .err :: rest → ∃ t, engineStep s = .next t ∧ ErrorEntry .inIo s t ∧ t.ring = s.ring ∧
      t.pk = s.pk ∧ t.enc = s.enc ∧ t.ports.inStream = rest)

/-- ENC_STEP after END, at a step where a token starts and at a step inside a match: nothing is read or written into the ring,
DELETE and INSERT still run, the token is emitted, `enc_run` shrinks by one, and the phase is ENC_FINAL once it is 0. With the
eighth token of a block FLUSH begins, its bytes are written by later steps of the model, and the rest of the step follows it, as
FlushWritesTheWholeBlock says (42_encoder.md R222, R226, R228, R230, R231). That division into steps is the model's choice (log
entry 3). -/
def Obligations.EncoderDrainsAfterEnd : Prop :=
  ∀ (s : State) (t1 t2 : Tree) (f : Finder),
    s.flush = none → s.phase = .encStep → encStepInRange s = true → s.enc.eos = true →
    delete (s.enc.p + 16#12) s.tree = .ok t1 → insert s.ring s.enc.p s.enc.run.toNat t1 s.finder = .ok (t2, f) →
    ∃ t, engineStep s = .next t ∧ t.tree = t2 ∧ StepEmits s.enc s.pk s.ring f t ∧
      (runAfter s.enc).toNat = s.enc.run.toNat - 1 ∧ (s.enc.run = 1#5 → phaseAfter s.enc = .encFinal) ∧
      (s.enc.run ≠ 1#5 → phaseAfter s.enc = .encStep) ∧
      t.ports = s.ports ∧ t.host = s.host ∧ t.dec = s.dec

/-- ENC_FINAL: with no token since the last flush the run is done and nothing is written, otherwise the partial block is
flushed first (42_encoder.md R236, R237). Where the steps divide is the model's choice (log entry 3): one step only begins the
FLUSH and writes nothing, and the last byte of the FLUSH is a step of its own, which ends the run. -/
def Obligations.FinalFlushesAPartialBlockOnly : Prop :=
  ∀ s : State, s.phase = .encFinal →
    (s.flush = none → s.pk.bit = 0#4 → ∃ t, engineStep s = .next t ∧ RunEnded s t ∧ t.ports = s.ports) ∧
    (s.flush = none → s.pk.bit ≠ 0#4 → engineStep s = .next { s with flush := some 0#5 }) ∧
    (∀ rest, s.flush = some s.pk.len → s.pk.len.toNat ≤ 16 → s.ports.sink = .ok :: rest →
      ∃ t, engineStep s = .next t ∧ t.host.state = .done ∧ t.phase = .halted ∧ t.pk.bit = 0#4)

/-! ### The match tree -/

/-- The result of INSERT: `best_len` is 2 up to the larger of 2 and `run`; a match of 3 or more names a position whose common
prefix with `i` has that very length (41_match_tree.md R185, R186). -/
def Obligations.InsertReturnsATrueMatch : Prop :=
  ∀ (m : Ring) (i : Pos) (run : Nat) (t t1 : Tree) (f f1 : Finder), run ≤ 16 → insert m i run t f = .ok (t1, f1) →
    2 ≤ f1.len.toNat ∧ f1.len.toNat ≤ max 2 run ∧
    (3 ≤ f1.len.toNat → cpl m f1.pos.toNat i.toNat run = f1.len.toNat)

/-- INSERT into an empty tree: `i` is its root, with no children and no match (41_match_tree.md R186, R194). -/
def Obligations.InsertIntoAnEmptyTreeMakesARoot : Prop :=
  ∀ (m : Ring) (i : Pos) (run : Nat) (t : Tree) (f : Finder), t.wf = true → t.parentOf i = .none →
    t.rootAt (rbRead i m) = none →
    ∃ t1 f1, insert m i run t f = .ok (t1, f1) ∧ f1.len = 2#5 ∧
      t1.rootAt (rbRead i m) = some i ∧ t1.parentOf i = .root (rbRead i m) ∧ t1.leftOf i = none ∧ t1.rightOf i = none ∧
      (∀ c, c ≠ rbRead i m → t1.rootAt c = t.rootAt c) ∧
      (∀ q, q ≠ i → t1.parentOf q = t.parentOf q ∧ t1.leftOf q = t.leftOf q ∧ t1.rightOf q = t.rightOf q)

/-- An exact match at the root: `i` takes the place of `j` and its children, and `j` leaves the tree (41_match_tree.md R186,
R193). -/
def Obligations.ExactMatchReplacesTheRoot : Prop :=
  ∀ (m : Ring) (i j : Pos) (run : Nat) (t : Tree) (f : Finder), t.wf = true → t.Sound → t.parentOf i = .none →
    t.rootAt (rbRead i m) = some j → cpl m j.toNat i.toNat run = run → 3 ≤ run → run ≤ 16 →
    ∃ t1, insert m i run t f = .ok (t1, { len := BitVec.ofNat 5 run, pos := j }) ∧
      t1.rootAt (rbRead i m) = some i ∧ t1.parentOf i = .root (rbRead i m) ∧ t1.parentOf j = .none ∧
      t1.leftOf i = t.leftOf j ∧ t1.rightOf i = t.rightOf j ∧
      (∀ q, t.leftOf j = some q → t1.parentOf q = .left i) ∧ (∀ q, t.rightOf j = some q → t1.parentOf q = .right i)

/-- DELETE of a position in no tree changes nothing (41_match_tree.md R191). -/
def Obligations.DeleteOfANonMemberChangesNothing : Prop :=
  ∀ (z : Pos) (t : Tree), t.parentOf z = .none → delete z t = .ok t

/-- In a tree, DELETE answers, takes exactly the position out, and leaves a tree (41_match_tree.md R190, R198). Which node
takes its place is DeletePromotesThePredecessor. -/
def Obligations.DeleteTakesOutExactlyOnePosition : Prop :=
  ∀ (z : Pos) (t : Tree), t.wf = true → t.Sound →
    ∃ t1, delete z t = .ok t1 ∧ t1.Sound ∧ t1.parentOf z = .none ∧
      ∀ q, q ≠ z → (t1.parentOf q = .none ↔ t.parentOf q = .none)

/-- In a tree, INSERT answers, puts exactly the position in, lets at most one other out, and only one whose common prefix with it
is the whole `run`, and leaves a tree (41_match_tree.md R186, R193, R194, R198). Which nodes it visits is
InsertFollowsTheFirstDifferingByte. -/
def Obligations.InsertPutsInExactlyOnePosition : Prop :=
  ∀ (m : Ring) (i : Pos) (run : Nat) (t : Tree) (f : Finder), t.wf = true → t.Sound → t.parentOf i = .none →
    ∃ t1 f1, insert m i run t f = .ok (t1, f1) ∧ t1.Sound ∧ t1.parentOf i ≠ .none ∧
      ∃ j, ∀ q, q ≠ i → (t1.parentOf q ≠ .none → t.parentOf q ≠ .none) ∧
        (t.parentOf q ≠ .none → t1.parentOf q = .none → q = j ∧ cpl m q.toNat i.toNat run = run)

/-! ### The machine as a whole -/

/-- A step of the engine has at most one port event, which is the model's own size of a step (log entry 3); and IN_COUNT and OUT_COUNT count exactly the DATA items taken and the
bytes accepted; items are taken from the head of the input stream and bytes appended to the output stream (20_memory.md R88,
R91, R93; 10_state.md R39, R40). -/
def Obligations.AStepHasAtMostOnePortEvent : Prop :=
  ∀ s t : State, engineStep s = .next t →
    (t.ports = s.ports ∧ t.host.inCount = s.host.inCount ∧ t.host.outCount = s.host.outCount) ∨
    (∃ b rest, s.ports.inStream = .data b :: rest ∧ t.ports = { s.ports with inStream := rest } ∧
      t.host.inCount = s.host.inCount + 1#32 ∧ t.host.outCount = s.host.outCount) ∨
    (∃ x rest, s.ports.inStream = x :: rest ∧ (x = .eos ∨ x = .err) ∧ t.ports = { s.ports with inStream := rest } ∧
      t.host.inCount = s.host.inCount ∧ t.host.outCount = s.host.outCount) ∨
    (∃ b rest, s.ports.sink = .ok :: rest ∧
      t.ports = { s.ports with sink := rest, outStream := s.ports.outStream ++ [b] } ∧
      t.host.inCount = s.host.inCount ∧ t.host.outCount = s.host.outCount + 1#32) ∨
    (∃ rest, s.ports.sink = .err :: rest ∧ t.ports = { s.ports with sink := rest } ∧
      t.host.inCount = s.host.inCount ∧ t.host.outCount = s.host.outCount)

/-- Error entry is in the same step as the port's ERR answer, with the port's code, and the only way into ERROR
(60_exceptions.md R341 to R343). -/
def Obligations.AnErrAnswerEntersTheError : Prop :=
  ∀ s t : State, engineStep s = .next t →
    (∀ rest, s.ports.inStream = .err :: rest → t.ports.inStream = rest → ErrorEntry .inIo s t) ∧
    (∀ rest, s.ports.sink = .err :: rest → t.ports.sink = rest → ErrorEntry .outIo s t) ∧
    (s.host.state ≠ .error → t.host.state = .error →
      (∃ rest, s.ports.inStream = .err :: rest ∧ t.ports.inStream = rest) ∨
      (∃ rest, s.ports.sink = .err :: rest ∧ t.ports.sink = rest))

/-- The engine holds, its state unchanged, until the port it asks has answered (20_memory.md R88, R91;
70_reset_and_hazards.md R392). That a held engine is a step without effect is the model's form (log entry 3).
That the tree too is unchanged while the read of ENC_STEP waits is the model's choice (log entry 16): R226 of 42_encoder.md issues
DELETE before that `InRead`, and here both are done once the source has answered. -/
def Obligations.AnUnansweredPortHoldsTheEngine : Prop :=
  ∀ s : State, WaitsForInput s ∨ WaitsForOutput s → engineStep s = .next s

/-- With no run in progress the engine makes no port event and keeps all state (60_exceptions.md R365). -/
def Obligations.NoRunMeansNoChange : Prop :=
  ∀ s : State, StatusInv s → s.host.state ≠ .busy → engineStep s = .next s

/-- Each run leaves the other's state alone: a decode run touches neither the match tree nor the encoder, finder and packer
registers, an encode run never a decoder register (00_scope.md R3; 42_encoder.md R224, R226, R235, R236; 43_decoder.md R274 to
R279). -/
def Obligations.EachRunLeavesTheOthersRegistersAlone : Prop :=
  ∀ s t : State, engineStep s = .next t →
    (s.phase.decoding = true → s.flush = none →
      t.tree = s.tree ∧ t.enc = s.enc ∧ t.finder = s.finder ∧ t.pk = s.pk) ∧
    (s.phase.encoding = true → t.dec = s.dec)

/-- IE changes only by a host write of IRQ_EN, to bit 0 of its value, or by reset (10_state.md R38; 44_host_commands.md R312,
R317). -/
def Obligations.InterruptEnableChangesOnlyByHostOrReset : Prop :=
  ∀ s t : State, step s = .next t →
    t.host.ie = s.host.ie ∨
    (∃ w rest, s.env = .host { op := .write w, off := 8, size := 4 } :: rest ∧ t.host.ie = w.getLsbD 0) ∨
    (∃ rest, s.env = .reset :: rest ∧ t.host.ie = false)

/-- STATE goes to BUSY only by a START command, to DONE and ERROR only by the engine, and to IDLE only by reset
(10_state.md R34; 44_host_commands.md R315). -/
def Obligations.RunStateIsWrittenOnlyByItsCauses : Prop :=
  ∀ s t : State, step s = .next t →
    t.host.state = s.host.state ∨
    (t.host.state = .busy ∧ ∃ w rest, s.env = .host { op := .write w, off := 0, size := 4 } :: rest ∧
      (cmdOp w = 1#4 ∨ cmdOp w = 2#4)) ∨
    ((t.host.state = .done ∨ t.host.state = .error) ∧ (s.env = [] ∨ ∃ rest, s.env = .engine :: rest)) ∨
    (t.host.state = .idle ∧ ∃ rest, s.env = .reset :: rest)

/-! ### The register block, the interrupt line and reset -/

/-- Register reads: STATUS with the codes of STATE, MODE and ERR as numbers (10_state.md R34 to R36), IE, the counters, 0 for CMD
and the reserved offsets, and no other effect (44_host_commands.md R316). -/
def Obligations.RegisterReadsReturnTheRegisters : Prop :=
  ∀ (s : State) (k : Nat) (rest : List Turn), k < 64 →
    s.env = .host { op := .read, off := (4 * k : Nat), size := 4 } :: rest →
    step s = .next { s with env := rest, hostData :=
      if k = 1 then
        (match s.host.err with | .none => 0x00#32 | .inIo => 0x10#32 | .outIo => 0x20#32) |||
        (match s.host.mode with | .encode => 0x0#32 | .decode => 0x4#32) |||
        (match s.host.state with | .idle => 0#32 | .busy => 1#32 | .done => 2#32 | .error => 3#32)
      else if k = 2 then (if s.host.ie then 1#32 else 0#32)
      else if k = 3 then s.host.inCount else if k = 4 then s.host.outCount else 0#32 }

/-- Register writes: IRQ_EN sets IE to bit 0, CMD runs its command, any other offset has no effect (44_host_commands.md R317). -/
def Obligations.RegisterWritesHaveTheirEffect : Prop :=
  ∀ (s : State) (k : Nat) (w : Word) (rest : List Turn), k < 64 →
    s.env = .host { op := .write w, off := (4 * k : Nat), size := 4 } :: rest →
    (k = 2 → step s = .next { s with env := rest, host := { s.host with ie := w.getLsbD 0 } }) ∧
    (k = 0 → step s = exec (decodeCommand w) { s with env := rest }) ∧
    (k ≠ 0 → k ≠ 2 → step s = .next { s with env := rest })

/-- A host access outside the register block, not 32 bits wide or not aligned is refused (10_state.md R41; 20_memory.md R84).
Which refusal answers is the model's choice (log entry 11). -/
def Obligations.UndefinedHostAccessesAreRefused : Prop :=
  ∀ (s : State) (a : HostAccess) (rest : List Turn), s.env = .host a :: rest →
    (a.off < 0 ∨ 0xFF < a.off ∨ a.size ≠ 4 ∨ a.off % 4 ≠ 0) →
    step s = .refused .outsideRegisterBlock ∨ step s = .refused .notThirtyTwoBits ∨ step s = .refused .unaligned

/-- STATUS bits 3 and 31..8 read 0 (10_state.md R37). -/
def Obligations.ReservedStatusBitsReadZero : Prop :=
  ∀ (r : HostRegs) (i : Nat), (i = 3 ∨ (8 ≤ i ∧ i < 32)) → r.statusWord.getLsbD i = false

/-- The interrupt line: asserted exactly with IE set and the run DONE or ERROR; a START that is accepted drops it; a register
read leaves it (60_exceptions.md R350; 44_host_commands.md R312). -/
def Obligations.InterruptLineFollowsTheRunState : Prop :=
  (∀ r : HostRegs, r.irq = true ↔ r.ie = true ∧ (r.state = .done ∨ r.state = .error)) ∧
  (∀ (s t : State) (ign : BitVec 28), s.host.state ≠ .busy →
    (exec (.cmdStartEncode ign) s = .next t ∨ exec (.cmdStartDecode ign) s = .next t) → t.host.irq = false) ∧
  (∀ (s t : State) (a : HostAccess), a.op = .read → hostAccess a s = .next t → t.host.irq = s.host.irq)

/-- The reset values the spec gives (10_state.md R64). -/
def Obligations.ResetHasTheSpecifiedValues : Prop :=
  State.reset.host =
    { state := .idle, mode := .encode, err := .none, ie := false, inCount := 0#32, outCount := 0#32 } ∧
  State.reset.host.irq = false ∧ State.reset.phase = .idle ∧
  State.reset.enc = { la := 0#5, eos := false, p := 0#12, run := 0#5, skip := 0#4 } ∧
  State.reset.finder = { len := 0#5, pos := 0#12 } ∧
  State.reset.pk.ctrl = 0#8 ∧ State.reset.pk.bit = 0#4 ∧ State.reset.pk.len = 0#5 ∧
  State.reset.dec = { cur := 0#12, ctrl := 0#8, bit := 0#4, pos := 0#12, rem := 0#5 }

/-- A reset, whatever the block is doing: every register takes its reset value and the engine waits in IDLE; the streams are not
acted on (70_reset_and_hazards.md R380, R381). Of the memories and `pk_buf` nothing is said: their contents are free. -/
def Obligations.ResetAbandonsTheRun : Prop :=
  ∀ (s : State) (rest : List Turn), s.env = .reset :: rest → ∃ t, step s = .next t ∧
    t.host = State.reset.host ∧ t.phase = .idle ∧ t.enc = State.reset.enc ∧ t.finder = State.reset.finder ∧
    t.dec = State.reset.dec ∧ t.pk.ctrl = 0#8 ∧ t.pk.bit = 0#4 ∧ t.pk.len = 0#5 ∧ t.latch = [] ∧ t.flush = none ∧
    t.ports = s.ports ∧ t.env = rest

/-! ### Invariants -/

/-- Every invariant holds at reset (10_state.md R34, R47, R64). For the memories it rests on the model's own reset contents, no
entry listed (log entries 5 and 6). -/
def Obligations.InvariantsHoldAtReset : Prop := Inv State.reset

/-- STATUS agrees with the engine's phase, in every state a step leads to (10_state.md R34 to R36, R47). -/
def Obligations.StatusInvariantIsKept : Prop :=
  ∀ s t : State, StatusInv s → step s = .next t → StatusInv t

/-- The engine registers stay in their ranges (10_state.md R48 to R57; 42_encoder.md R222; 43_decoder.md R275). -/
def Obligations.RegistersStayInRange : Prop :=
  ∀ s t : State, StatusInv s → RangeInv s → step s = .next t → RangeInv t

/-- The memories stay in the model's canonical form, a reset included (10_state.md R42 to R44; log entries 5 and 6). -/
def Obligations.MemoriesStayCanonical : Prop :=
  ∀ s t : State, MemoryInv s → step s = .next t → MemoryInv t

/-- The padding goes on mirroring slots 0 to 15 (40_ring_buffer.md R166). -/
def Obligations.PaddingStaysAMirror : Prop :=
  ∀ s t : State, StatusInv s → MemoryInv s → MirrorInv s → step s = .next t → MirrorInv t

/-- With the mirror, a scan past position 4095 reads the ring modulo `N` (40_ring_buffer.md R166, R168). -/
def Obligations.ScansReadTheRingModuloN : Prop :=
  ∀ (s : State) (q : Nat), MirrorInv s → s.phase ≠ .idle → q < 4112 →
    rbReadPhys q s.ring = rbRead (BitVec.ofNat 12 (q % 4096)) s.ring

/-- The links go on forming trees: no position in two places, none below itself (41_match_tree.md R180, R198). -/
def Obligations.LinksStayTrees : Prop :=
  ∀ s t : State, StatusInv s → MemoryInv s → TreeInv s → step s = .next t → TreeInv t

/-- Only the last `W = N - F` inserted positions can be members, and so no position that was not inserted in this run, a FILL
position before START among them. With `n` positions inserted before the step there are `n` or `n + 1` after it, as `enc_p` says,
and none in a run the step starts; and none of the `F` slots from `enc_p` on is a member (41_match_tree.md R197, R198;
42_encoder.md R225; 00_scope.md R14). The count `n` is the statement's, no field of State. -/
def Obligations.MembersStayInsideTheWindow : Prop :=
  ∀ (s t : State) (n : Nat), Inv s → InsertedInv n s → step s = .next t →
    (s.phase.encoding = true → InsertedInv n t ∨ InsertedInv (n + 1) t) ∧
    (s.phase.encoding = false → InsertedInv 0 t) ∧
    WindowInv t

/-- No token makes the replay engine fault: a step of a decode run always answers a next state (30_encoding.md R128;
43_decoder.md R284). -/
def Obligations.NoTokenMakesTheReplayEngineFault : Prop :=
  ∀ s : State, StatusInv s → RangeInv s → s.phase.decoding = true → Answers (engineStep s)

/-- From a state with the invariants the engine always answers a next state: the model's own checks never stop it, in an encode
run too (41_match_tree.md R195; 60_exceptions.md R345). -/
def Obligations.TheEngineNeverFaults : Prop :=
  ∀ s : State, Inv s → Answers (engineStep s)

/-! ### Which nodes INSERT and DELETE choose -/

/-- The walk of INSERT in a tree: from the root of its byte it visits nodes by their first differing byte, as unsigned values,
down to an exact match or an empty slot; `i` is linked there, taking over an exact match's children and otherwise with none; no
visited node matches longer than `best_len`, and `best_pos` is the first visited of that length; no root and no other node's
child field changes but the link `i` is put at (41_match_tree.md R186, R188, R189, R193, R194, R200). -/
def Obligations.InsertFollowsTheFirstDifferingByte : Prop :=
  ∀ (m : Ring) (i : Pos) (run : Nat) (t : Tree) (f : Finder), t.wf = true → t.Sound → t.parentOf i = .none → run ≤ 16 →
    ∃ t1 f1 vs, insert m i run t f = .ok (t1, f1) ∧ Visits m i run t vs (t.rootAt (rbRead i m)) ∧
      t1.parentOf i = landing m i run vs (.root (rbRead i m)) ∧ t1.linkGet (t1.parentOf i) = some i ∧
      (∀ j ∈ vs, cpl m j.toNat i.toNat run ≤ f1.len.toNat) ∧
      (3 ≤ f1.len.toNat → ∃ us ws, vs = us ++ f1.pos :: ws ∧ cpl m f1.pos.toNat i.toNat run = f1.len.toNat ∧
        ∀ u ∈ us, cpl m u.toNat i.toNat run < f1.len.toNat) ∧
      (∀ j ∈ vs, cpl m j.toNat i.toNat run = run →
        t1.leftOf i = t.leftOf j ∧ t1.rightOf i = t.rightOf j ∧ t1.parentOf j = .none) ∧
      ((∀ j ∈ vs, cpl m j.toNat i.toNat run ≠ run) → t1.leftOf i = none ∧ t1.rightOf i = none) ∧
      (∀ c, t1.parentOf i ≠ .root c → t1.rootAt c = t.rootAt c) ∧
      (∀ q, q ≠ i → t1.parentOf i ≠ .left q → t1.leftOf q = t.leftOf q) ∧
      (∀ q, q ≠ i → t1.parentOf i ≠ .right q → t1.rightOf q = t.rightOf q)

/-- The node that takes the place of a deleted `z` in a tree. With two children `a` and `b` it is the in-order predecessor `y`, the
rightmost node from `a` on: `y` takes the link of `z`, `b` as its right child and, unless it is `a`, `a` as its left child, while
its own left subtree takes its old place. With at most one child it is that child, or nothing. No other child field changes
(41_match_tree.md R190, R192). -/
def Obligations.DeletePromotesThePredecessor : Prop :=
  ∀ (z : Pos) (t t1 : Tree), t.wf = true → t.Sound → t.parentOf z ≠ .none → delete z t = .ok t1 →
    (∀ a b, t.leftOf z = some a → t.rightOf z = some b →
      ∃ n y, rightBelow t n a = some y ∧ t.rightOf y = none ∧
        t1.linkGet (t.parentOf z) = some y ∧ t1.parentOf y = t.parentOf z ∧
        t1.rightOf y = some b ∧ t1.parentOf b = .right y ∧
        (y = a → t1.leftOf y = t.leftOf y) ∧
        (y ≠ a → t1.leftOf y = some a ∧ t1.parentOf a = .left y ∧
          ∃ r, t.parentOf y = .right r ∧ t1.rightOf r = t.leftOf y ∧ ∀ c, t.leftOf y = some c → t1.parentOf c = .right r) ∧
        (∀ q, q ≠ y → t.parentOf z ≠ .left q → t1.leftOf q = t.leftOf q) ∧
        (∀ q, q ≠ y → t.parentOf z ≠ .right q → t.parentOf y ≠ .right q → t1.rightOf q = t.rightOf q)) ∧
    (∀ c, (t.leftOf z = none ∧ t.rightOf z = c) ∨ (t.leftOf z = c ∧ t.rightOf z = none) →
      t1.linkGet (t.parentOf z) = c ∧ (∀ y, c = some y → t1.parentOf y = t.parentOf z) ∧
      (∀ q, t.parentOf z ≠ .left q → t1.leftOf q = t.leftOf q) ∧
      (∀ q, t.parentOf z ≠ .right q → t1.rightOf q = t.rightOf q))
end

