-- ==== Sys2Proof/Laws/PerInstr.lean ====
section
/-!
SUPPORT. Statements about every instruction as syntax, one lemma per constructor.
-/

namespace Sys2Proof.Laws

/-- The bytes of an instruction are as many as its place says (30_encoding.md R132, R135). -/
def EncodeSize.Statement (i : Instr) : Prop := (encode i).length = i.place.size

theorem EncodeSize.ctrl (k : Byte) : EncodeSize.Statement (.ctrl k) := rfl

theorem EncodeSize.lit (d : Byte) : EncodeSize.Statement (.lit d) := rfl

theorem EncodeSize.matchTok (pos : Pos) (len : BitVec 5) : EncodeSize.Statement (.matchTok pos len) := rfl

theorem EncodeSize.cmdNop (ign : BitVec 28) : EncodeSize.Statement (.cmdNop ign) := rfl

theorem EncodeSize.cmdStartEncode (ign : BitVec 28) : EncodeSize.Statement (.cmdStartEncode ign) := rfl

theorem EncodeSize.cmdStartDecode (ign : BitVec 28) : EncodeSize.Statement (.cmdStartDecode ign) := rfl

theorem EncodeSize.cmdReserved (op : BitVec 4) (ign : BitVec 28) : EncodeSize.Statement (.cmdReserved op ign) := rfl

end Sys2Proof.Laws
end

