-- ==== Sys2Proof/Tests/Slice0.lean ====
section
/-!
SUPPORT. Tests, and a witness for every statement that has hypotheses.

Every expected value of a test is one of the spec's own vectors or examples (95_test_vectors.md and the rule files); each
docstring names it. Each test is about one operation or one step.
-/

namespace Sys2Proof.Tests

open Sys2Proof Sys2Proof.Machine

/-! ### Helpers -/

/-- The next state of a step, if it has one. -/
def nextOf (o : Host.Outcome State Fault Refusal) : Option State :=
  match o with
  | .next t => some t
  | .fault _ => none
  | .refused _ => none

theorem nextOf_isSome {o : Host.Outcome State Fault Refusal} (h : (nextOf o).isSome = true) : ∃ t, o = .next t := by
  cases o <;> simp [nextOf] at h
  exact ⟨_, rfl⟩

/-- The refusal of a step, if it is refused. -/
def refusalOf (o : Host.Outcome State Fault Refusal) : Option Refusal :=
  match o with
  | .next _ => none
  | .fault _ => none
  | .refused r => some r

/-- A run of the given mode in progress, at a phase. -/
def running (mode : Mode) (phase : Phase) : State :=
  { State.reset with host := { State.reset.host with state := .busy, mode := mode }, phase := phase }

/-- A decode run with the given decoder registers. -/
def decoding (phase : Phase) (cur : Pos) (ctrl : Byte) (bit : BitVec 4) (pos : Pos) (rem : BitVec 5) : State :=
  { running .decode phase with dec := { cur := cur, ctrl := ctrl, bit := bit, pos := pos, rem := rem } }

/-- The state with items at the input source. -/
def withInput (xs : List InItem) (s : State) : State := { s with ports := { s.ports with inStream := xs } }

/-- The state with answers at the output sink. -/
def withSink (xs : List SinkAnswer) (s : State) : State := { s with ports := { s.ports with sink := xs } }

/-- A host access of four bytes. -/
def hostTurn (op : HostOp) (off : Int) : Turn := .host { op := op, off := off, size := 4 }

/-! ### Well-formedness: each check refuses an ill-formed term -/

/-- A match of length 2 has no encoding (30_encoding.md R123). -/
theorem test_wf_refuses_short_match : (Instr.matchTok 0#12 2#5).wf = false := by decide

/-- A match of length 19 has no encoding (30_encoding.md R123). -/
theorem test_wf_refuses_long_match : (Instr.matchTok 0#12 19#5).wf = false := by decide

/-- OP 2 is START_DECODE, not reserved (30_encoding.md R131). -/
theorem test_wf_refuses_defined_op_as_reserved : (Instr.cmdReserved 2#4 0#28).wf = false := by decide

/-- The ends of the ranges are well formed (30_encoding.md R123, R131). -/
theorem test_wf_takes_the_bounds :
    (Instr.matchTok 0#12 3#5).wf = true ∧ (Instr.matchTok 4095#12 18#5).wf = true ∧
    (Instr.cmdReserved 3#4 0#28).wf = true ∧ (Instr.cmdReserved 15#4 0#28).wf = true := by decide

/-! ### Decoding: words written out from the encodings -/

/-- P2: the control byte `0b01010011`. -/
theorem test_decode_ctrl : decode .control [0x53#8] = .ok (.ctrl 0b01010011#8, []) := rfl

/-- P1: the literal `A`. -/
theorem test_decode_lit : decode .literal [0x41#8, 0x42#8] = .ok (.lit 0x41#8, [0x42#8]) := rfl

/-- VK5: `34 AB` is MATCH 2612, 14. -/
theorem test_decode_match : decode .matchSlot [0x34#8, 0xAB#8] = .ok (.matchTok 2612#12 14#5, []) := rfl

/-- VK1, VK2: the ends of the fields. -/
theorem test_decode_match_bounds :
    decode .matchSlot [0x00#8, 0x00#8] = .ok (.matchTok 0#12 3#5, []) ∧
    decode .matchSlot [0xFF#8, 0xFF#8] = .ok (.matchTok 4095#12 18#5, []) := ⟨rfl, rfl⟩

/-- VK3, VK4: the bytes of MATCH 4080, 3 and MATCH 0x123, 10. -/
theorem test_encode_match :
    encode (.matchTok 4080#12 3#5) = [0xF0#8, 0xF0#8] ∧ encode (.matchTok 0x123#12 10#5) = [0x23#8, 0x17#8] := by decide

/-- VH5: OP 0 is NOP, whatever bits 31..4 are (30_encoding.md R131). -/
theorem test_decode_cmd_nop :
    decode .command [0xF0#8, 0xFF#8, 0xFF#8, 0xFF#8] = .ok (.cmdNop 0xFFFFFFF#28, []) := rfl

/-- VH6: `0x11` is START_ENCODE. -/
theorem test_decode_cmd_start_encode :
    decode .command [0x11#8, 0x00#8, 0x00#8, 0x00#8] = .ok (.cmdStartEncode 1#28, []) := rfl

/-- VH3: `0x2` is START_DECODE. -/
theorem test_decode_cmd_start_decode :
    decode .command [0x02#8, 0x00#8, 0x00#8, 0x00#8] = .ok (.cmdStartDecode 0#28, []) := rfl

/-- VH5: OP `0x3` and `0xF` are reserved. -/
theorem test_decode_cmd_reserved :
    decode .command [0x03#8, 0x00#8, 0x00#8, 0x00#8] = .ok (.cmdReserved 3#4 0#28, []) ∧
    decode .command [0x0F#8, 0x00#8, 0x00#8, 0x00#8] = .ok (.cmdReserved 15#4 0#28, []) := ⟨rfl, rfl⟩

/-- VD5: half a match token is rejected by name (30_encoding.md R132). -/
theorem test_decode_truncated : decode .matchSlot [0xF0#8] = .error .truncated := rfl

/-- 30_encoding.md R134: `BLOCK LIT 'A', LIT 'B', MATCH 4080, 8`. -/
theorem test_block_bytes :
    encodeBlock [.lit 0x41#8, .lit 0x42#8, .matchTok 4080#12 8#5] = [0x03#8, 0x41#8, 0x42#8, 0xF0#8, 0xF5#8] := by decide

/-- VK7: control bits 0 and 2. -/
theorem test_block_control_bits :
    encodeBlock [.lit 0x41#8, .matchTok 4080#12 3#5, .lit 0x42#8] = [0x05#8, 0x41#8, 0xF0#8, 0xF0#8, 0x42#8] := by decide

/-! ### The words of the opcode table, placed and run (log entries 1 and 2) -/

/-- VK5, as a table word: the second byte is bits 15..8. -/
theorem test_table_word_match : decodeTableWord 16 0xAB34 = some (.matchTok 2612#12 14#5) := rfl

/-- VH6, as a table word. -/
theorem test_table_word_command :
    decodeTableWord 32 0x11 = some (.cmdStartEncode 1#28) ∧ decodeTableWord 8 0x02 = some (.cmdStartDecode 0#28) ∧
    decodeTableWord 8 0x53 = some (.ctrl 0x53#8) := ⟨rfl, rfl, rfl⟩

/-- A match token placed after reset runs in the next step: source and count are set, the copy starts. -/
theorem test_withFetchWord_match :
    (nextOf (step (State.reset.withFetchWord 16 0xAB34))).map (fun t => (t.dec.pos, t.dec.rem, t.phase)) =
      some (2612#12, 14#5, Phase.decCopy) := rfl

/-- A command and a control byte placed after reset run in the next step. -/
theorem test_withFetchWord_command :
    (nextOf (step (State.reset.withFetchWord 32 0x11))).map (fun t => (t.phase, t.enc.p)) =
      some (Phase.encPreload, 4080#12) ∧
    (nextOf (step (State.reset.withFetchWord 8 0x53))).map (fun t => (t.phase, t.dec.ctrl)) =
      some (Phase.decToken, 0x53#8) := ⟨rfl, rfl⟩

/-! ### The ring buffer (vectors VB) -/

/-- VB2, VB3: a write below `F` reaches its padding slot. -/
theorem test_ring_mirror :
    rbReadPhys 4099 (rbWrite 3#12 0x41#8 rbFill) = 0x41#8 ∧ rbReadPhys 4111 (rbWrite 15#12 0x42#8 rbFill) = 0x42#8 := by decide

/-- VB4, VB5: positions 16 and 4095 have no padding slot. -/
theorem test_ring_no_mirror :
    rbWrite 16#12 0x43#8 rbFill = [(16, 0x43#8)] ∧ rbWrite 4095#12 0x44#8 rbFill = [(4095, 0x44#8)] := by decide

/-- A byte written back to FILL leaves no entry: equal rings are equal lists (log entry 5). -/
theorem test_ring_canonical : rbWrite 3#12 0x20#8 (rbWrite 3#12 0x41#8 rbFill) = rbFill := by decide

/-! ### The match tree (vectors VT and the example of 41_match_tree.md R196) -/

/-- The state of a tree after the insertions, with what the last one found. -/
def insertAll (m : Ring) (run : Nat) : List Pos → Tree × Finder → Option (Tree × Finder)
  | [], x => some x
  | i :: rest, (t, f) =>
    match insert m i run t f with
    | .ok x => insertAll m run rest x
    | .error _ => none

/-- An empty tree and finder. -/
def emptyTree : Tree × Finder := (State.reset.tree, State.reset.finder)

/-- Bytes written from a position on. -/
def writeFrom (p : Pos) : List Byte → Ring → Ring
  | [], m => m
  | b :: rest, m => writeFrom (p + 1#12) rest (rbWrite p b m)

/-- The ring of VT9 to VT12. -/
def vtRing : Ring :=
  writeFrom 100#12 [0x41#8, 0x42#8, 0x43#8, 0x44#8] (writeFrom 200#12 [0x41#8, 0x42#8, 0x43#8, 0x45#8]
    (writeFrom 300#12 [0x41#8, 0x42#8, 0x43#8, 0x46#8] (writeFrom 400#12 [0x41#8, 0x42#8, 0x43#8, 0x44#8] rbFill)))

/-- VT11: the first node of equal length stays the best (41_match_tree.md R189). -/
theorem test_insert_tie_break :
    (insertAll vtRing 4 [100#12, 200#12, 300#12] emptyTree).map (fun x =>
      (x.2.len, x.2.pos, x.1.rightOf 100#12, x.1.rightOf 200#12, x.1.parentOf 300#12)) =
      some (3#5, 100#12, some 200#12, some 300#12, Link.right 200#12) := by decide

/-- VT12: an exact match takes the node's place. -/
theorem test_insert_exact :
    (insertAll vtRing 4 [100#12, 200#12, 300#12, 400#12] emptyTree).map (fun x =>
      (x.2.len, x.2.pos, x.1.rootAt 0x41#8, x.1.rightOf 400#12, x.1.parentOf 200#12, x.1.parentOf 100#12)) =
      some (4#5, 100#12, some 400#12, some 200#12, Link.right 400#12, Link.none) := by decide

/-- VT15: bytes are compared as unsigned values. -/
theorem test_insert_unsigned :
    (insertAll (writeFrom 10#12 [0x41#8, 0x80#8] (writeFrom 20#12 [0x41#8, 0x7F#8] rbFill)) 2 [10#12, 20#12] emptyTree).map
      (fun x => (x.1.leftOf 10#12, x.1.rightOf 10#12)) = some (some 20#12, none) := by decide

/-- The tree of the example of 41_match_tree.md R196, built there by INSERT: `10(20(40, 50(60, .)), 30(., 70))`. -/
def exampleTree : Tree where
  root := [(0x4B, some 10#12)]
  left := [(10, some 20#12), (20, some 40#12), (50, some 60#12)]
  right := [(10, some 30#12), (20, some 50#12), (30, some 70#12)]
  parent := [(10, .root 0x4B#8), (20, .left 10#12), (30, .right 10#12), (40, .left 20#12), (50, .right 20#12),
    (60, .left 50#12), (70, .right 30#12)]

/-- The ring of the example of R196. -/
def exampleRing : Ring :=
  writeFrom 10#12 [0x4B#8, 0x4D#8] (writeFrom 20#12 [0x4B#8, 0x46#8] (writeFrom 30#12 [0x4B#8, 0x54#8]
    (writeFrom 40#12 [0x4B#8, 0x43#8] (writeFrom 50#12 [0x4B#8, 0x48#8] (writeFrom 60#12 [0x4B#8, 0x47#8]
      (writeFrom 70#12 [0x4B#8, 0x5A#8] (writeFrom 80#12 [0x4B#8, 0x48#8] rbFill)))))))

/-- R196: the insertions build the shape, with `best_len` 2. -/
theorem test_insert_builds_example :
    insertAll exampleRing 2 [10#12, 20#12, 30#12, 40#12, 50#12, 60#12, 70#12] emptyTree =
      some (exampleTree, { len := 2#5, pos := 0#12 }) := by decide

/-- R196: `DELETE(10)`, two children, the predecessor below the left child. -/
theorem test_delete_two_children :
    ((delete 10#12 exampleTree).toOption.map fun t => (t.rootAt 0x4B#8, t.leftOf 50#12, t.rightOf 50#12, t.rightOf 20#12,
      t.parentOf 60#12, t.parentOf 10#12)) =
      some (some 50#12, some 20#12, some 30#12, some 60#12, Link.right 20#12, Link.none) := by decide

/-- R196: `DELETE(20)`, two children, the predecessor the left child. -/
theorem test_delete_predecessor_is_left_child :
    ((delete 20#12 exampleTree).toOption.map fun t => (t.leftOf 10#12, t.leftOf 40#12, t.rightOf 40#12, t.parentOf 40#12,
      t.parentOf 50#12)) = some (some 40#12, none, some 50#12, Link.left 10#12, Link.right 40#12) := by decide

/-- R196: `DELETE(70)`, a leaf, and `DELETE(30)`, a right child only. -/
theorem test_delete_leaf_and_right_child_only :
    ((delete 70#12 exampleTree).toOption.map fun t => t.rightOf 30#12) = some none ∧
    ((delete 30#12 exampleTree).toOption.map fun t => (t.rightOf 10#12, t.parentOf 70#12)) =
      some (some 70#12, Link.right 10#12) := by decide

/-- R196: `DELETE(50)`, a left child only, and `DELETE(5)`, no member. -/
theorem test_delete_left_child_only_and_non_member :
    ((delete 50#12 exampleTree).toOption.map fun t => (t.rightOf 20#12, t.parentOf 60#12)) =
      some (some 60#12, Link.right 20#12) ∧
    (delete 5#12 exampleTree).toOption = some exampleTree := by decide

/-- R196: `INSERT(80, 2)` replaces 50. -/
theorem test_insert_replaces_inner_node :
    (insertAll exampleRing 2 [80#12] (exampleTree, State.reset.finder)).map (fun x =>
      (x.2.len, x.1.rightOf 20#12, x.1.leftOf 80#12, x.1.parentOf 80#12, x.1.parentOf 60#12, x.1.parentOf 50#12)) =
      some (2#5, some 80#12, some 60#12, Link.right 20#12, Link.left 80#12, Link.none) := by decide

/-! ### The instructions -/

/-- VD6: `01` sets the control byte. -/
theorem test_ctrl :
    (nextOf (exec (.ctrl 0x01#8) (decoding .decCtrl 4080#12 0#8 8#4 0#12 0#5))).map (fun t => (t.dec.ctrl, t.dec.bit, t.phase))
      = some (0x01#8, 0#4, Phase.decToken) := rfl

/-- VD6: the literal `41` is output and stored at 4080. -/
theorem test_lit :
    (nextOf (exec (.lit 0x41#8) (withSink [.ok] (decoding .decToken 4080#12 1#8 0#4 0#12 0#5)))).map
      (fun t => (t.ports.outStream, t.ring, t.dec.cur, t.dec.bit, t.host.outCount)) =
      some ([0x41#8], [(4080, 0x41#8)], 4081#12, 1#4, 1#32) := by decide

/-- VX1, for a literal: the sink refuses, OUT_IO, nothing stored. -/
theorem test_lit_refused_by_sink :
    (nextOf (exec (.lit 0x41#8) (withSink [.err] (decoding .decToken 4080#12 1#8 0#4 0#12 0#5)))).map
      (fun t => (t.host.statusWord, t.ring, t.phase)) = some (0x27#32, [], Phase.halted) := by decide

/-- VD10: MATCH 4080, 18 sets the source and the count. -/
theorem test_match :
    (nextOf (exec (.matchTok 4080#12 18#5) (decoding .decToken 4081#12 1#8 1#4 0#12 0#5))).map
      (fun t => (t.dec.pos, t.dec.rem, t.phase)) = some (4080#12, 18#5, Phase.decCopy) := rfl

/-- VD18: the source is the cursor: the byte is read before the slot is written. -/
theorem test_copy_reads_before_it_writes :
    (nextOf (engineStep (withSink [.ok] (decoding .decCopy 4082#12 3#8 2#4 4082#12 3#5)))).map
      (fun t => (t.ports.outStream, t.dec.cur, t.dec.pos, t.dec.rem, t.phase)) =
      some ([0x20#8], 4083#12, 4083#12, 2#5, Phase.decCopy) := by decide

/-- P2: the source wraps from 4095 to 0, and the last byte of the copy ends the token. -/
theorem test_copy_wraps_and_ends :
    (nextOf (engineStep (withSink [.ok] { decoding .decCopy 4#12 3#8 3#4 4095#12 1#5 with ring := [(4095, 0x59#8)] }))).map
      (fun t => (t.ring, t.dec.pos, t.dec.bit, t.phase)) =
      some ([(4, 0x59#8), (4095, 0x59#8), (4100, 0x59#8)], 0#12, 4#4, Phase.decToken) := by decide

/-- VH5: NOP and a reserved OP have no effect. -/
theorem test_cmd_nop_and_reserved :
    nextOf (exec (.cmdNop 7#28) (running .encode .encStep)) = some (running .encode .encStep) ∧
    nextOf (exec (.cmdReserved 9#4 0#28) State.reset) = some State.reset := ⟨rfl, rfl⟩

/-- VH2, VH9: START_ENCODE from DONE with IE set: BUSY, the line drops, IE stays. -/
theorem test_cmd_start_encode :
    (nextOf (exec (.cmdStartEncode 0#28) { State.reset with host := { State.reset.host with state := .done, ie := true } })).map
      (fun t => (t.host.statusWord, t.host.ie, t.host.irq, t.phase)) = some (0x01#32, true, false, Phase.encPreload) := by
  decide

/-- VH3: START_DECODE: STATUS is 0x05, the cursor at 4080. -/
theorem test_cmd_start_decode :
    (nextOf (exec (.cmdStartDecode 0#28) State.reset)).map (fun t => (t.host.statusWord, t.dec.cur, t.dec.bit, t.phase)) =
      some (0x05#32, 4080#12, 8#4, Phase.decCtrl) := by decide

/-- VH4: a START while BUSY has no effect. -/
theorem test_cmd_start_while_busy :
    nextOf (exec (.cmdStartDecode 0#28) (running .encode .encStep)) = some (running .encode .encStep) := rfl

/-! ### Ports, errors and the end of a run -/

/-- VD5: END after the first byte of a match token ends the run, STATUS 0x06. -/
theorem test_end_inside_a_token :
    (nextOf (engineStep (withInput [.eos] { decoding .decToken 4080#12 0#8 0#4 0#12 0#5 with latch := [0xF0#8] }))).map
      (fun t => (t.host.statusWord, t.phase, t.latch)) = some (0x06#32, Phase.halted, []) := by decide

/-- VX6: ERR at the first read of an encode run, STATUS 0x13. -/
theorem test_error_at_the_first_read :
    (nextOf (engineStep (withInput [.err] { running .encode .encPreload with enc := { State.reset.enc with p := 4080#12 } }))).map
      (fun t => (t.host.statusWord, t.host.inCount, t.phase)) = some (0x13#32, 0#32, Phase.halted) := by decide

/-- A port that has not answered holds the engine (20_memory.md R88). -/
theorem test_unanswered_port_holds :
    nextOf (step (decoding .decCtrl 4080#12 0#8 8#4 0#12 0#5)) = some (decoding .decCtrl 4080#12 0#8 8#4 0#12 0#5) := by
  decide

/-! ### The encoder: the steps of "AAAA" (42_encoder.md R226, its table; VE5) -/

/-- The encode run of "AAAA" before its step 0. -/
def aaaa : State :=
  { running .encode .encStep with
    ring := writeFrom 4080#12 [0x41#8, 0x41#8, 0x41#8, 0x41#8] rbFill
    enc := { la := 4#5, eos := true, p := 4080#12, run := 4#5, skip := 0#4 } }

/-- The same run before its step 1. -/
def aaaaOne : State :=
  { aaaa with
    tree := { State.reset.tree with root := [(0x41, some 4080#12)], parent := [(4080, .root 0x41#8)] }
    enc := { aaaa.enc with p := 4081#12, run := 3#5 }
    finder := { len := 2#5, pos := 0#12 }
    pk := { ctrl := 1#8, bit := 1#4, buf := (Vector.replicate 16 0#8).set 0 0x41#8, len := 1#5 } }

/-- Step 0: LIT 'A', and 4080 is the root of tree 0x41. -/
theorem test_encode_step_literal :
    (nextOf (engineStep aaaa)).map (fun t => (t.tree, t.enc, t.pk)) = some (aaaaOne.tree, aaaaOne.enc, aaaaOne.pk) := by
  decide

/-- Step 1: MATCH 4080, 3, and `enc_skip` is 2; 4081 has replaced 4080. -/
theorem test_encode_step_match :
    (nextOf (engineStep aaaaOne)).map (fun t => (t.finder.len, t.finder.pos, t.enc.skip, t.pk.buf.toList.take 3)) =
      some (3#5, 4080#12, 2#4, [0x41#8, 0xF0#8, 0xF0#8]) ∧
    (nextOf (engineStep aaaaOne)).map (fun t => (t.tree.rootAt 0x41#8, t.tree.parentOf 4080#12)) =
      some (some 4081#12, Link.none) := by
  decide

/-- The preload of the first byte of an encode run goes to position 4080 (42_encoder.md R224). -/
theorem test_preload_first_byte :
    (nextOf (engineStep (withInput [.data 0x41#8] { running .encode .encPreload with enc := { State.reset.enc with p := 4080#12 } }))).map
      (fun t => (t.ring, t.enc.la, t.host.inCount)) = some ([(4080, 0x41#8)], 1#5, 1#32) := by decide

/-- ENC_FINAL with nothing to flush ends the run (VE1). -/
theorem test_final_of_an_empty_run :
    (nextOf (engineStep (running .encode .encFinal))).map (fun t => (t.host.statusWord, t.ports.outStream)) =
      some (0x02#32, []) := by decide

/-! ### The register block -/

/-- VH1: STATUS reads 0 after reset, and so does a reserved offset. -/
theorem test_read_status_after_reset :
    (nextOf (step { State.reset with env := [hostTurn .read 0x04] })).map (fun t => t.hostData) = some 0#32 ∧
    (nextOf (step { State.reset with env := [hostTurn .read 0x14] })).map (fun t => t.hostData) = some 0#32 := by decide

/-- VH7: writing IRQ_EN while DONE asserts the line at once. -/
theorem test_irq_asserts_at_once :
    (nextOf (step { State.reset with
      host := { State.reset.host with state := .done }, env := [hostTurn (.write 1#32) 0x08] })).map (fun t => t.host.irq) =
      some true := by decide

/-- VH11: writing STATUS has no effect. -/
theorem test_write_status :
    nextOf (step { State.reset with env := [hostTurn (.write 0xFF#32) 0x04] }) = some State.reset := by decide

/-- 10_state.md R41: an access that is not aligned, and one outside the block. -/
theorem test_refused_accesses :
    refusalOf (step { State.reset with env := [hostTurn .read 0x06] }) = some .unaligned ∧
    refusalOf (step { State.reset with env := [hostTurn .read 0x100] }) = some .outsideRegisterBlock := by decide

/-! ### Witnesses: a concrete state that meets the hypotheses of each statement -/

/-- Eight tokens, the last a literal. -/
def eightTokens : List Instr := List.replicate 7 (.matchTok 4095#12 18#5) ++ [.lit 0x41#8]

/-- An empty packer. -/
def emptyPacker : Packer := State.reset.pk

theorem witness_DecodeOfEncodeIsTheInstruction :
    (Instr.matchTok 4095#12 18#5).wf = true ∧ (Instr.lit 0xFF#8).wf = true ∧ (Instr.cmdReserved 3#4 0#28).wf = true := by decide

theorem witness_EncodeOfDecodeIsTheBytes :
    decode .matchSlot [0xFF#8, 0xFF#8, 0x01#8] = .ok (.matchTok 4095#12 18#5, [0x01#8]) ∧
    decode .command [0x03#8, 0#8, 0#8, 0#8] = .ok (.cmdReserved 3#4 0#28, []) := ⟨rfl, rfl⟩

theorem eightTokens_allTokens : AllTokens eightTokens := by
  unfold AllTokens eightTokens
  decide

/-- For BlockSizeIsOnePlusItsTokens and ControlBitsAreTheTokenKinds: a full block, and the last control bit. -/
theorem witness_BlockSizeIsOnePlusItsTokens :
    AllTokens eightTokens ∧ eightTokens.length ≤ 8 ∧ AllTokens [] := ⟨eightTokens_allTokens, by decide, by simp [AllTokens]⟩

theorem witness_ControlBitsAreTheTokenKinds :
    AllTokens eightTokens ∧ eightTokens.length ≤ 8 ∧ eightTokens[7]? = some (.lit 0x41#8) :=
  ⟨eightTokens_allTokens, by decide, rfl⟩

theorem witness_PackerAssemblesTheEncodedBlock :
    AllTokens eightTokens ∧ eightTokens.length ≤ 8 ∧ emptyPacker.ctrl = 0#8 ∧ emptyPacker.bit = 0#4 ∧
      emptyPacker.len = 0#5 ∧ 15 < (encodeBlock eightTokens).length := ⟨eightTokens_allTokens, by decide⟩

/-- The last pair of bytes the packer can take. -/
theorem witness_EmitWritesTheTokenBytes : { emptyPacker with len := 14#5 : Packer }.len.toNat < 15 := by decide

/-- An encode run at the flush of a block of `len` token bytes, the sink ready to take it. -/
def flushing (phase : Phase) (len : BitVec 5) : State :=
  withSink (List.replicate (len.toNat + 1) .ok)
    { running .encode phase with pk := { emptyPacker with bit := 8#4, len := len }, flush := some 0#5 }

/-- A full block in ENC_STEP, at a token's step, and an empty one in ENC_FINAL. -/
theorem witness_FlushWritesTheWholeBlock :
    ((flushing .encStep 16#5).env = [] ∧ (flushing .encStep 16#5).enc.skip = 0#4 ∧ (flushing .encStep 16#5).flush = some 0#5 ∧
      (flushing .encStep 16#5).pk.len.toNat ≤ 16 ∧
      (flushing .encStep 16#5).ports.sink = List.replicate ((flushing .encStep 16#5).pk.len.toNat + 1) .ok ++ []) ∧
    (flushing .encFinal 0#5).ports.sink = List.replicate ((flushing .encFinal 0#5).pk.len.toNat + 1) .ok ++ [] :=
  ⟨⟨rfl, rfl, rfl, by decide, by decide⟩, by decide⟩

/-- A decode run at a literal, the cursor at the first mirrored slot. -/
def atLiteral : State := decoding .decToken 0#12 1#8 0#4 0#12 0#5

theorem witness_LitOutputsAndStoresItsByte :
    Memory.wf atLiteral.ring = true ∧ (withSink [.ok] atLiteral).ports.sink = .ok :: [] ∧
    (withSink [.err] atLiteral).ports.sink = .err :: [] ∧ atLiteral.ports.sink = [] := ⟨rfl, rfl, rfl, rfl⟩

/-- Each kind of token, with a next state. -/
theorem witness_TokenInstructionsFrame :
    (Instr.ctrl 1#8).place ≠ .command ∧ (∃ t, exec (.ctrl 1#8) State.reset = .next t) ∧
    (Instr.lit 0x41#8).place ≠ .command ∧ (∃ t, exec (.lit 0x41#8) (withSink [.ok] atLiteral) = .next t) ∧
    (Instr.matchTok 0#12 3#5).place ≠ .command ∧ (∃ t, exec (.matchTok 0#12 3#5) atLiteral = .next t) ∧
    Memory.wf atLiteral.ring = true :=
  ⟨by decide, ⟨_, rfl⟩, by decide, ⟨_, rfl⟩, by decide, ⟨_, rfl⟩, rfl⟩

theorem witness_StartEncodeBeginsAFreshRun : State.reset.host.state ≠ .busy := by decide

theorem witness_StartDecodeBeginsAFreshRun :
    { State.reset with host := { State.reset.host with state := .error, err := .inIo } : State }.host.state ≠ .busy := by decide

theorem witness_StartWhileBusyHasNoEffect : (running .encode .encStep).host.state = .busy := rfl

theorem witness_CommandsFrame :
    (Instr.cmdStartEncode 0#28).place = .command ∧ (∃ t, exec (.cmdStartEncode 0#28) State.reset = .next t) ∧
    (∃ t, exec (.cmdStartDecode 0#28) State.reset = .next t) ∧
    (∃ t, exec (.cmdStartEncode 0#28) (running .decode .decCtrl) = .next t) ∧
    (running .decode .decCtrl).host.state = .busy ∧
    (∃ t, exec (.cmdNop 0#28) State.reset = .next t) ∧ (∃ t, exec (.cmdReserved 3#4 0#28) State.reset = .next t) :=
  ⟨rfl, ⟨_, rfl⟩, ⟨_, rfl⟩, ⟨_, rfl⟩, rfl, ⟨_, rfl⟩, ⟨_, rfl⟩⟩

theorem atToken_literal : AtToken atLiteral := ⟨rfl, .inr ⟨rfl, by decide⟩⟩

/-- A token in the latch, with the turn the engine's by default and by the list, at `dec_bit` 7; and a host write of CMD. -/
theorem witness_StepRunsTheDecodedInstruction :
    (∀ e, AtToken { decoding .decToken 0#12 0#8 7#4 0#12 0#5 with latch := [0xFF#8, 0xFF#8], env := e }) ∧
    decode (streamPlace { decoding .decToken 0#12 0#8 7#4 0#12 0#5 with latch := [0xFF#8, 0xFF#8] }) [0xFF#8, 0xFF#8] =
      .ok (.matchTok 4095#12 18#5, []) ∧
    { State.reset with env := [.host { op := .write 0x11#32, off := 0, size := 4 }] : State }.env =
      .host { op := .write 0x11#32, off := 0, size := 4 } :: [] ∧
    decode .command (wordBytes 0x11#32) = .ok (.cmdStartEncode 1#28, []) :=
  ⟨fun _ => ⟨rfl, .inr ⟨rfl, show (7#4).toNat < 8 by decide⟩⟩, rfl, rfl, rfl⟩

/-- The first byte of each kind of token and the second of a match, with each answer of the source. -/
theorem witness_TokenBytesAreReadOneItemAtATime :
    (AtToken (decoding .decCtrl 4080#12 0#8 8#4 0#12 0#5) ∧ (decoding .decCtrl 4080#12 0#8 8#4 0#12 0#5).latch.length < 1) ∧
    (AtToken atLiteral ∧ atLiteral.latch.length < (streamPlace atLiteral).size) ∧
    (∀ xs, AtToken { withInput xs (decoding .decToken 0#12 0#8 0#4 0#12 0#5) with latch := [0xF0#8] } ∧
      { withInput xs (decoding .decToken 0#12 0#8 0#4 0#12 0#5) with latch := [0xF0#8] }.latch.length <
        (streamPlace { withInput xs (decoding .decToken 0#12 0#8 0#4 0#12 0#5) with latch := [0xF0#8] }).size) ∧
    (withInput [.data 1#8] atLiteral).ports.inStream = .data 1#8 :: [] ∧
    (withInput [.eos] atLiteral).ports.inStream = .eos :: [] ∧ (withInput [.err] atLiteral).ports.inStream = .err :: [] :=
  ⟨⟨⟨rfl, .inl rfl⟩, by decide⟩, ⟨atToken_literal, by decide⟩, fun _ => ⟨⟨rfl, .inr ⟨rfl, show (0#4).toNat < 8 by decide⟩⟩,
    by simp [streamPlace, decoding, withInput, running, controlBit, Place.size]⟩, rfl, rfl, rfl⟩

/-- A copy with `rem` bytes left, at distance 2, the sink ready to take them. -/
def copying (rem : BitVec 5) : State :=
  withSink (List.replicate rem.toNat .ok)
    { decoding .decCopy 4082#12 3#8 2#4 4080#12 rem with ring := [(4080, 0x41#8), (4081, 0x42#8)] }

/-- The last byte of a copy and one before it, with both answers of the sink. -/
theorem witness_CopyMovesOneByte :
    ((copying 1#5).flush = none ∧ (copying 1#5).phase = .decCopy ∧ (copying 1#5).dec.rem ≠ 0#5 ∧
      Memory.wf (copying 1#5).ring = true ∧ (copying 1#5).ports.sink = .ok :: []) ∧
    ((copying 2#5).dec.rem ≠ 0#5 ∧ (copying 2#5).dec.rem ≠ 1#5 ∧ (copying 2#5).ports.sink = .ok :: [.ok]) ∧
    (withSink [.err] (copying 2#5)).ports.sink = .err :: [] := by decide

/-- VD11: eight bytes at distance 2; its bytes from the second on are inside the repeating clause. -/
theorem witness_CopyRepeatsWhatItJustWrote :
    (copying 8#5).env = [] ∧ (copying 8#5).flush = none ∧ (copying 8#5).phase = .decCopy ∧ (copying 8#5).dec.rem ≠ 0#5 ∧
    Memory.wf (copying 8#5).ring = true ∧
    (copying 8#5).ports.sink = List.replicate (copying 8#5).dec.rem.toNat .ok ++ [] ∧
    ((copying 8#5).dec.cur - (copying 8#5).dec.pos).toNat = 2 := by decide

/-- A preload with `la` bytes read. -/
def preloadAt (la : BitVec 5) (xs : List InItem) : State :=
  withInput xs { running .encode .encPreload with enc := { la := la, eos := false, p := 4080#12, run := 0#5, skip := 0#4 } }

/-- The first byte and the sixteenth; END with none and with some read; ERR. -/
theorem witness_PreloadReadsTheFirstBytes :
    (∀ xs, (preloadAt 0#5 xs).flush = none ∧ (preloadAt 0#5 xs).phase = .encPreload ∧
      (preloadAt 0#5 xs).enc.la.toNat < 16 ∧ (preloadAt 0#5 xs).enc.eos = false ∧ (preloadAt 0#5 xs).ports.inStream = xs) ∧
    (∀ xs, (preloadAt 15#5 xs).enc.la.toNat < 16 ∧ (preloadAt 15#5 xs).ports.inStream = xs) :=
  ⟨fun _ => ⟨rfl, rfl, show (0#5).toNat < 16 by decide, rfl, rfl⟩, fun _ => ⟨show (15#5).toNat < 16 by decide, rfl⟩⟩

/-- A step of an encode run with a full lookahead of 'A', after a run of 'A': `bit` tokens in the block, `skip` steps to go. -/
def stepping (eos : Bool) (bit skip : BitVec 4) : State :=
  withInput [.data 0x41#8] { aaaaOne with
    ring := writeFrom 4080#12 (List.replicate 17 0x41#8) rbFill
    enc := { la := 16#5, eos := eos, p := 4081#12, run := 16#5, skip := skip }
    pk := { emptyPacker with bit := bit } }

/-- DELETE and INSERT of a step answer, with a match of 3 or more (`found`) or without. -/
def stepAnswers (found : Bool) (s : State) (m : Ring) : Bool :=
  match delete (s.enc.p + 16#12) s.tree with
  | .error _ => false
  | .ok t1 =>
    match insert m s.enc.p s.enc.run.toNat t1 s.finder with
    | .error _ => false
    | .ok (_, f) => decide (3 ≤ f.len.toNat) == found

theorem stepAnswers_spec {found : Bool} {s : State} {m : Ring} (h : stepAnswers found s m = true) :
    ∃ t1 t2 f, delete (s.enc.p + 16#12) s.tree = .ok t1 ∧ insert m s.enc.p s.enc.run.toNat t1 s.finder = .ok (t2, f) ∧
      (3 ≤ f.len.toNat ↔ found = true) := by
  unfold stepAnswers at h
  split at h
  · simp at h
  · rename_i t1 h1
    split at h
    · simp at h
    · rename_i t2 f h2
      refine ⟨t1, t2, f, h1, h2, ?_⟩
      rw [← beq_iff_eq.1 h, decide_eq_true_iff]

/-- A step with an empty tree: no match is found. -/
def steppingAlone (eos : Bool) (bit skip : BitVec 4) : State := { stepping eos bit skip with tree := State.reset.tree }

/-- The hypotheses that all clauses share, in an open block, at its eighth token and inside a match. -/
theorem witness_EncoderStepDeletesWritesInserts :
    (∀ xs bit skip, (withInput xs (stepping false bit skip)).flush = none ∧
      (withInput xs (stepping false bit skip)).phase = .encStep ∧ (withInput xs (stepping false bit skip)).enc.eos = false ∧
      (withInput xs (stepping false bit skip)).ports.inStream = xs) ∧
    encStepInRange (stepping false 0#4 0#4) = true ∧ encStepInRange (stepping false 7#4 0#4) = true ∧
    encStepInRange (stepping false 0#4 15#4) = true := ⟨fun _ _ _ => ⟨rfl, rfl, rfl, rfl⟩, by decide⟩

/-- DELETE and INSERT answer after a DATA byte, with a match and without. -/
theorem witness_EncoderStepDeletesWritesInserts_data :
    (∃ t1 t2 f, delete 1#12 aaaaOne.tree = .ok t1 ∧
      insert (rbWrite 1#12 0x41#8 (stepping false 0#4 0#4).ring) 4081#12 16 t1 (stepping false 0#4 0#4).finder = .ok (t2, f) ∧
      (3 ≤ f.len.toNat ↔ true = true)) ∧
    (∃ t1 t2 f, delete 1#12 State.reset.tree = .ok t1 ∧
      insert (rbWrite 1#12 0x41#8 (stepping false 0#4 0#4).ring) 4081#12 16 t1 (stepping false 0#4 0#4).finder = .ok (t2, f) ∧
      (3 ≤ f.len.toNat ↔ false = true)) :=
  ⟨stepAnswers_spec (s := stepping false 0#4 0#4) (by decide),
    stepAnswers_spec (s := steppingAlone false 0#4 0#4) (by decide)⟩

/-- DELETE and INSERT answer after END, the ring as it was, with a match and without. -/
theorem witness_EncoderStepDeletesWritesInserts_end :
    (∃ t1 t2 f, delete 1#12 aaaaOne.tree = .ok t1 ∧
      insert (stepping false 0#4 0#4).ring 4081#12 16 t1 (stepping false 0#4 0#4).finder = .ok (t2, f) ∧
      (3 ≤ f.len.toNat ↔ true = true)) ∧
    (∃ t1 t2 f, delete 1#12 State.reset.tree = .ok t1 ∧
      insert (stepping false 0#4 0#4).ring 4081#12 16 t1 (stepping false 0#4 0#4).finder = .ok (t2, f) ∧
      (3 ≤ f.len.toNat ↔ false = true)) :=
  ⟨stepAnswers_spec (s := stepping false 0#4 0#4) (by decide),
    stepAnswers_spec (s := steppingAlone false 0#4 0#4) (by decide)⟩

/-- After END: a token starts, in an open block and at its eighth token, or the step is inside a match; a match and none. -/
theorem witness_EncoderDrainsAfterEnd :
    (∀ bit skip, (stepping true bit skip).flush = none ∧ (stepping true bit skip).phase = .encStep ∧
      (stepping true bit skip).enc.eos = true) ∧
    (encStepInRange (stepping true 0#4 0#4) = true ∧ encStepInRange (stepping true 7#4 0#4) = true ∧
      encStepInRange (stepping true 0#4 15#4) = true) ∧
    (∃ t1 t2 f, delete 1#12 aaaaOne.tree = .ok t1 ∧
      insert (stepping true 0#4 0#4).ring 4081#12 16 t1 (stepping true 0#4 0#4).finder = .ok (t2, f) ∧
      (3 ≤ f.len.toNat ↔ true = true)) ∧
    (∃ t1 t2 f, delete 1#12 State.reset.tree = .ok t1 ∧
      insert (stepping true 0#4 0#4).ring 4081#12 16 t1 (stepping true 0#4 0#4).finder = .ok (t2, f) ∧
      (3 ≤ f.len.toNat ↔ false = true)) :=
  ⟨fun _ _ => ⟨rfl, rfl, rfl⟩, by decide, stepAnswers_spec (s := stepping true 0#4 0#4) (by decide),
    stepAnswers_spec (s := steppingAlone true 0#4 0#4) (by decide)⟩

/-- The last step of a run: one byte of lookahead left. -/
def lastStep : State := { stepping true 0#4 0#4 with enc := { (stepping true 0#4 0#4).enc with run := 1#5 } }

theorem witness_EncoderDrainsAfterEnd_last :
    lastStep.flush = none ∧ lastStep.phase = .encStep ∧ encStepInRange lastStep = true ∧ lastStep.enc.eos = true ∧
    lastStep.enc.run = 1#5 ∧
    ∃ t1 t2 f, delete 1#12 aaaaOne.tree = .ok t1 ∧
      insert lastStep.ring 4081#12 1 t1 lastStep.finder = .ok (t2, f) ∧ (3 ≤ f.len.toNat ↔ false = true) :=
  ⟨rfl, rfl, by decide, rfl, rfl, stepAnswers_spec (s := lastStep) (by decide)⟩

/-- Nothing to flush, a partial block, and the last byte of its flush. -/
theorem witness_FinalFlushesAPartialBlockOnly :
    (running .encode .encFinal).phase = .encFinal ∧ (running .encode .encFinal).flush = none ∧
    (running .encode .encFinal).pk.bit = 0#4 ∧
    { running .encode .encFinal with pk := { emptyPacker with bit := 1#4, len := 1#5 } : State }.pk.bit ≠ 0#4 ∧
    { flushing .encFinal 1#5 with flush := some 1#5 : State }.flush = some (flushing .encFinal 1#5).pk.len ∧
    (flushing .encFinal 1#5).pk.len.toNat ≤ 16 ∧ (flushing .encFinal 1#5).ports.sink = .ok :: [.ok] := by decide

/-! #### Trees -/

/-- A tree of one node: 4080, the root of tree 0x41. -/
def oneTree : Tree := aaaaOne.tree

theorem oneTree_parent (q : Pos) : oneTree.parentOf q = if q = 4080#12 then Link.root 0x41#8 else Link.none := by
  unfold Tree.parentOf
  show (if 4080 = q.toNat then Link.root 0x41#8 else Link.none) = _
  have : 4080 = q.toNat ↔ q = 4080#12 := by bv_omega
  simp only [this]

/-- An index that does not read as the default is listed. -/
theorem get_listed {β : Type} (d : β) (k : Nat) (m : List (Nat × β)) (h : Store.get d k m ≠ d) :
    (k, Store.get d k m) ∈ m := by
  induction m with
  | nil => exact absurd rfl h
  | cons e m ih =>
    obtain ⟨a, b⟩ := e
    by_cases hk : a = k
    · subst hk
      simp
    · rw [Store.get_cons_ne d b m hk] at h ⊢
      exact List.mem_cons_of_mem _ (ih h)

/-- A listed parent field of a sound tree: its reference is a live cell that points back, and ranks rise below it. -/
def upOk (t : Tree) (rank : Pos → Nat) (q : Pos) : Link → Bool
  | .none => true
  | .root c => t.rootAt c == some q
  | .left r => t.parentOf r != .none && t.leftOf r == some q && decide (rank r < rank q)
  | .right r => t.parentOf r != .none && t.rightOf r == some q && decide (rank r < rank q)

/-- A listed cell of a sound tree: it is not live, or the position it points at refers to it. -/
def downOk (t : Tree) (l : Link) (dead : Bool) : Child → Bool
  | none => true
  | some q => dead || t.parentOf q == l

/-- Every listed entry of a tree is as soundness asks. -/
def soundCheck (t : Tree) (rank : Pos → Nat) : Bool :=
  t.parent.all (fun e => upOk t rank (BitVec.ofNat 12 e.1) e.2) &&
  t.root.all (fun e => downOk t (.root (BitVec.ofNat 8 e.1)) false e.2) &&
  t.left.all (fun e => downOk t (.left (BitVec.ofNat 12 e.1)) (t.parentOf (BitVec.ofNat 12 e.1) == .none) e.2) &&
  t.right.all (fun e => downOk t (.right (BitVec.ofNat 12 e.1)) (t.parentOf (BitVec.ofNat 12 e.1) == .none) e.2)

theorem sound_of_check {t : Tree} (rank : Pos → Nat) (h : soundCheck t rank = true) : t.Sound := by
  simp only [soundCheck, Bool.and_eq_true, List.all_eq_true] at h
  obtain ⟨⟨⟨hp, hr⟩, hl⟩, hR⟩ := h
  have up : ∀ q, t.parentOf q ≠ .none → upOk t rank q (t.parentOf q) = true := by
    intro q h
    simpa [Tree.parentOf] using hp _ (get_listed _ _ _ h)
  refine ⟨fun q h => ?_, fun l q hlive h => ?_, rank, fun q r h => ?_⟩
  · have hu := up q h
    cases e : t.parentOf q with
    | none => exact absurd e h
    | root c => exact ⟨trivial, by simpa [upOk, e, Tree.linkGet] using hu⟩
    | left r =>
      have hu : (t.parentOf r ≠ .none ∧ t.leftOf r = some q) ∧ rank r < rank q := by simpa [upOk, e] using hu
      exact hu.1
    | right r =>
      have hu : (t.parentOf r ≠ .none ∧ t.rightOf r = some q) ∧ rank r < rank q := by simpa [upOk, e] using hu
      exact hu.1
  · have listed : ∀ k m, Store.get none k m = some q → (k, some q) ∈ m := by
      intro k m e
      have := get_listed none k m (by simp [e])
      rwa [e] at this
    cases l with
    | none => exact hlive.elim
    | root c => simpa [downOk] using hr _ (listed _ _ h)
    | left r => simpa [downOk, (show t.parentOf r ≠ .none from hlive)] using hl _ (listed _ _ h)
    | right r => simpa [downOk, (show t.parentOf r ≠ .none from hlive)] using hR _ (listed _ _ h)
  · rcases h with h | h
    · have hu := up q (by simp [h])
      rw [h] at hu
      simp only [upOk, Bool.and_eq_true, decide_eq_true_iff] at hu
      exact hu.2
    · have hu := up q (by simp [h])
      rw [h] at hu
      simp only [upOk, Bool.and_eq_true, decide_eq_true_iff] at hu
      exact hu.2

theorem oneTree_sound : oneTree.Sound := sound_of_check (fun _ => 0) (by decide)

/-- The depth of a node of the example of R196. -/
def depth (q : Pos) : Nat :=
  if q = 10#12 then 0 else if q = 20#12 ∨ q = 30#12 then 1 else if q = 60#12 then 3 else 2

theorem exampleTree_sound : exampleTree.Sound := sound_of_check depth (by decide)

theorem exampleTree_wf : exampleTree.wf = true := by decide

/-- An insertion that finds a match of 3. -/
theorem witness_InsertReturnsATrueMatch :
    ∃ t f t1 f1, insert vtRing 200#12 4 t f = .ok (t1, f1) ∧ 4 ≤ 16 ∧ f1.len = 3#5 := by
  refine ⟨{ State.reset.tree with root := [(0x41, some 100#12)], parent := [(100, .root 0x41#8)] }, State.reset.finder, ?_⟩
  have h : ∀ r : Except Fault (Tree × Finder), r.toOption.map (fun x => x.2.len) = some 3#5 →
      ∃ t1 f1, r = .ok (t1, f1) ∧ 4 ≤ 16 ∧ f1.len = 3#5 := by
    intro r hr
    cases r with
    | error e => simp [Except.toOption] at hr
    | ok x => exact ⟨x.1, x.2, rfl, by decide, by simpa [Except.toOption] using hr⟩
  exact h _ (by decide)

/-- Every tree empty but that of another byte. -/
theorem witness_InsertIntoAnEmptyTreeMakesARoot :
    oneTree.wf = true ∧ oneTree.parentOf 100#12 = .none ∧ oneTree.rootAt (rbRead 100#12 exampleRing) = none := by
  decide

/-- A ring with the same three bytes at 10 and at 80. -/
def pairRing : Ring :=
  writeFrom 10#12 [0x4B#8, 0x41#8, 0x42#8] (writeFrom 80#12 [0x4B#8, 0x41#8, 0x42#8] rbFill)

/-- The root of the example, with two children, meets a position with the same three bytes. -/
theorem witness_ExactMatchReplacesTheRoot :
    exampleTree.wf = true ∧ exampleTree.Sound ∧ exampleTree.parentOf 80#12 = .none ∧
    exampleTree.rootAt (rbRead 80#12 pairRing) = some 10#12 ∧ cpl pairRing 10 80 3 = 3 ∧ 3 ≤ 3 ∧ 3 ≤ 16 :=
  ⟨exampleTree_wf, exampleTree_sound, by decide, by decide, by decide, by decide, by decide⟩

theorem witness_DeleteOfANonMemberChangesNothing : exampleTree.parentOf 5#12 = .none := by decide

/-- The example, a member of it and a non-member. -/
theorem witness_DeleteTakesOutExactlyOnePosition :
    exampleTree.wf = true ∧ exampleTree.Sound ∧ exampleTree.parentOf 10#12 ≠ .none ∧
    exampleTree.parentOf 5#12 = .none :=
  ⟨exampleTree_wf, exampleTree_sound, by decide, by decide⟩

theorem witness_InsertPutsInExactlyOnePosition :
    exampleTree.wf = true ∧ exampleTree.Sound ∧ exampleTree.parentOf 80#12 = .none :=
  ⟨exampleTree_wf, exampleTree_sound, by decide⟩

/-! #### Steps -/

/-- A step of each shape answers: waiting, an item, END, ERR, a byte out, a byte refused. -/
theorem witness_AStepHasAtMostOnePortEvent :
    (∃ t, engineStep atLiteral = .next t) ∧ (∃ t, engineStep (withInput [.data 1#8] atLiteral) = .next t) ∧
    (∃ t, engineStep (withInput [.eos] atLiteral) = .next t) ∧ (∃ t, engineStep (withSink [.err] (copying 2#5)) = .next t) ∧
    (∃ t, engineStep (copying 2#5) = .next t) := ⟨⟨_, rfl⟩, ⟨_, rfl⟩, ⟨_, rfl⟩, ⟨_, rfl⟩, ⟨_, rfl⟩⟩

/-- Each port answers ERR in a run. -/
theorem witness_AnErrAnswerEntersTheError :
    (∃ t, engineStep (withInput [.err] atLiteral) = .next t ∧ (withInput [.err] atLiteral).ports.inStream = .err :: [] ∧
      t.ports.inStream = [] ∧ t.host.state = .error ∧ atLiteral.host.state ≠ .error) ∧
    (∃ t, engineStep (withSink [.err] (copying 2#5)) = .next t ∧
      (withSink [.err] (copying 2#5)).ports.sink = .err :: [] ∧ t.ports.sink = [] ∧ t.host.state = .error) :=
  ⟨⟨_, rfl, rfl, rfl, rfl, by decide⟩, ⟨_, rfl, rfl, rfl, rfl⟩⟩

/-- Each place where the engine waits. -/
theorem witness_AnUnansweredPortHoldsTheEngine :
    WaitsForInput (preloadAt 15#5 []) ∧ WaitsForInput (withInput [] (stepping false 0#4 0#4)) ∧ WaitsForInput atLiteral ∧
    WaitsForOutput (withSink [] (flushing .encStep 16#5)) ∧ WaitsForOutput { atLiteral with latch := [0x41#8] } ∧
    WaitsForOutput (withSink [] (copying 1#5)) :=
  ⟨⟨rfl, rfl, .inl ⟨rfl, by decide, rfl⟩⟩, ⟨rfl, rfl, .inr (.inl ⟨rfl, by decide, rfl⟩)⟩,
    ⟨rfl, rfl, .inr (.inr ⟨atToken_literal, by decide⟩)⟩, ⟨rfl, .inl ⟨0#5, rfl, by decide, by decide⟩⟩,
    ⟨rfl, .inr (.inl ⟨⟨rfl, .inr ⟨rfl, by decide⟩⟩, rfl, by simp⟩)⟩, ⟨rfl, .inr (.inr ⟨rfl, rfl, by decide⟩)⟩⟩

theorem statusInv_reset : StatusInv State.reset :=
  ⟨by decide, by decide, by decide, by decide, by decide, by decide, by decide⟩

theorem witness_NoRunMeansNoChange : StatusInv State.reset ∧ State.reset.host.state ≠ .busy := ⟨statusInv_reset, by decide⟩

theorem witness_EachRunLeavesTheOthersRegistersAlone :
    (∃ t, engineStep (copying 2#5) = .next t ∧ (copying 2#5).phase.decoding = true ∧ (copying 2#5).flush = none) ∧
    (∃ t, engineStep aaaa = .next t ∧ aaaa.phase.encoding = true) := by
  refine ⟨⟨_, rfl, rfl, rfl⟩, ?_⟩
  obtain ⟨t, h⟩ := nextOf_isSome (o := engineStep aaaa) (by decide)
  exact ⟨t, h, rfl⟩

/-- A write of IRQ_EN that changes IE. -/
theorem witness_InterruptEnableChangesOnlyByHostOrReset :
    ∃ t, step { State.reset with env := [.host { op := .write 1#32, off := 8, size := 4 }] } = .next t ∧ t.host.ie = true :=
  ⟨_, rfl, rfl⟩

/-- A START from reset, the end of a run, and a reset event. -/
theorem witness_RunStateIsWrittenOnlyByItsCauses :
    (∃ t, step { State.reset with env := [.host { op := .write 1#32, off := 0, size := 4 }] } = .next t ∧
      t.host.state = .busy) ∧
    (∃ t, step (withInput [.eos] atLiteral) = .next t ∧ t.host.state = .done) := ⟨⟨_, rfl, rfl⟩, ⟨_, rfl, rfl⟩⟩

/-- The first offset and the last. -/
theorem witness_RegisterReadsReturnTheRegisters :
    (0 < 64 ∧ { State.reset with env := [.host { op := .read, off := ((4 * 0 : Nat) : Int), size := 4 }] : State }.env =
      [.host { op := .read, off := ((4 * 0 : Nat) : Int), size := 4 }]) ∧
    (63 < 64 ∧ { State.reset with env := [.host { op := .read, off := ((4 * 63 : Nat) : Int), size := 4 }] : State }.env =
      [.host { op := .read, off := ((4 * 63 : Nat) : Int), size := 4 }]) := by decide

theorem witness_RegisterWritesHaveTheirEffect :
    (2 < 64 ∧ { State.reset with env := [.host { op := .write 1#32, off := ((4 * 2 : Nat) : Int), size := 4 }] : State }.env =
      [.host { op := .write 1#32, off := ((4 * 2 : Nat) : Int), size := 4 }]) ∧
    (63 < 64 ∧ { State.reset with env := [.host { op := .write 1#32, off := ((4 * 63 : Nat) : Int), size := 4 }] : State }.env =
      [.host { op := .write 1#32, off := ((4 * 63 : Nat) : Int), size := 4 }]) := by decide

/-- An access below the block, just above it, of one byte, and not aligned. -/
theorem witness_UndefinedHostAccessesAreRefused :
    (-4 : Int) < 0 ∧ (0xFF : Int) < 0x100 ∧ (1 : Nat) ≠ 4 ∧ (0xFE : Int) % 4 ≠ 0 ∧
    { State.reset with env := [.host { op := .read, off := 0x100, size := 4 }] : State }.env =
      [.host { op := .read, off := 0x100, size := 4 }] := by decide

theorem witness_ReservedStatusBitsReadZero : (8 ≤ 31 ∧ 31 < 32) ∧ (8 ≤ 8 ∧ 8 < 32) := by decide

/-- A START from DONE with IE set, and a read of STATUS there. -/
theorem witness_InterruptLineFollowsTheRunState :
    { State.reset with host := { State.reset.host with state := .done, ie := true } : State }.host.state ≠ .busy ∧
    (∃ t, exec (.cmdStartEncode 0#28) { State.reset with host := { State.reset.host with state := .done, ie := true } } =
      .next t) ∧
    (∃ t, hostAccess { op := .read, off := 4, size := 4 }
      { State.reset with host := { State.reset.host with state := .done, ie := true } } = .next t ∧ t.host.irq = true) :=
  ⟨by decide, ⟨_, rfl⟩, ⟨_, rfl, rfl⟩⟩

/-- A reset in the middle of a copy. -/
theorem witness_ResetAbandonsTheRun : { copying 2#5 with env := [.reset] : State }.env = .reset :: [] := rfl

/-! #### Invariants, in a decode run and in an encode run -/

/-- A state of a decode run has the invariants. -/
theorem inv_copying : Inv (copying 8#5) where
  status := ⟨by decide, by decide, by decide, by decide, by decide, by decide, by decide⟩
  range := ⟨by decide, by decide, by decide, by decide, by decide, by decide, by decide,
    fun n h => by simp [copying, decoding, running, withSink, State.reset] at h, by decide, by decide, by decide, by decide,
    by decide, by decide⟩
  memory := ⟨by decide, by decide⟩
  mirror := fun _ => by
    show ∀ k, k < 16 → _
    decide
  tree := fun h => by simp [copying, decoding, running, withSink, Phase.encoding] at h
  window := ⟨fun h => by simp [copying, decoding, running, withSink] at h,
    fun h => by simp [copying, decoding, running, withSink] at h, fun h => by simp [copying, decoding, running, withSink] at h⟩

/-- A state of an encode run, with a tree, has the invariants. -/
theorem inv_aaaaOne : Inv aaaaOne where
  status := ⟨by decide, by decide, by decide, by decide, by decide, by decide, by decide⟩
  range := ⟨by decide, by decide, by decide, by decide, by decide, by decide, by decide,
    fun n h => by simp [aaaaOne, aaaa, running, State.reset] at h, by decide, by decide, by decide, by decide,
    by decide, by decide⟩
  memory := ⟨by decide, by decide⟩
  mirror := fun _ => by
    show ∀ k, k < 16 → _
    decide
  tree := fun _ => oneTree_sound
  window := by
    refine ⟨fun h => by simp [aaaaOne, aaaa, running] at h, fun _ _ k hk => ?_, fun _ h => absurd rfl h⟩
    have hk : k.toNat < 16 := hk
    show oneTree.parentOf (4081#12 + k) = .none
    rw [oneTree_parent]
    have : 4081#12 + k ≠ 4080#12 := by bv_omega
    simp [this]

/-- The state of an encode run inside the step that inserted 4080, its full block being flushed. -/
def flushingOne : State :=
  withSink [.ok] { aaaaOne with
    enc := { aaaa.enc with run := 16#5 }
    pk := { emptyPacker with ctrl := 0xFF#8, bit := 8#4, len := 8#5 }
    flush := some 8#5 }

/-- A state of an encode run inside a FLUSH, at the last byte of its block, has the invariants. -/
theorem inv_flushingOne : Inv flushingOne where
  status := ⟨by decide, by decide, by decide, by decide, by decide, by decide, by decide⟩
  range := ⟨by decide, by decide, by decide, by decide, by decide, by decide, by decide,
    fun n h => by obtain rfl : n = 8#5 := by simpa [flushingOne, withSink, eq_comm] using h
                  decide,
    by decide, by decide, by decide, by decide, by decide, by decide⟩
  memory := ⟨by decide, by decide⟩
  mirror := fun _ => by
    show ∀ k, k < 16 → _
    decide
  tree := fun _ => oneTree_sound
  window := by
    refine ⟨fun h => by simp [flushingOne, withSink, aaaaOne, aaaa, running] at h,
      fun _ h => by simp [flushingOne, withSink] at h,
      fun _ _ k hk => ?_⟩
    have hk : k.toNat < 16 := hk
    show oneTree.parentOf (4080#12 + 1#12 + k) = .none
    rw [oneTree_parent]
    exact if_neg (show 4080#12 + 1#12 + k ≠ 4080#12 by bv_omega)

theorem witness_StatusInvariantIsKept : StatusInv (copying 8#5) ∧ ∃ t, step (copying 8#5) = .next t :=
  ⟨inv_copying.status, ⟨_, rfl⟩⟩

theorem witness_RegistersStayInRange :
    StatusInv (copying 8#5) ∧ RangeInv (copying 8#5) ∧ ∃ t, step (copying 8#5) = .next t :=
  ⟨inv_copying.status, inv_copying.range, ⟨_, rfl⟩⟩

theorem witness_MemoriesStayCanonical : MemoryInv (copying 8#5) ∧ ∃ t, step (copying 8#5) = .next t :=
  ⟨inv_copying.memory, ⟨_, rfl⟩⟩

theorem witness_PaddingStaysAMirror :
    StatusInv (copying 8#5) ∧ MemoryInv (copying 8#5) ∧ MirrorInv (copying 8#5) ∧ ∃ t, step (copying 8#5) = .next t :=
  ⟨inv_copying.status, inv_copying.memory, inv_copying.mirror, ⟨_, rfl⟩⟩

/-- The last padding slot. -/
theorem witness_ScansReadTheRingModuloN : MirrorInv aaaaOne ∧ aaaaOne.phase ≠ .idle ∧ 4111 < 4112 :=
  ⟨inv_aaaaOne.mirror, by decide, by decide⟩

theorem step_aaaaOne : ∃ t, step aaaaOne = .next t :=
  nextOf_isSome (by decide)

theorem witness_LinksStayTrees :
    StatusInv aaaaOne ∧ MemoryInv aaaaOne ∧ TreeInv aaaaOne ∧ ∃ t, step aaaaOne = .next t :=
  ⟨inv_aaaaOne.status, inv_aaaaOne.memory, inv_aaaaOne.tree, step_aaaaOne⟩

/-- One position inserted, 4080: before the second step, and inside the FLUSH of the first. -/
theorem inserted_aaaaOne : InsertedInv 1 aaaaOne :=
  ⟨fun _ => by decide, fun _ q h => by
    have h : oneTree.parentOf q ≠ .none := h
    rw [oneTree_parent] at h
    split at h
    · exact ⟨0, by decide, by decide, by assumption⟩
    · simp at h⟩

theorem inserted_flushingOne : InsertedInv 1 flushingOne := ⟨fun _ => by decide, inserted_aaaaOne.members⟩

/-- In an encode run between two steps and inside a FLUSH, and where no encode run is in progress. -/
theorem witness_MembersStayInsideTheWindow :
    (Inv aaaaOne ∧ InsertedInv 1 aaaaOne ∧ ∃ t, step aaaaOne = .next t) ∧
    (Inv flushingOne ∧ InsertedInv 1 flushingOne ∧ ∃ t, step flushingOne = .next t) ∧
    (Inv (copying 8#5) ∧ (copying 8#5).phase.encoding = false ∧ InsertedInv 0 (copying 8#5) ∧
      ∃ t, step (copying 8#5) = .next t) :=
  ⟨⟨inv_aaaaOne, inserted_aaaaOne, step_aaaaOne⟩, ⟨inv_flushingOne, inserted_flushingOne, ⟨_, rfl⟩⟩,
    inv_copying, rfl, ⟨fun h => absurd h (by decide), fun h => absurd h (by decide)⟩, ⟨_, rfl⟩⟩

theorem witness_NoTokenMakesTheReplayEngineFault :
    StatusInv (copying 8#5) ∧ RangeInv (copying 8#5) ∧ (copying 8#5).phase.decoding = true :=
  ⟨inv_copying.status, inv_copying.range, rfl⟩

/-- Between two encoder steps, inside a FLUSH, and in a decode run. -/
theorem witness_TheEngineNeverFaults : Inv aaaaOne ∧ Inv flushingOne ∧ Inv (copying 8#5) :=
  ⟨inv_aaaaOne, inv_flushingOne, inv_copying⟩

theorem witness_InsertFollowsTheFirstDifferingByte :
    exampleTree.wf = true ∧ exampleTree.Sound ∧ exampleTree.parentOf 80#12 = .none ∧ 16 ≤ 16 :=
  ⟨exampleTree_wf, exampleTree_sound, by decide, by decide⟩

/-- The same position with `run` 16: the common prefix with 50 is 10 bytes long (`K H` and eight FILL bytes), the longest, and no
node on the walk is an exact match, so `best_len` is 10, `best_pos` 50, and 80 is a leaf on the right of 60. -/
theorem witness_InsertFollowsTheFirstDifferingByte_noExact :
    (insertAll exampleRing 16 [80#12] (exampleTree, State.reset.finder)).map (fun x =>
      (x.2.len, x.2.pos, x.1.leftOf 80#12, x.1.rightOf 80#12, x.1.parentOf 80#12)) =
      some (10#5, 50#12, none, none, Link.right 60#12) ∧
    (∀ j ∈ [10#12, 20#12, 50#12, 60#12], cpl exampleRing (BitVec.toNat j) 80 16 ≠ 16) ∧
    cpl exampleRing 50 80 16 = 10 := by decide

theorem test_visits_noExact : Visits exampleRing 80#12 16 exampleTree [10#12, 20#12, 50#12, 60#12] (exampleTree.rootAt 0x4B#8) := by
  refine ⟨by decide, fun h => absurd h (by decide), fun _ => ⟨by decide, fun h => absurd h (by decide), fun _ =>
    ⟨by decide, fun h => absurd h (by decide), fun _ => ⟨by decide, fun h => absurd h (by decide), fun _ => ?_⟩⟩⟩⟩
  show _ = none
  decide

/-- R196: `INSERT(80, 2)` walks 10 (`M > H`: left), 20 (`F < H`: right), and 50, the exact match. -/
theorem test_visits :
    Visits exampleRing 80#12 2 exampleTree [10#12, 20#12, 50#12] (exampleTree.rootAt 0x4B#8) ∧
    landing exampleRing 80#12 2 [10#12, 20#12, 50#12] (.root 0x4B#8) = .right 20#12 := by
  refine ⟨⟨by decide, by decide, fun _ => ⟨by decide, by decide, fun _ => ⟨by decide, by decide, fun h => ?_⟩⟩⟩, by decide⟩
  exact absurd h (by decide)

/-- A deletion that answers, of a member. -/
theorem delete_answers {z : Pos} {t : Tree} (h : (delete z t).toOption.isSome = true) : ∃ t1, delete z t = .ok t1 := by
  cases e : delete z t with
  | error x => simp [e, Except.toOption] at h
  | ok t1 => exact ⟨t1, rfl⟩

/-- Two children with the predecessor below the left child, and with the left child itself; a right child only, a left child
only, a leaf. -/
theorem witness_DeletePromotesThePredecessor :
    exampleTree.wf = true ∧ exampleTree.Sound ∧
    (exampleTree.leftOf 10#12 = some 20#12 ∧ exampleTree.rightOf 10#12 = some 30#12 ∧ exampleTree.rightOf 20#12 ≠ none ∧
      ∃ t1, delete 10#12 exampleTree = .ok t1) ∧
    (exampleTree.leftOf 20#12 = some 40#12 ∧ exampleTree.rightOf 20#12 = some 50#12 ∧ exampleTree.rightOf 40#12 = none ∧
      ∃ t1, delete 20#12 exampleTree = .ok t1) ∧
    (exampleTree.leftOf 30#12 = none ∧ exampleTree.rightOf 30#12 = some 70#12 ∧ ∃ t1, delete 30#12 exampleTree = .ok t1) ∧
    (exampleTree.leftOf 50#12 = some 60#12 ∧ exampleTree.rightOf 50#12 = none ∧ ∃ t1, delete 50#12 exampleTree = .ok t1) ∧
    (exampleTree.leftOf 70#12 = none ∧ exampleTree.rightOf 70#12 = none ∧ ∃ t1, delete 70#12 exampleTree = .ok t1) ∧
    ∀ z, z ∈ [10#12, 20#12, 30#12, 50#12, 70#12] → exampleTree.parentOf z ≠ .none :=
  ⟨exampleTree_wf, exampleTree_sound, ⟨by decide, by decide, by decide, delete_answers (by decide)⟩,
    ⟨by decide, by decide, by decide, delete_answers (by decide)⟩, ⟨by decide, by decide, delete_answers (by decide)⟩,
    ⟨by decide, by decide, delete_answers (by decide)⟩, ⟨by decide, by decide, delete_answers (by decide)⟩, by decide⟩

end Sys2Proof.Tests
end

section
/-!
PROOFS. The size of a block (00_scope.md R10).
-/

namespace Sys2Proof

open Sys2Proof.Machine Sys2Proof.Laws

/-- The size of every encoding, from the lemma of its constructor. -/
theorem encode_length : ∀ i : Instr, (encode i).length = i.place.size
  | .ctrl k => EncodeSize.ctrl k
  | .lit d => EncodeSize.lit d
  | .matchTok pos len => EncodeSize.matchTok pos len
  | .cmdNop ign => EncodeSize.cmdNop ign
  | .cmdStartEncode ign => EncodeSize.cmdStartEncode ign
  | .cmdStartDecode ign => EncodeSize.cmdStartDecode ign
  | .cmdReserved op ign => EncodeSize.cmdReserved op ign

theorem encodeBlock_length (ts : List Instr) : (encodeBlock ts).length = 1 + (ts.flatMap encode).length := by
  simp [encodeBlock, expandBlock, encode, Nat.add_comm]

/-- A literal gives one byte and a match two (30_encoding.md R132). -/
theorem tokenBytes_length {ts : List Instr} (h : AllTokens ts) :
    (ts.flatMap encode).length =
      ts.countP (fun i => i.place = .literal) + 2 * ts.countP (fun i => i.place = .matchSlot) := by
  induction ts with
  | nil => rfl
  | cons i ts ih =>
    obtain ⟨hi, hts⟩ := List.forall_mem_cons.1 h
    rw [List.flatMap_cons, List.length_append, encode_length, ih hts]
    obtain hp | hp := hi
    · simp [hp, Place.size]; omega
    · simp [hp, Place.size]; omega

/-- No token has more than two bytes (30_encoding.md R132). -/
theorem tokenBytes_length_le {ts : List Instr} (h : AllTokens ts) : (ts.flatMap encode).length ≤ 2 * ts.length := by
  induction ts with
  | nil => exact le_rfl
  | cons i ts ih =>
    obtain ⟨hi, hts⟩ := List.forall_mem_cons.1 h
    have hsize : i.place.size ≤ 2 := by
      obtain hp | hp := hi <;> simp [hp, Place.size]
    rw [List.flatMap_cons, List.length_append, encode_length, List.length_cons]
    have := ih hts
    omega

/-- Settles O6: the control byte, then the bytes of the tokens, by induction on the tokens. -/
theorem blockSizeIsOnePlusItsTokens : Obligations.BlockSizeIsOnePlusItsTokens := by
  intro ts hts hlen
  have hbytes := tokenBytes_length hts
  have hbound := tokenBytes_length_le hts
  rw [encodeBlock_length]
  omega

end Sys2Proof
end

section
/-!
PROOFS. What a run leaves alone (00_scope.md R3): the operations of a decode run keep the match tree and the encoder's
registers, those of an encode run the decoder's.
-/

namespace Sys2Proof.Machine

variable {s t : State} {α : Type}

/-! ### Views that port events do not reach -/

/-- A view of the state that the host registers, the ports and the progress of a transfer do not enter: no port event, no
end of a run and no error entry changes it. -/
def IgnoresPortEvents (f : State → α) : Prop :=
  ∀ (s : State) (host : HostRegs) (ports : Ports) (phase : Phase) (latch : List Byte) (flush : Option (BitVec 5)),
    f { s with host := host, ports := ports, phase := phase, latch := latch, flush := flush } = f s

/-- What an encode run works on, and a decode run does not. -/
def encoderSide (s : State) : Tree × EncRegs × Finder × Packer := (s.tree, s.enc, s.finder, s.pk)

theorem encoderSide_eq_iff :
    encoderSide t = encoderSide s ↔ t.tree = s.tree ∧ t.enc = s.enc ∧ t.finder = s.finder ∧ t.pk = s.pk := by
  simp [encoderSide]

theorem encoderSide_ignoresPortEvents : IgnoresPortEvents encoderSide := fun _ _ _ _ _ _ => rfl

theorem dec_ignoresPortEvents : IgnoresPortEvents State.dec := fun _ _ _ _ _ _ => rfl

/-- The offer of a byte keeps such a view if what follows its acceptance does. -/
theorem offer_keeps {f : State → α} {b : Byte} {k : State → State} (hf : IgnoresPortEvents f)
    (hk : ∀ u, f (k u) = f u) (h : offer b s k = .next t) : f t = f s := by
  obtain ⟨-, e⟩ | ⟨rest, -, e⟩ | ⟨rest, -, e⟩ := offer_cases b s k <;> cases e.symm.trans h
  · rfl
  · exact (hk _).trans (hf s _ _ _ _ _)
  · exact hf s _ _ _ _ _

theorem readTokenByte_keeps {f : State → α} (hf : IgnoresPortEvents f) (h : readTokenByte s = .next t) : f t = f s := by
  obtain ⟨-, e⟩ | ⟨b, rest, -, e⟩ | ⟨rest, -, e⟩ | ⟨rest, -, e⟩ := readTokenByte_cases s <;> cases e.symm.trans h
  · rfl
  all_goals exact hf s _ _ _ _ _

/-! ### The decode run -/

/-- CTRL, LIT and MATCH keep the encoder's side (43_decoder.md R274 to R278). -/
theorem exec_latched_encoderSide {i : Instr} (hi : latched s = some i) (h : exec i s = .next t) :
    encoderSide t = encoderSide s := by
  obtain ⟨e, -⟩ | ⟨k, -, -, -, e⟩ | ⟨d, -, -, -, e⟩ | ⟨b0, b1, -, -, -, e⟩ := latched_cases s <;> cases e.symm.trans hi
  · cases h; rfl
  · exact offer_keeps encoderSide_ignoresPortEvents (fun u => by simp [encoderSide]) h
  · cases h; rfl

theorem decodeStep_encoderSide (h : decodeStep s = .next t) : encoderSide t = encoderSide s := by
  obtain ⟨-, -, e⟩ | ⟨-, ⟨-, e⟩ | ⟨i, hi, e⟩⟩ := decodeStep_cases s
  · cases e.symm.trans h
  · exact readTokenByte_keeps encoderSide_ignoresPortEvents (e.symm.trans h)
  · exact exec_latched_encoderSide hi (e.symm.trans h)

/-- DEC_COPY keeps the encoder's side (43_decoder.md R279). -/
theorem copyStep_encoderSide (h : copyStep s = .next t) : encoderSide t = encoderSide s := by
  unfold copyStep at h
  split at h
  · cases h; rfl
  · exact offer_keeps encoderSide_ignoresPortEvents (fun u => by simp [encoderSide]) h

/-- The operations of a decode run (10_state.md R47). -/
theorem engineStep_decoding (hd : s.phase.decoding = true) (hf : s.flush = none) :
    engineStep s = decodeStep s ∨ engineStep s = copyStep s := by
  rw [engineStep_phase hf]
  unfold phaseStep
  cases hp : s.phase <;> simp_all [Phase.decoding]

/-! ### The encode run -/

theorem preloadExit_dec (s : State) : (preloadExit s).dec = s.dec := by
  obtain ⟨-, e⟩ | ⟨-, e⟩ := preloadExit_cases s <;> rw [e]

theorem preloadStep_dec (h : preloadStep s = .next t) : t.dec = s.dec := by
  obtain ⟨-, e⟩ | ⟨-, -, e⟩ | ⟨b, rest, -, -, e⟩ | ⟨rest, -, -, e⟩ | ⟨rest, -, -, e⟩ := preloadStep_cases s <;>
    cases e.symm.trans h
  · exact preloadExit_dec s
  · rfl
  · exact preloadExit_dec _
  · exact preloadExit_dec _
  · rfl

theorem encStepEmit_dec (s : State) : (encStepEmit s).dec = s.dec := by
  unfold encStepEmit
  split
  · split <;> rfl
  · rfl

theorem encStepInsert_dec (h : encStepInsert s = .next t) : t.dec = s.dec := by
  obtain ⟨_, -, e⟩ | ⟨tr, f, -, e⟩ := encStepInsert_cases s <;> cases e.symm.trans h
  rw [encStepEmit_dec, recordMatch_dec]

/-- ENC_STEP keeps the decoder's registers: what it does before its INSERT keeps them, and so does the rest (42_encoder.md
R226). -/
theorem encStep_dec (h : encStep s = .next t) : t.dec = s.dec := by
  obtain ⟨-, e⟩ | ⟨-, -, -, e⟩ | ⟨-, _, -, e⟩ | ⟨tr, -, -, hread⟩ := encStep_cases s
  · cases e.symm.trans h
  · cases e.symm.trans h; rfl
  · cases e.symm.trans h
  obtain ⟨-, e⟩ | ⟨b, rest, -, -, e⟩ | ⟨rest, -, -, e⟩ | ⟨rest, -, -, e⟩ := hread
  · exact (encStepInsert_dec (e.symm.trans h) :)
  · exact (encStepInsert_dec (e.symm.trans h) :)
  · exact (encStepInsert_dec (e.symm.trans h) :)
  · cases e.symm.trans h; rfl

/-- ENC_FINAL keeps the decoder's registers (42_encoder.md R236). -/
theorem encFinalStep_dec (h : encFinalStep s = .next t) : t.dec = s.dec := by
  unfold encFinalStep at h
  split at h <;> cases h <;> rfl

theorem flushNext_dec (n : BitVec 5) (s : State) : (flushNext n s).dec = s.dec := by
  unfold flushNext afterFlush
  split
  · split <;> rfl
  · rfl

/-- FLUSH keeps the decoder's registers (42_encoder.md R235). -/
theorem flushStep_dec {n : BitVec 5} (h : flushStep n s = .next t) : t.dec = s.dec := by
  unfold flushStep at h
  split at h
  · cases h
  · exact offer_keeps dec_ignoresPortEvents (flushNext_dec n) h

/-- The operations of an encode run (10_state.md R47). -/
theorem engineStep_encoding (he : s.phase.encoding = true) :
    (∃ n, engineStep s = flushStep n s) ∨ engineStep s = preloadStep s ∨ engineStep s = encStep s ∨
      engineStep s = encFinalStep s := by
  cases hf : s.flush with
  | some n => exact .inl ⟨n, engineStep_flush hf⟩
  | none =>
    right
    rw [engineStep_phase hf]
    unfold phaseStep
    cases hp : s.phase <;> simp_all [Phase.encoding]

/-! ### Both runs -/

theorem engineStep_decoding_keeps (hd : s.phase.decoding = true) (hf : s.flush = none) (h : engineStep s = .next t) :
    encoderSide t = encoderSide s := by
  obtain e | e := engineStep_decoding hd hf
  · exact decodeStep_encoderSide (e.symm.trans h)
  · exact copyStep_encoderSide (e.symm.trans h)

theorem engineStep_encoding_keeps (he : s.phase.encoding = true) (h : engineStep s = .next t) : t.dec = s.dec := by
  obtain ⟨n, e⟩ | e | e | e := engineStep_encoding he
  · exact flushStep_dec (e.symm.trans h)
  · exact preloadStep_dec (e.symm.trans h)
  · exact encStep_dec (e.symm.trans h)
  · exact encFinalStep_dec (e.symm.trans h)

end Sys2Proof.Machine

namespace Sys2Proof

open Sys2Proof.Machine

/-- Settles O39, operation by operation of each run. -/
theorem eachRunLeavesTheOthersRegistersAlone : Obligations.EachRunLeavesTheOthersRegistersAlone :=
  fun _ _ h =>
    ⟨fun hd hf => encoderSide_eq_iff.1 (engineStep_decoding_keeps hd hf h), fun he => engineStep_encoding_keeps he h⟩

end Sys2Proof
end

section
/-!
PROOFS. What a step can come to, as relations: the moves of the engine and of the host, each with its guard, and the one
argument by which every invariant is kept. Proofs about a step go through these and do not open the step function again.
-/

namespace Sys2Proof.Machine

/-! ### The moves of the engine -/

/-- The states ENC_PRELOAD goes on from: its loop is over, or one `InRead` was answered by DATA or END (42_encoder.md
R224). -/
inductive PreloadRead (s : State) : State → Prop
  | noRead (hl : preloading s.enc = false) : PreloadRead s s
  | data {b : Byte} {rest : List InItem} (hl : preloading s.enc = true) (hi : s.ports.inStream = .data b :: rest) :
      PreloadRead s { s with
        ports := { s.ports with inStream := rest }
        host := { s.host with inCount := s.host.inCount + 1#32 }
        ring := rbWrite (Config.start + s.enc.la.setWidth 12) b s.ring
        enc := { s.enc with la := s.enc.la + 1#5 } }
  | ended {rest : List InItem} (hl : preloading s.enc = true) (hi : s.ports.inStream = .eos :: rest) :
      PreloadRead s { s with ports := { s.ports with inStream := rest }, enc := { s.enc with eos := true } }

/-- The states the INSERT of ENC_STEP works on: DELETE is done, giving `tr`, and the lookahead is over or one `InRead` was
answered by DATA or END (42_encoder.md R226, R229). -/
inductive LookaheadRead (s : State) (tr : Tree) : State → Prop
  | noRead (he : s.enc.eos = true) : LookaheadRead s tr { s with tree := tr }
  | data {b : Byte} {rest : List InItem} (he : s.enc.eos = false) (hi : s.ports.inStream = .data b :: rest) :
      LookaheadRead s tr { s with
        tree := tr
        ports := { s.ports with inStream := rest }
        host := { s.host with inCount := s.host.inCount + 1#32 }
        ring := rbWrite (lookaheadSlot s.enc) b s.ring }
  | ended {rest : List InItem} (he : s.enc.eos = false) (hi : s.ports.inStream = .eos :: rest) :
      LookaheadRead s tr { s with
        tree := tr
        ports := { s.ports with inStream := rest }
        enc := { s.enc with eos := true } }

/-- Every next state of the engine, with what must hold for it (10_state.md R47; log entry 3). -/
inductive EngineMove (s : State) : State → Prop
  /-- No run is in progress, or the port asked has not answered. -/
  | hold : EngineMove s s
  /-- The source answers ERR; in ENC_STEP the DELETE is done by then (60_exceptions.md R341). -/
  | inputError {tr : Tree} {rest : List InItem} (hf : s.flush = none)
      (hp : s.phase = .encPreload ∨ s.phase = .encStep ∨ s.phase = .decCtrl ∨ s.phase = .decToken)
      (ht : tr = s.tree ∨ s.phase = .encStep ∧ delete (lookaheadSlot s.enc) s.tree = .ok tr)
      (hi : s.ports.inStream = .err :: rest) :
      EngineMove s (raiseError .inIo { s with tree := tr, ports := { s.ports with inStream := rest } })
  /-- The sink refuses a byte of a FLUSH, a literal or a byte of a copy (60_exceptions.md R342). -/
  | outputError {rest : List SinkAnswer} (hp : s.flush ≠ none ∨ s.phase = .decToken ∨ s.phase = .decCopy)
      (hs : s.ports.sink = .err :: rest) : EngineMove s (raiseError .outIo (turnedAway rest s))
  /-- FLUSH, a byte accepted (42_encoder.md R235). -/
  | flushByte {n : BitVec 5} {rest : List SinkAnswer} (hf : s.flush = some n) (hn : n.toNat ≤ s.pk.len.toNat)
      (hl : s.pk.len.toNat ≤ Config.F) (hs : s.ports.sink = .ok :: rest) :
      EngineMove s (flushNext n (accepted (s.pk.blockByte n.toNat) rest s))
  /-- ENC_PRELOAD (42_encoder.md R224). -/
  | preload {u : State} (hf : s.flush = none) (hp : s.phase = .encPreload) (hr : PreloadRead s u) :
      EngineMove s (preloadExit u)
  /-- ENC_STEP: DELETE, the read, INSERT, and the token that starts here (42_encoder.md R226). -/
  | encStep {tr tr1 : Tree} {u : State} {f : Finder} (hf : s.flush = none) (hp : s.phase = .encStep)
      (hg : encStepInRange s = true) (hd : delete (lookaheadSlot s.enc) s.tree = .ok tr) (hr : LookaheadRead s tr u)
      (hi : insert u.ring u.enc.p u.enc.run.toNat u.tree u.finder = .ok (tr1, f)) :
      EngineMove s (encStepEmit (recordMatch f { u with tree := tr1 }))
  /-- ENC_FINAL with no partial block (42_encoder.md R236, R237). -/
  | finalDone (hf : s.flush = none) (hp : s.phase = .encFinal) (hb : s.pk.bit = 0#4) : EngineMove s (runDone s)
  /-- ENC_FINAL with a partial block (42_encoder.md R236). -/
  | finalFlush (hf : s.flush = none) (hp : s.phase = .encFinal) (hb : s.pk.bit ≠ 0#4) : EngineMove s (beginFlush s)
  /-- A byte of a token (43_decoder.md R274, R276, R278). -/
  | tokenByte {b : Byte} {rest : List InItem} (hf : s.flush = none) (hp : s.phase = .decCtrl ∨ s.phase = .decToken)
      (hl : s.latch.length < (streamPlace s).size) (hi : s.ports.inStream = .data b :: rest) :
      EngineMove s { s with
        ports := { s.ports with inStream := rest }
        host := { s.host with inCount := s.host.inCount + 1#32 }
        latch := s.latch ++ [b] }
  /-- The end of the token stream (43_decoder.md R281, R282). -/
  | streamEnd {rest : List InItem} (hf : s.flush = none) (hp : s.phase = .decCtrl ∨ s.phase = .decToken)
      (hi : s.ports.inStream = .eos :: rest) :
      EngineMove s (runDone { s with ports := { s.ports with inStream := rest } })
  /-- CTRL (43_decoder.md R274). -/
  | ctrl {k : Byte} (hf : s.flush = none) (hp : s.phase = .decCtrl) (hl : latched s = some (.ctrl k)) :
      EngineMove s { s with dec := { s.dec with ctrl := k, bit := 0#4 }, phase := .decToken, latch := [] }
  /-- LIT, its byte accepted (43_decoder.md R276). -/
  | lit {d : Byte} {rest : List SinkAnswer} (hf : s.flush = none) (hp : s.phase = .decToken) (hb : s.dec.bit.toNat < 8)
      (hl : latched s = some (.lit d)) (hs : s.ports.sink = .ok :: rest) : EngineMove s (litDone d (accepted d rest s))
  /-- MATCH (43_decoder.md R278). -/
  | matchTok {b0 b1 : Byte} (hf : s.flush = none) (hp : s.phase = .decToken) (hb : s.dec.bit.toNat < 8)
      (hl : latched s = some (.matchTok (matchPosition b0 b1) (matchLength b1))) :
      EngineMove s { s with
        dec := { s.dec with pos := matchPosition b0 b1, rem := matchLength b1 }
        phase := .decCopy
        latch := [] }
  /-- DEC_COPY, its byte accepted (43_decoder.md R279). -/
  | copyByte {rest : List SinkAnswer} (hf : s.flush = none) (hp : s.phase = .decCopy) (hc : s.dec.rem ≠ 0#5)
      (hs : s.ports.sink = .ok :: rest) :
      EngineMove s (copyDone (rbRead s.dec.pos s.ring) (accepted (rbRead s.dec.pos s.ring) rest s))
  /-- DEC_COPY with nothing left to copy (43_decoder.md R279). -/
  | copyOver (hf : s.flush = none) (hp : s.phase = .decCopy) (hc : s.dec.rem = 0#5) : EngineMove s (tokenDone s)

variable {s t u : State}

/-- The offer of a byte holds, goes on by `k`, or enters the error. -/
theorem offer_move {b : Byte} {k : State → State} (hp : s.flush ≠ none ∨ s.phase = .decToken ∨ s.phase = .decCopy)
    (hk : ∀ rest, s.ports.sink = .ok :: rest → EngineMove s (k (accepted b rest s))) (h : offer b s k = .next t) :
    EngineMove s t := by
  obtain ⟨-, e⟩ | ⟨rest, hs, e⟩ | ⟨rest, hs, e⟩ := offer_cases b s k <;> cases e.symm.trans h
  · exact .hold
  · exact hk rest hs
  · exact .outputError hp hs

theorem flushStep_move {n : BitVec 5} (hf : s.flush = some n) (h : flushStep n s = .next t) : EngineMove s t := by
  unfold flushStep at h
  split at h
  · cases h
  · rename_i hn
    exact offer_move (.inl (by simp [hf])) (fun _ => .flushByte hf (by omega) (by omega)) h

theorem preloadStep_move (hf : s.flush = none) (hp : s.phase = .encPreload) (h : preloadStep s = .next t) :
    EngineMove s t := by
  obtain ⟨hl, e⟩ | ⟨-, -, e⟩ | ⟨b, rest, hl, hi, e⟩ | ⟨rest, hl, hi, e⟩ | ⟨rest, -, hi, e⟩ := preloadStep_cases s <;>
    cases e.symm.trans h
  · exact .preload hf hp (.noRead hl)
  · exact .hold
  · exact .preload hf hp (.data hl hi)
  · exact .preload hf hp (.ended hl hi)
  · exact .inputError hf (.inl hp) (.inl rfl) hi

theorem encStepInsert_move {tr : Tree} (hf : s.flush = none) (hp : s.phase = .encStep) (hg : encStepInRange s = true)
    (hd : delete (lookaheadSlot s.enc) s.tree = .ok tr) (hr : LookaheadRead s tr u) (h : encStepInsert u = .next t) :
    EngineMove s t := by
  obtain ⟨_, -, e⟩ | ⟨tr1, f, hi, e⟩ := encStepInsert_cases u <;> cases e.symm.trans h
  exact .encStep hf hp hg hd hr hi

theorem encStep_move (hf : s.flush = none) (hp : s.phase = .encStep) (h : encStep s = .next t) : EngineMove s t := by
  obtain ⟨-, e⟩ | ⟨-, -, -, e⟩ | ⟨-, _, -, e⟩ | ⟨tr, hg, hd, hread⟩ := encStep_cases s
  · cases e.symm.trans h
  · cases e.symm.trans h
    exact .hold
  · cases e.symm.trans h
  obtain ⟨he, e⟩ | ⟨b, rest, he, hi, e⟩ | ⟨rest, he, hi, e⟩ | ⟨rest, -, hi, e⟩ := hread
  · exact encStepInsert_move hf hp hg hd (.noRead he) (e.symm.trans h)
  · exact encStepInsert_move hf hp hg hd (.data he hi) (e.symm.trans h)
  · exact encStepInsert_move hf hp hg hd (.ended he hi) (e.symm.trans h)
  · cases e.symm.trans h
    exact .inputError hf (.inr (.inl hp)) (.inr ⟨hp, hd⟩) hi

theorem encFinalStep_move (hf : s.flush = none) (hp : s.phase = .encFinal) (h : encFinalStep s = .next t) :
    EngineMove s t := by
  unfold encFinalStep at h
  split at h <;> rename_i hb <;> cases h
  · exact .finalDone hf hp hb
  · exact .finalFlush hf hp hb

theorem readTokenByte_move (hf : s.flush = none) (hp : s.phase = .decCtrl ∨ s.phase = .decToken)
    (hl : s.latch.length < (streamPlace s).size) (h : readTokenByte s = .next t) : EngineMove s t := by
  obtain ⟨-, e⟩ | ⟨b, rest, hi, e⟩ | ⟨rest, hi, e⟩ | ⟨rest, hi, e⟩ := readTokenByte_cases s <;> cases e.symm.trans h
  · exact .hold
  · exact .tokenByte hf hp hl hi
  · exact .streamEnd hf hp hi
  · exact .inputError hf (.inr (.inr hp)) (.inl rfl) hi

/-- A token slot is never the place of a control byte (30_encoding.md R127). -/
theorem streamPlace_decToken_ne_control (hp : s.phase = .decToken) : streamPlace s ≠ .control := by
  unfold streamPlace
  cases h : controlBit s.dec.ctrl s.dec.bit <;> simp [hp]

theorem streamPlace_decCtrl (hp : s.phase = .decCtrl) : streamPlace s = .control := by
  simp [streamPlace, hp]

theorem decodeStep_of_latched {i : Instr} (hg : ¬ (s.phase = .decToken ∧ 8 ≤ s.dec.bit.toNat))
    (hl : latched s = some i) : decodeStep s = exec i s := by
  simp [decodeStep, hg, hl]

theorem decodeStep_of_not_latched (hg : ¬ (s.phase = .decToken ∧ 8 ≤ s.dec.bit.toNat)) (hl : latched s = none) :
    decodeStep s = readTokenByte s := by
  simp [decodeStep, hg, hl]

theorem decodeStep_decCtrl_move (hf : s.flush = none) (hp : s.phase = .decCtrl) (h : decodeStep s = .next t) :
    EngineMove s t := by
  have hg : ¬ (s.phase = .decToken ∧ 8 ≤ s.dec.bit.toNat) := by simp [hp]
  have hc := streamPlace_decCtrl hp
  obtain ⟨hl, hn⟩ | ⟨k, -, -, -, hl⟩ | ⟨d, -, hpl, -⟩ | ⟨b0, b1, -, hpl, -⟩ := latched_cases s
  · exact readTokenByte_move hf (.inl hp) hn ((decodeStep_of_not_latched hg hl).symm.trans h)
  · cases (decodeStep_of_latched hg hl).symm.trans h
    exact .ctrl hf hp hl
  · cases hc.symm.trans hpl
  · cases hc.symm.trans hpl

theorem decodeStep_decToken_move (hf : s.flush = none) (hp : s.phase = .decToken) (h : decodeStep s = .next t) :
    EngineMove s t := by
  obtain ⟨-, -, e⟩ | ⟨hg, -⟩ := decodeStep_cases s
  · cases e.symm.trans h
  have hb : s.dec.bit.toNat < 8 := Nat.lt_of_not_le fun h8 => hg ⟨hp, h8⟩
  obtain ⟨hl, hn⟩ | ⟨k, -, hpl, -⟩ | ⟨d, -, -, -, hl⟩ | ⟨b0, b1, -, -, -, hl⟩ := latched_cases s
  · exact readTokenByte_move hf (.inr hp) hn ((decodeStep_of_not_latched hg hl).symm.trans h)
  · exact absurd hpl (streamPlace_decToken_ne_control hp)
  · exact offer_move (.inr (.inl hp)) (fun _ => .lit hf hp hb hl) ((decodeStep_of_latched hg hl).symm.trans h)
  · cases (decodeStep_of_latched hg hl).symm.trans h
    exact .matchTok hf hp hb hl

theorem copyStep_move (hf : s.flush = none) (hp : s.phase = .decCopy) (h : copyStep s = .next t) : EngineMove s t := by
  unfold copyStep at h
  split at h <;> rename_i hc
  · cases h
    exact .copyOver hf hp hc
  · exact offer_move (.inr (.inr hp)) (fun _ => .copyByte hf hp hc) h

/-- Every step of the engine is one of its moves. -/
theorem engineStep_move (h : engineStep s = .next t) : EngineMove s t := by
  obtain ⟨n, hf, e⟩ | ⟨-, -, e⟩ | ⟨hf, hp, e⟩ | ⟨hf, hp, e⟩ | ⟨hf, hp, e⟩ | ⟨hf, hp, e⟩ | ⟨hf, hp, e⟩ | ⟨hf, hp, e⟩ |
    ⟨-, -, e⟩ := engineStep_cases s <;> have h := e.symm.trans h
  · exact flushStep_move hf h
  · cases h
    exact .hold
  · exact preloadStep_move hf hp h
  · exact encStep_move hf hp h
  · exact encFinalStep_move hf hp h
  · exact decodeStep_decCtrl_move hf hp h
  · exact decodeStep_decToken_move hf hp h
  · exact copyStep_move hf hp h
  · cases h
    exact .hold

/-- What FLUSH goes on to after a byte: the next byte, the end of the run, or the end of the encoder step (42_encoder.md
R235, R236). -/
theorem flushNext_cases (n : BitVec 5) (s : State) :
    (n ≠ s.pk.len ∧ flushNext n s = { s with flush := some (n + 1#5) }) ∨
    (n = s.pk.len ∧ s.phase = .encFinal ∧ flushNext n s = runDone (endFlush s)) ∨
    (n = s.pk.len ∧ s.phase ≠ .encFinal ∧ flushNext n s = encStepTail (endFlush s)) := by
  by_cases hn : n = s.pk.len
  · by_cases hp : s.phase = .encFinal
    · exact .inr (.inl ⟨hn, hp, by simp [flushNext, afterFlush, hn, hp]⟩)
    · exact .inr (.inr ⟨hn, hp, by simp [flushNext, afterFlush, hn, hp]⟩)
  · exact .inl ⟨hn, by simp [flushNext, hn]⟩

/-- What ENC_STEP goes on to after INSERT: inside a match its end; where a token starts, a FLUSH or its end (42_encoder.md
R226). -/
theorem encStepEmit_cases (s : State) :
    (s.enc.skip ≠ 0#4 ∧ encStepEmit s = encStepTail s) ∨
    (s.enc.skip = 0#4 ∧ (emitToken s).bit = 8#4 ∧ encStepEmit s = beginFlush { s with pk := emitToken s }) ∨
    (s.enc.skip = 0#4 ∧ (emitToken s).bit ≠ 8#4 ∧ encStepEmit s = encStepTail { s with pk := emitToken s }) := by
  by_cases hk : s.enc.skip = 0#4
  · by_cases hb : (emitToken s).bit = 8#4
    · exact .inr (.inl ⟨hk, hb, by simp [encStepEmit, hk, hb]⟩)
    · exact .inr (.inr ⟨hk, hb, by simp [encStepEmit, hk, hb]⟩)
  · exact .inl ⟨hk, by simp [encStepEmit, hk]⟩

/-! ### What the moves of the engine do to STATE, MODE, ERR and IE -/

/-- The registers that say how the block is run, STATE, MODE, ERR and IE, are the same. -/
structure ControlKept (s t : State) : Prop where
  state : t.host.state = s.host.state
  mode : t.host.mode = s.host.mode
  err : t.host.err = s.host.err
  ie : t.host.ie = s.host.ie

theorem PreloadRead.control (h : PreloadRead s u) : ControlKept s u := by cases h <;> exact ⟨rfl, rfl, rfl, rfl⟩

theorem LookaheadRead.control {tr : Tree} (h : LookaheadRead s tr u) : ControlKept s u := by
  cases h <;> exact ⟨rfl, rfl, rfl, rfl⟩

theorem ControlKept.of_host_eq (h : ControlKept s u) (ht : t.host = u.host) : ControlKept s t := by
  obtain ⟨h1, h2, h3, h4⟩ := h
  exact ⟨ht ▸ h1, ht ▸ h2, ht ▸ h3, ht ▸ h4⟩

theorem preloadExit_host (s : State) : (preloadExit s).host = s.host := by
  obtain ⟨-, e⟩ | ⟨-, e⟩ := preloadExit_cases s <;> rw [e]

theorem encStepEmit_host (s : State) : (encStepEmit s).host = s.host := by
  obtain ⟨-, e⟩ | ⟨-, -, e⟩ | ⟨-, -, e⟩ := encStepEmit_cases s <;> rw [e] <;> rfl

/-- A move of the engine keeps STATE, MODE, ERR and IE, or it ends a run from a state that has them. -/
theorem EngineMove.control (h : EngineMove s t) :
    ControlKept s t ∨ ∃ u, (t = runDone u ∨ ∃ c, t = raiseError c u) ∧ ControlKept s u := by
  cases h with
  | hold => exact .inl ⟨rfl, rfl, rfl, rfl⟩
  | inputError => exact .inr ⟨_, .inr ⟨_, rfl⟩, ⟨rfl, rfl, rfl, rfl⟩⟩
  | outputError => exact .inr ⟨_, .inr ⟨_, rfl⟩, ⟨rfl, rfl, rfl, rfl⟩⟩
  | @flushByte n rest =>
    obtain ⟨-, e⟩ | ⟨-, -, e⟩ | ⟨-, -, e⟩ := flushNext_cases n (accepted (s.pk.blockByte n.toNat) rest s) <;> rw [e]
    · exact .inl ⟨rfl, rfl, rfl, rfl⟩
    · exact .inr ⟨_, .inl rfl, ⟨rfl, rfl, rfl, rfl⟩⟩
    · exact .inl ⟨rfl, rfl, rfl, rfl⟩
  | preload hf hp hr => exact .inl (hr.control.of_host_eq (preloadExit_host _))
  | encStep hf hp hg hd hr hi =>
    exact .inl (hr.control.of_host_eq ((encStepEmit_host _).trans (recordMatch_host _ _)))
  | finalDone => exact .inr ⟨s, .inl rfl, ⟨rfl, rfl, rfl, rfl⟩⟩
  | finalFlush => exact .inl ⟨rfl, rfl, rfl, rfl⟩
  | tokenByte => exact .inl ⟨rfl, rfl, rfl, rfl⟩
  | streamEnd => exact .inr ⟨_, .inl rfl, ⟨rfl, rfl, rfl, rfl⟩⟩
  | ctrl => exact .inl ⟨rfl, rfl, rfl, rfl⟩
  | lit => exact .inl ⟨rfl, rfl, rfl, rfl⟩
  | matchTok => exact .inl ⟨rfl, rfl, rfl, rfl⟩
  | @copyByte rest =>
    exact .inl (.of_host_eq (u := accepted (rbRead s.dec.pos s.ring) rest s) ⟨rfl, rfl, rfl, rfl⟩ (copyDone_host _ _))
  | copyOver => exact .inl ⟨rfl, rfl, rfl, rfl⟩

theorem EngineMove.ie (h : EngineMove s t) : t.host.ie = s.host.ie := by
  obtain hk | ⟨u, rfl | ⟨c, rfl⟩, hk⟩ := h.control <;> exact hk.ie

/-- The engine leaves STATE, or ends its run in DONE or ERROR. -/
theorem EngineMove.state (h : EngineMove s t) :
    t.host.state = s.host.state ∨ t.host.state = .done ∨ t.host.state = .error := by
  obtain hk | ⟨u, rfl | ⟨c, rfl⟩, -⟩ := h.control
  · exact .inl hk.state
  · exact .inr (.inl rfl)
  · exact .inr (.inr rfl)

/-! ### The moves of the host -/

/-- Every next state of a host access, with what must hold for it (44_host_commands.md R310 to R317). -/
inductive HostMove (s : State) : HostAccess → State → Prop
  | read {a : HostAccess} (ho : a.op = .read) (hr : a.refusal = none) :
      HostMove s a { s with hostData := regRead a.off.toNat s.host }
  /-- A write with no effect. -/
  | noEffect {a : HostAccess} {w : Word} (ho : a.op = .write w) : HostMove s a s
  | setIe (w : Word) :
      HostMove s { op := .write w, off := 8, size := 4 } { s with host := { s.host with ie := w.getLsbD 0 } }
  | startEncode {w : Word} (hw : cmdOp w = 1#4) (hb : s.host.state ≠ .busy) :
      HostMove s { op := .write w, off := 0, size := 4 } (encInit (startCommon .encode s))
  | startDecode {w : Word} (hw : cmdOp w = 2#4) (hb : s.host.state ≠ .busy) :
      HostMove s { op := .write w, off := 0, size := 4 } (decInit (startCommon .decode s))

/-- An access that is taken is 32 bits wide and aligned, at an offset of the register block (10_state.md R41). -/
theorem HostAccess.refusal_none_iff (a : HostAccess) :
    a.refusal = none ↔ 0 ≤ a.off ∧ a.off ≤ 0xFF ∧ a.size = 4 ∧ a.off % 4 = 0 := by
  unfold HostAccess.refusal
  split
  · simp only [reduceCtorEq, false_iff]; omega
  · split
    · simp only [reduceCtorEq, false_iff]; omega
    · split
      · simp only [reduceCtorEq, false_iff]; omega
      · simp only [true_iff]; omega

/-- A write that is taken, by its offset. -/
theorem HostAccess.eq_write {a : HostAccess} {w : Word} {k : Nat} (hr : a.refusal = none) (ho : a.op = .write w)
    (hk : a.off.toNat = k) : a = { op := .write w, off := k, size := 4 } := by
  obtain ⟨op, off, size⟩ := a
  obtain ⟨h0, -, hs, -⟩ := (HostAccess.refusal_none_iff _).1 hr
  have hoff : off = k := by
    simp only at h0 hk
    omega
  exact congr (congr (congrArg HostAccess.mk ho) hoff) hs

theorem command_move {w : Word} (h : exec (decodeCommand w) s = .next t) :
    HostMove s { op := .write w, off := 0, size := 4 } t := by
  unfold decodeCommand at h
  split at h
  · cases h
    exact .noEffect rfl
  · split at h <;> rename_i hw
    · simp only [exec, execCmdStartEncode] at h
      split at h <;> rename_i hb <;> cases h
      · exact .noEffect rfl
      · exact .startEncode hw hb
    · split at h <;> rename_i hw
      · simp only [exec, execCmdStartDecode] at h
        split at h <;> rename_i hb <;> cases h
        · exact .noEffect rfl
        · exact .startDecode hw hb
      · cases h
        exact .noEffect rfl

/-- Every host access that is taken is one of the host's moves. -/
theorem hostAccess_move {a : HostAccess} (h : hostAccess a s = .next t) : HostMove s a t := by
  obtain ⟨_, -, e⟩ | ⟨hr, ho, e⟩ | ⟨w, hr, ho, hoff, e⟩ | ⟨w, hr, ho, hoff, e⟩ | ⟨w, -, ho, -, -, e⟩ :=
    hostAccess_cases a s <;> have h := e.symm.trans h
  · cases h
  · cases h
    exact .read ho hr
  · rw [HostAccess.eq_write hr ho hoff]
    exact command_move h
  · rw [HostAccess.eq_write hr ho hoff]
    cases h
    exact .setIe w
  · cases h
    exact .noEffect ho

/-! ### Every step -/

/-- Every turn that answers is a move of the engine, of the host, of a port's other side, or a reset. -/
theorem turnStep_move {x : Turn} (h : turnStep x s = .next t) :
    (x = .engine ∧ EngineMove s t) ∨ (∃ a, x = .host a ∧ HostMove s a t) ∨ (∃ ports, t = { s with ports := ports }) ∨
    (x = .reset ∧ t = resetEvent s) := by
  cases x with
  | engine => exact .inl ⟨rfl, engineStep_move h⟩
  | host a => exact .inr (.inl ⟨a, rfl, hostAccess_move h⟩)
  | source i => cases h; exact .inr (.inr (.inl ⟨_, rfl⟩))
  | sink a => cases h; exact .inr (.inr (.inl ⟨_, rfl⟩))
  | reset => cases h; exact .inr (.inr (.inr ⟨rfl, rfl⟩))

/-- What a predicate of the state must bear so that every step keeps it. -/
structure KeptByMoves (P : State → Prop) : Prop where
  /-- What the other agents move: the ports, the turns, IE and the value the host has read. -/
  agents : ∀ (s : State) (ports : Ports) (env : List Turn) (data : Word) (ie : Bool), P s →
    P { s with ports := ports, env := env, hostData := data, host := { s.host with ie := ie } }
  engine : ∀ s t : State, P s → EngineMove s t → P t
  startEncode : ∀ s : State, P s → s.host.state ≠ .busy → P (encInit (startCommon .encode s))
  startDecode : ∀ s : State, P s → s.host.state ≠ .busy → P (decInit (startCommon .decode s))
  reset : ∀ s : State, P s → P (resetEvent s)

variable {P : State → Prop}

theorem KeptByMoves.host (hP : KeptByMoves P) {a : HostAccess} (hs : P s) (h : HostMove s a t) : P t := by
  cases h with
  | read => exact hP.agents s s.ports s.env _ s.host.ie hs
  | noEffect => exact hs
  | setIe w => exact hP.agents s s.ports s.env s.hostData _ hs
  | startEncode _ hb => exact hP.startEncode s hs hb
  | startDecode _ hb => exact hP.startDecode s hs hb

/-- A predicate that every move keeps is kept by every step. -/
theorem KeptByMoves.step (hP : KeptByMoves P) (hs : P s) (h : step s = .next t) : P t := by
  obtain ⟨-, e⟩ | ⟨x, rest, -, e⟩ := step_cases s <;> have h := e.symm.trans h
  · exact hP.engine s t hs (engineStep_move h)
  · have hs' : P { s with env := rest } := hP.agents s s.ports rest s.hostData s.host.ie hs
    obtain ⟨-, hm⟩ | ⟨a, -, hm⟩ | ⟨ports, rfl⟩ | ⟨-, rfl⟩ := turnStep_move h
    · exact hP.engine _ t hs' hm
    · exact hP.host hs' hm
    · exact hP.agents s ports rest s.hostData s.host.ie hs
    · exact hP.reset _ hs'

end Sys2Proof.Machine
end

section
/-!
PROOFS. STATUS agrees with the phase (10_state.md R34 to R36, R47). A move of the engine lets its run go on, which keeps
STATUS and the kind of run, or it ends the run; a START begins a run and a reset leaves none.
-/

namespace Sys2Proof.Machine

variable {s t u : State}

/-! ### The two kinds of phase -/

theorem Phase.running_of_encoding {p : Phase} (h : p.encoding = true) : p ≠ .idle ∧ p ≠ .halted := by
  cases p <;> simp [Phase.encoding] at h ⊢

theorem Phase.running_of_decoding {p : Phase} (h : p.decoding = true) : p ≠ .idle ∧ p ≠ .halted := by
  cases p <;> simp [Phase.decoding] at h ⊢

/-- No phase belongs to both runs. -/
theorem Phase.encoding_ne_decoding {p : Phase} (he : p.encoding = true) : p.decoding ≠ true := by
  cases p <;> simp [Phase.encoding, Phase.decoding] at he ⊢

theorem encoding_of_encStep_or_encFinal (hp : s.phase = .encStep ∨ s.phase = .encFinal) : s.phase.encoding = true := by
  obtain e | e := hp <;> rw [e] <;> rfl

theorem decoding_of_decCtrl_or_decToken (hp : s.phase = .decCtrl ∨ s.phase = .decToken) : s.phase.decoding = true := by
  obtain e | e := hp <;> rw [e] <;> rfl

/-! ### What the invariant says inside a run -/

theorem StatusInv.busy_of_encoding (h : StatusInv s) (hp : s.phase.encoding = true) : s.host.state = .busy :=
  h.busy.2 (Phase.running_of_encoding hp)

theorem StatusInv.busy_of_decoding (h : StatusInv s) (hp : s.phase.decoding = true) : s.host.state = .busy :=
  h.busy.2 (Phase.running_of_decoding hp)

theorem StatusInv.err_none (h : StatusInv s) (hb : s.host.state = .busy) : s.host.err = .none := by
  by_contra he
  cases hb.symm.trans (h.err.1 he)

/-- An encode run and DEC_COPY hold no token byte. -/
theorem StatusInv.latch_nil (h : StatusInv s) (hc : s.phase ≠ .decCtrl) (ht : s.phase ≠ .decToken) : s.latch = [] := by
  by_contra hl
  exact (h.latch hl).elim hc ht

/-- A FLUSH belongs to an encode run (42_encoder.md R235). -/
theorem StatusInv.flush_none (h : StatusInv s) (hp : s.phase.decoding = true) : s.flush = none := by
  by_contra hf
  obtain e | e := h.flush hf <;> simp [e, Phase.decoding] at hp

/-! ### A run goes on -/

/-- STATUS is that of a run in progress with no error. -/
theorem StatusInv.of_busy (hs : t.host.state = .busy) (he : t.host.err = .none)
    (hp : t.phase.encoding = true ∧ t.host.mode = .encode ∨ t.phase.decoding = true ∧ t.host.mode = .decode)
    (hl : t.latch ≠ [] → t.phase = .decCtrl ∨ t.phase = .decToken)
    (hf : t.flush ≠ none → t.phase = .encStep ∨ t.phase = .encFinal) : StatusInv t := by
  have hrun : t.phase ≠ .idle ∧ t.phase ≠ .halted := by
    obtain ⟨hp, -⟩ | ⟨hp, -⟩ := hp
    · exact Phase.running_of_encoding hp
    · exact Phase.running_of_decoding hp
  refine ⟨by simp [hs, hrun], by simp [hs, hrun], by simp [hs, he], fun hpe => ?_, fun hpd => ?_, hl, hf⟩
  · obtain ⟨-, hm⟩ | ⟨hpd, -⟩ := hp
    · exact hm
    · exact absurd hpd (Phase.encoding_ne_decoding hpe)
  · obtain ⟨hpe, -⟩ | ⟨-, hm⟩ := hp
    · exact absurd hpd (Phase.encoding_ne_decoding hpe)
    · exact hm

/-- An encode run goes on. -/
theorem StatusInv.encoding_goesOn (h : StatusInv s) (hs : s.phase.encoding = true) (hk : ControlKept s t)
    (ht : t.phase.encoding = true) (hl : t.latch = s.latch)
    (hf : t.flush ≠ none → t.phase = .encStep ∨ t.phase = .encFinal) : StatusInv t := by
  have hb := h.busy_of_encoding hs
  have hnil : s.latch = [] :=
    h.latch_nil (fun e => by simp [e, Phase.encoding] at hs) (fun e => by simp [e, Phase.encoding] at hs)
  exact .of_busy (hk.state.trans hb) (hk.err.trans (h.err_none hb)) (.inl ⟨ht, hk.mode.trans (h.encMode hs)⟩)
    (fun hn => absurd (hl.trans hnil) hn) hf

/-- A decode run goes on. -/
theorem StatusInv.decoding_goesOn (h : StatusInv s) (hs : s.phase.decoding = true) (hk : ControlKept s t)
    (ht : t.phase.decoding = true) (hf : t.flush = s.flush)
    (hl : t.latch ≠ [] → t.phase = .decCtrl ∨ t.phase = .decToken) : StatusInv t := by
  have hb := h.busy_of_decoding hs
  exact .of_busy (hk.state.trans hb) (hk.err.trans (h.err_none hb)) (.inr ⟨ht, hk.mode.trans (h.decMode hs)⟩) hl
    (fun hn => absurd (hf.trans (h.flush_none hs)) hn)

/-! ### A run ends -/

theorem StatusInv.runDone (h : StatusInv s) (hb : s.host.state = .busy) : StatusInv (runDone s) := by
  constructor <;> simp [Phase.encoding, Phase.decoding, h.err_none hb]

theorem StatusInv.raiseError {c : ErrCode} (hc : c ≠ .none) : StatusInv (raiseError c s) := by
  constructor <;> simp [Phase.encoding, Phase.decoding, hc]

/-! ### The operations of an encode run -/

theorem PreloadRead.phase (h : PreloadRead s u) : u.phase = s.phase := by cases h <;> rfl
theorem PreloadRead.flush (h : PreloadRead s u) : u.flush = s.flush := by cases h <;> rfl
theorem PreloadRead.status (h : PreloadRead s u) (hs : StatusInv s) : StatusInv u := by cases h <;> exact { hs with }

variable {tr : Tree}

theorem LookaheadRead.phase (h : LookaheadRead s tr u) : u.phase = s.phase := by cases h <;> rfl
theorem LookaheadRead.flush (h : LookaheadRead s tr u) : u.flush = s.flush := by cases h <;> rfl
theorem LookaheadRead.status (h : LookaheadRead s tr u) (hs : StatusInv s) : StatusInv u := by
  cases h <;> exact { hs with }

theorem StatusInv.preloadExit (h : StatusInv s) (hp : s.phase = .encPreload) (hf : s.flush = none) :
    StatusInv (preloadExit s) := by
  obtain ⟨-, e⟩ | ⟨-, e⟩ := preloadExit_cases s <;> rw [e]
  · exact h
  · refine h.encoding_goesOn (by simp [hp, Phase.encoding]) ⟨rfl, rfl, rfl, rfl⟩ ?_ rfl (fun hn => absurd hf hn)
    show Phase.encoding (if s.enc.la.toNat = 0 then .encFinal else .encStep) = true
    split <;> rfl

/-- The end of a step stays in ENC_STEP or goes to ENC_FINAL (42_encoder.md R226). -/
theorem encStepTail_phase_cases (hp : s.phase = .encStep) :
    (encStepTail s).phase = .encStep ∨ (encStepTail s).phase = .encFinal := by
  rw [encStepTail_phase, hp]
  exact (ite_eq_or_eq _ _ _).symm

theorem StatusInv.encStepTail (h : StatusInv s) (hp : s.phase = .encStep) : StatusInv (encStepTail s) := by
  have ht := encStepTail_phase_cases hp
  exact h.encoding_goesOn (encoding_of_encStep_or_encFinal (.inl hp)) ⟨rfl, rfl, rfl, rfl⟩
    (encoding_of_encStep_or_encFinal ht) rfl (fun _ => ht)

theorem StatusInv.beginFlush (h : StatusInv s) (hp : s.phase = .encStep ∨ s.phase = .encFinal) :
    StatusInv (beginFlush s) :=
  { h with flush := fun _ => hp }

theorem StatusInv.encStepEmit (h : StatusInv s) (hp : s.phase = .encStep) : StatusInv (encStepEmit s) := by
  have hpk : StatusInv { s with pk := emitToken s } := { h with }
  obtain ⟨-, e⟩ | ⟨-, -, e⟩ | ⟨-, -, e⟩ := encStepEmit_cases s <;> rw [e]
  · exact h.encStepTail hp
  · exact hpk.beginFlush (.inl hp)
  · exact hpk.encStepTail hp

theorem StatusInv.recordMatch (h : StatusInv s) (f : Finder) : StatusInv (recordMatch f s) := by
  unfold Machine.recordMatch
  split <;> exact { h with }

theorem StatusInv.flushNext (h : StatusInv s) (n : BitVec 5) (hp : s.phase = .encStep ∨ s.phase = .encFinal) :
    StatusInv (flushNext n s) := by
  have hend : StatusInv (endFlush s) := { h with flush := fun hn => absurd rfl hn }
  obtain ⟨-, e⟩ | ⟨-, hfin, e⟩ | ⟨-, hnf, e⟩ := flushNext_cases n s <;> rw [e]
  · exact { h with flush := fun _ => hp }
  · exact hend.runDone (h.busy_of_encoding (encoding_of_encStep_or_encFinal (.inr hfin)))
  · exact hend.encStepTail (hp.resolve_right hnf)

/-! ### The operations of a decode run -/

theorem tokenDone_phase_cases (s : State) : (tokenDone s).phase = .decCtrl ∨ (tokenDone s).phase = .decToken :=
  ite_eq_or_eq _ _ _

theorem StatusInv.tokenDone (h : StatusInv s) (hp : s.phase.decoding = true) : StatusInv (tokenDone s) :=
  h.decoding_goesOn hp ⟨rfl, rfl, rfl, rfl⟩ (decoding_of_decCtrl_or_decToken (tokenDone_phase_cases s)) rfl
    (fun _ => tokenDone_phase_cases s)

theorem StatusInv.storeAtCursor (h : StatusInv s) (b : Byte) : StatusInv (storeAtCursor b s) := { h with }

theorem StatusInv.litDone (h : StatusInv s) (d : Byte) (hp : s.phase.decoding = true) : StatusInv (litDone d s) :=
  { (h.storeAtCursor d).tokenDone hp with latch := fun hn => absurd rfl hn }

/-- The state inside DEC_COPY once its byte is stored, its registers advanced (43_decoder.md R279). -/
def copyAdvanced (x : Byte) (s : State) : State :=
  { storeAtCursor x s with
    dec := { s.dec with cur := s.dec.cur + 1#12, pos := s.dec.pos + 1#12, rem := s.dec.rem - 1#5 } }

/-- A byte of the copy leaves it going on or ends its token (43_decoder.md R279). -/
theorem copyDone_cases (x : Byte) (s : State) :
    (s.dec.rem - 1#5 ≠ 0#5 ∧ copyDone x s = copyAdvanced x s) ∨
    (s.dec.rem - 1#5 = 0#5 ∧ copyDone x s = tokenDone (copyAdvanced x s)) := by
  by_cases hr : s.dec.rem - 1#5 = 0#5
  · exact .inr ⟨hr, if_pos hr⟩
  · exact .inl ⟨hr, if_neg hr⟩

theorem StatusInv.copyDone (h : StatusInv s) (x : Byte) (hp : s.phase.decoding = true) : StatusInv (copyDone x s) := by
  have ha : StatusInv (copyAdvanced x s) := { h with }
  obtain ⟨-, e⟩ | ⟨-, e⟩ := copyDone_cases x s <;> rw [e]
  · exact ha
  · exact ha.tokenDone hp

/-! ### Every move -/

theorem StatusInv.accepted (h : StatusInv s) (b : Byte) (rest : List SinkAnswer) : StatusInv (accepted b rest s) :=
  { h with }

theorem StatusInv.engineMove (h : StatusInv s) (hm : EngineMove s t) : StatusInv t := by
  cases hm with
  | hold => exact h
  | inputError => exact .raiseError (by simp)
  | outputError => exact .raiseError (by simp)
  | flushByte hf => exact (h.accepted _ _).flushNext _ (h.flush (by simp [hf]))
  | preload hf hp hr => exact (hr.status h).preloadExit (hr.phase.trans hp) (hr.flush.trans hf)
  | @encStep tr tr1 u f hf hp hg hd hr hi =>
    have hu : StatusInv { u with tree := tr1 } := { hr.status h with }
    exact (hu.recordMatch f).encStepEmit ((recordMatch_phase _ f).trans (hr.phase.trans hp))
  | finalDone hf hp => exact h.runDone (h.busy_of_encoding (encoding_of_encStep_or_encFinal (.inr hp)))
  | finalFlush hf hp => exact h.beginFlush (.inr hp)
  | tokenByte hf hp => exact { h with latch := fun _ => hp }
  | streamEnd hf hp =>
    exact .runDone { h with } (h.busy_of_decoding (decoding_of_decCtrl_or_decToken hp))
  | ctrl hf hp =>
    exact h.decoding_goesOn (decoding_of_decCtrl_or_decToken (.inl hp)) ⟨rfl, rfl, rfl, rfl⟩ rfl rfl (fun _ => .inr rfl)
  | lit hf hp => exact (h.accepted _ _).litDone _ (decoding_of_decCtrl_or_decToken (.inr hp))
  | matchTok hf hp =>
    exact h.decoding_goesOn (decoding_of_decCtrl_or_decToken (.inr hp)) ⟨rfl, rfl, rfl, rfl⟩ rfl rfl
      (fun hn => absurd rfl hn)
  | copyByte hf hp => exact (h.accepted _ _).copyDone _ (by simp [Machine.accepted, hp, Phase.decoding])
  | copyOver hf hp => exact h.tokenDone (by simp [hp, Phase.decoding])

theorem statusInv_reset : StatusInv State.reset := by
  constructor <;> simp [State.reset, Phase.encoding, Phase.decoding]

theorem statusInv_resetEvent (s : State) : StatusInv (resetEvent s) := by
  constructor <;> simp [State.reset, Phase.encoding, Phase.decoding]

/-- Every move keeps the agreement of STATUS and phase. -/
theorem statusInv_kept : KeptByMoves StatusInv where
  agents _ _ _ _ _ h := { h with }
  engine _ _ h hm := h.engineMove hm
  startEncode _ _ _ := .of_busy rfl rfl (.inl ⟨rfl, rfl⟩) (fun hn => absurd rfl hn) (fun hn => absurd rfl hn)
  startDecode _ _ _ := .of_busy rfl rfl (.inr ⟨rfl, rfl⟩) (fun hn => absurd rfl hn) (fun hn => absurd rfl hn)
  reset s _ := statusInv_resetEvent s

end Sys2Proof.Machine

namespace Sys2Proof

open Sys2Proof.Machine

/-- Settles O50: every move of the engine and of the other agents keeps STATUS in agreement with the phase. -/
theorem statusInvariantIsKept : Obligations.StatusInvariantIsKept :=
  fun _ _ h hstep => statusInv_kept.step h hstep

end Sys2Proof
end

section
/-!
PROOFS. The engine registers stay in their ranges (10_state.md R48 to R57): operation by operation, each named update of the
state keeps them.
-/

namespace Sys2Proof.Machine

variable {s t u : State}

/-! ### The end of a run -/

/-- A halted engine with no transfer in progress keeps its registers. -/
theorem RangeInv.halted (h : RangeInv s) (host : HostRegs) :
    RangeInv { s with host := host, phase := .halted, latch := [], flush := none } :=
  { h with
    stepRun := fun hp => by cases hp
    pkOpen := fun hp => by cases hp
    flushed := fun n hn => by cases hn
    ctrlBit := fun hp => by cases hp
    tokenBit := fun hp => by obtain hp | hp := hp <;> cases hp
    copyRem := fun hp => by cases hp
    latch := Nat.zero_le 2 }

theorem RangeInv.runDone (h : RangeInv s) : RangeInv (runDone s) := h.halted _

theorem RangeInv.raiseError (h : RangeInv s) (c : ErrCode) : RangeInv (raiseError c s) := h.halted _

/-- The registers of an encode run in range give the invariant where the decoder's are kept. -/
theorem RangeInv.of_encoding (h : RangeInv s) (hdec : t.dec = s.dec) (hp : t.phase.encoding = true)
    (latch : t.latch.length ≤ 2) (la : t.enc.la.toNat ≤ 16) (run : t.enc.run.toNat ≤ 16)
    (stepRun : t.phase = .encStep → 1 ≤ t.enc.run.toNat) (bestLen : t.finder.len.toNat ≤ 16)
    (pkBit : t.pk.bit.toNat ≤ 8) (pkLen : t.pk.len.toNat ≤ 2 * t.pk.bit.toNat)
    (pkOpen : t.flush = none → t.pk.bit.toNat < 8) (flushed : ∀ n, t.flush = some n → n.toNat ≤ t.pk.len.toNat) :
    RangeInv t where
  la := la
  run := run
  stepRun := stepRun
  bestLen := bestLen
  pkBit := pkBit
  pkLen := pkLen
  pkOpen _ := pkOpen
  flushed := flushed
  decBit := hdec ▸ h.decBit
  ctrlBit e := by simp [e, Phase.encoding] at hp
  tokenBit e := by obtain e | e := e <;> simp [e, Phase.encoding] at hp
  decRem := hdec ▸ h.decRem
  copyRem e := by simp [e, Phase.encoding] at hp
  latch := latch

/-- The registers of a decode run in range give the invariant where the encoder's are kept. -/
theorem RangeInv.of_decoding (h : RangeInv s) (henc : encoderSide t = encoderSide s)
    (flushed : ∀ n, t.flush = some n → n.toNat ≤ t.pk.len.toNat) (hp : t.phase.decoding = true)
    (decBit : t.dec.bit.toNat ≤ 8) (ctrlBit : t.phase = .decCtrl → t.dec.bit = 8#4)
    (tokenBit : t.phase = .decToken ∨ t.phase = .decCopy → t.dec.bit.toNat < 8) (decRem : t.dec.rem.toNat ≤ 18)
    (copyRem : t.phase = .decCopy → 1 ≤ t.dec.rem.toNat) (latch : t.latch.length ≤ 2) : RangeInv t := by
  obtain ⟨-, he, hf, hk⟩ := encoderSide_eq_iff.1 henc
  exact {
    la := he ▸ h.la
    run := he ▸ h.run
    stepRun := fun e => by simp [e, Phase.decoding] at hp
    bestLen := hf ▸ h.bestLen
    pkBit := hk ▸ h.pkBit
    pkLen := hk ▸ h.pkLen
    pkOpen := fun e => absurd hp (Phase.encoding_ne_decoding e)
    flushed := flushed
    decBit := decBit
    ctrlBit := ctrlBit
    tokenBit := tokenBit
    decRem := decRem
    copyRem := copyRem
    latch := latch }

/-! ### ENC_PRELOAD -/

theorem PreloadRead.range (hr : PreloadRead s u) (h : RangeInv s) : RangeInv u := by
  cases hr with
  | noRead => exact h
  | data hl =>
    have hla : s.enc.la.toNat < 16 := by
      simp only [preloading, Bool.and_eq_true, decide_eq_true_eq] at hl
      exact hl.1
    exact { h with la := show (s.enc.la + 1#5).toNat ≤ 16 by bv_omega }
  | ended => exact { h with }

/-- The preload ends in ENC_FINAL for an empty input, else in ENC_STEP with a byte at hand (42_encoder.md R224). -/
theorem RangeInv.preloadExit (h : RangeInv s) (hp : s.phase = .encPreload) (hf : s.flush = none) :
    RangeInv (preloadExit s) := by
  have hopen := h.pkOpen (by simp [hp, Phase.encoding]) hf
  obtain ⟨-, e⟩ | ⟨-, e⟩ := preloadExit_cases s <;> rw [e]
  · exact h
  by_cases hla : s.enc.la.toNat = 0
  · simp only [hla, if_true]
    exact h.of_encoding rfl rfl h.latch h.la h.la (fun hp => by cases hp) h.bestLen h.pkBit h.pkLen
      (fun _ => hopen) h.flushed
  · simp only [hla, if_false]
    exact h.of_encoding rfl rfl h.latch h.la h.la (fun _ => by show 1 ≤ s.enc.la.toNat; omega) h.bestLen h.pkBit h.pkLen
      (fun _ => hopen) h.flushed

/-! ### INSERT and its result -/

theorem Finder.better_len_le {f : Finder} {n : Nat} (hf : f.len.toNat ≤ 16) (hn : n ≤ 16) (j : Pos) :
    (f.better n j).len.toNat ≤ 16 := by
  unfold Finder.better
  split
  · rw [BitVec.toNat_ofNat]
    exact (Nat.mod_le _ _).trans hn
  · exact hf

/-- The walk never finds more than `run` bytes equal (41_match_tree.md R185, R189). -/
theorem insertWalk_len_le {m : Ring} {i : Pos} {run fuel : Nat} {link : Link} {tr tr1 : Tree} {f f1 : Finder}
    (hrun : run ≤ 16) (hf : f.len.toNat ≤ 16) (e : insertWalk m i run fuel link tr f = .ok (tr1, f1)) :
    f1.len.toNat ≤ 16 := by
  induction fuel generalizing link f with
  | zero => cases e
  | succ fuel ih =>
    simp only [insertWalk] at e
    split at e
    · split at e <;> cases e
      exact hf
    · rename_i j _
      have hb := Finder.better_len_le hf ((cpl_le m j.toNat i.toNat run).trans hrun) j
      split at e
      · split at e <;> cases e
        exact hb
      · exact ih hb e

theorem insert_len_le {m : Ring} {i : Pos} {run : Nat} {tr tr1 : Tree} {f f1 : Finder} (hrun : run ≤ 16)
    (e : insert m i run tr f = .ok (tr1, f1)) : f1.len.toNat ≤ 16 := by
  unfold insert at e
  split at e
  · cases e
  · exact insertWalk_len_le hrun (by decide : (BitVec.ofNat 5 2).toNat ≤ 16) e

theorem RangeInv.recordMatch (h : RangeInv s) {f : Finder} (hf : f.len.toNat ≤ 16) : RangeInv (recordMatch f s) := by
  unfold Machine.recordMatch
  split <;> exact { h with bestLen := hf }

/-! ### ENC_STEP -/

theorem LookaheadRead.range {tr : Tree} (hr : LookaheadRead s tr u) (h : RangeInv s) : RangeInv u := by
  cases hr <;> exact { h with }

/-- A token adds one or two bytes to the packer (42_encoder.md R232, R233). -/
theorem emitToken_bit (s : State) : (emitToken s).bit = s.pk.bit + 1#4 := by
  unfold emitToken
  split <;> rfl

theorem emitToken_len (s : State) :
    (emitToken s).len = s.pk.len + 1#5 ∨ (emitToken s).len = s.pk.len + 1#5 + 1#5 := by
  unfold emitToken
  split
  · exact .inr rfl
  · exact .inl rfl

/-- What a token does to an open packer in range. -/
theorem emitToken_inRange (hb : s.pk.bit.toNat < 8) (hl : s.pk.len.toNat ≤ 2 * s.pk.bit.toNat) :
    (emitToken s).bit.toNat = s.pk.bit.toNat + 1 ∧ (emitToken s).len.toNat ≤ 2 * (emitToken s).bit.toNat := by
  have hbit : (emitToken s).bit.toNat = s.pk.bit.toNat + 1 := by
    rw [emitToken_bit]
    bv_omega
  refine ⟨hbit, ?_⟩
  obtain e | e := emitToken_len s <;> rw [hbit, e] <;> bv_omega

/-- `enc_run` falls only where it is not 0, so the end of a step keeps it in range (42_encoder.md R222, R226). -/
theorem runAfter_le {e : EncRegs} (h1 : 1 ≤ e.run.toNat) : (runAfter e).toNat ≤ e.run.toNat := by
  unfold runAfter
  split
  · bv_omega
  · exact le_rfl

theorem RangeInv.encStepTail (h : RangeInv s) (hp : s.phase = .encStep) : RangeInv (encStepTail s) := by
  have hrun := runAfter_le (h.stepRun hp)
  refine h.of_encoding rfl (encoding_of_encStep_or_encFinal (encStepTail_phase_cases hp)) h.latch h.la
    (hrun.trans h.run) ?_ h.bestLen h.pkBit h.pkLen (h.pkOpen (encoding_of_encStep_or_encFinal (.inl hp))) h.flushed
  intro ht
  have h0 : runAfter s.enc ≠ 0#5 := fun h0 => by
    rw [encStepTail_phase] at ht
    exact absurd ((if_pos h0).symm.trans ht) (by simp)
  show 1 ≤ (runAfter s.enc).toNat
  bv_omega

/-- ENC_STEP from its INSERT on: the eighth token of a block begins a FLUSH, any other leaves the packer open (42_encoder.md
R226, R232). -/
theorem RangeInv.encStepEmit (h : RangeInv s) (hp : s.phase = .encStep) (hf : s.flush = none) :
    RangeInv (encStepEmit s) := by
  have henc := encoding_of_encStep_or_encFinal (.inl hp)
  have hopen := h.pkOpen henc hf
  obtain ⟨hbit, hlen⟩ := emitToken_inRange hopen h.pkLen
  have hbit8 : (emitToken s).bit.toNat ≤ 8 := by omega
  obtain ⟨-, e⟩ | ⟨-, -, e⟩ | ⟨-, h8, e⟩ := encStepEmit_cases s <;> rw [e]
  · exact h.encStepTail hp
  · refine h.of_encoding rfl henc h.latch h.la h.run h.stepRun h.bestLen hbit8 hlen (fun hn => by cases hn) ?_
    intro n hn
    cases hn
    exact Nat.zero_le _
  · have hlt : (emitToken s).bit.toNat < 8 := by bv_omega
    exact RangeInv.encStepTail (s := { s with pk := emitToken s }) { h with
      pkBit := hbit8
      pkLen := hlen
      pkOpen := fun _ _ => hlt
      flushed := fun n hn => by cases hf.symm.trans hn } hp

/-! ### FLUSH and ENC_FINAL -/

theorem RangeInv.beginFlush (h : RangeInv s) : RangeInv (beginFlush s) :=
  { h with
    pkOpen := fun _ hn => by cases hn
    flushed := fun n hn => by cases hn; exact Nat.zero_le _ }

theorem RangeInv.endFlush (h : RangeInv s) : RangeInv (endFlush s) :=
  { h with
    pkBit := Nat.zero_le _
    pkLen := Nat.zero_le _
    pkOpen := fun _ _ => Nat.zero_lt_succ 7
    flushed := fun n hn => by cases hn }

theorem RangeInv.flushNext (h : RangeInv s) {n : BitVec 5} (hf : s.flush = some n)
    (hp : s.phase = .encStep ∨ s.phase = .encFinal) : RangeInv (flushNext n s) := by
  have hn := h.flushed n hf
  obtain ⟨hne, e⟩ | ⟨-, -, e⟩ | ⟨-, hnf, e⟩ := flushNext_cases n s <;> rw [e]
  · refine { h with pkOpen := fun _ hn => (by cases hn), flushed := fun n' hn' => ?_ }
    cases hn'
    show (n + 1#5).toNat ≤ s.pk.len.toNat
    bv_omega
  · exact h.endFlush.runDone
  · exact h.endFlush.encStepTail (hp.resolve_right hnf)

/-! ### The decode run -/

/-- A token ends: the next control bit, or the next control byte after the eighth (43_decoder.md R275). -/
theorem RangeInv.tokenEnds (h : RangeInv s) (hb : s.dec.bit.toNat < 8) (henc : encoderSide t = encoderSide s)
    (flushed : ∀ n, t.flush = some n → n.toNat ≤ t.pk.len.toNat) (hbit : t.dec.bit = s.dec.bit + 1#4)
    (hp : t.phase = if s.dec.bit + 1#4 = 8#4 then .decCtrl else .decToken) (hrem : t.dec.rem.toNat ≤ 18)
    (hlatch : t.latch.length ≤ 2) : RangeInv t := by
  have hnext : t.dec.bit.toNat ≤ 8 := by bv_omega
  by_cases h8 : s.dec.bit + 1#4 = 8#4
  · rw [if_pos h8] at hp
    exact h.of_decoding henc flushed (by rw [hp]; rfl) hnext (fun _ => hbit.trans h8) (fun e => by simp [hp] at e) hrem
      (fun e => by simp [hp] at e) hlatch
  · rw [if_neg h8] at hp
    exact h.of_decoding henc flushed (by rw [hp]; rfl) hnext (fun e => by simp [hp] at e) (fun _ => by bv_omega) hrem
      (fun e => by simp [hp] at e) hlatch

/-- A match token copies 3 to 18 bytes (30_encoding.md R124). -/
theorem matchLength_range (b1 : Byte) : 3 ≤ (matchLength b1).toNat ∧ (matchLength b1).toNat ≤ 18 := by
  have h : (b1 &&& 0x0F#8).toNat ≤ 15 := by
    rw [BitVec.toNat_and]
    exact Nat.and_le_right
  unfold matchLength
  constructor <;> bv_omega

theorem RangeInv.copyDone (h : RangeInv s) (x : Byte) (hp : s.phase = .decCopy) (hc : s.dec.rem ≠ 0#5) :
    RangeInv (copyDone x s) := by
  have hb := h.tokenBit (.inr hp)
  have hrem := h.decRem
  have hnext : (s.dec.rem - 1#5).toNat ≤ 18 := by bv_omega
  obtain ⟨hr, e⟩ | ⟨-, e⟩ := copyDone_cases x s <;> rw [e]
  · exact h.of_decoding rfl h.flushed (by show s.phase.decoding = true; rw [hp]; rfl) h.decBit h.ctrlBit h.tokenBit hnext
      (fun _ => by show 1 ≤ (s.dec.rem - 1#5).toNat; bv_omega) h.latch
  · exact h.tokenEnds hb rfl h.flushed rfl rfl hnext h.latch

/-! ### Every move -/

theorem RangeInv.accepted (h : RangeInv s) (b : Byte) (rest : List SinkAnswer) : RangeInv (accepted b rest s) :=
  { h with }

theorem streamPlace_size_le (s : State) : (streamPlace s).size ≤ 2 := by
  unfold streamPlace
  split
  · split <;> decide
  · decide

theorem RangeInv.engineMove (hs : StatusInv s) (h : RangeInv s) (hm : EngineMove s t) : RangeInv t := by
  cases hm with
  | hold => exact h
  | inputError =>
    refine RangeInv.raiseError ?_ _
    exact { h with }
  | outputError =>
    refine RangeInv.raiseError ?_ _
    exact { h with }
  | flushByte hf => exact (h.accepted _ _).flushNext hf (hs.flush (by simp [hf]))
  | preload hf hp hr => exact (hr.range h).preloadExit (hr.phase.trans hp) (hr.flush.trans hf)
  | @encStep tr tr1 u f hf hp hg hd hr hi =>
    have hu := hr.range h
    have hu1 : RangeInv { u with tree := tr1 } := { hu with }
    exact (hu1.recordMatch (insert_len_le hu.run hi)).encStepEmit ((recordMatch_phase _ f).trans (hr.phase.trans hp))
      ((recordMatch_flush _ f).trans (hr.flush.trans hf))
  | finalDone => exact h.runDone
  | finalFlush => exact h.beginFlush
  | @tokenByte b rest hf hp hl hi =>
    have hsize := streamPlace_size_le s
    refine { h with latch := ?_ }
    show (s.latch ++ [b]).length ≤ 2
    rw [List.length_append, List.length_singleton]
    omega
  | streamEnd => exact RangeInv.runDone { h with }
  | ctrl hf hp =>
    exact h.of_decoding rfl h.flushed rfl (Nat.zero_le _) (fun e => by cases e) (fun _ => Nat.zero_lt_succ 7) h.decRem
      (fun e => by cases e) (Nat.zero_le _)
  | lit hf hp hb => exact (h.accepted _ _).tokenEnds hb rfl h.flushed rfl rfl h.decRem (Nat.zero_le _)
  | @matchTok b0 b1 hf hp hb =>
    obtain ⟨h3, h18⟩ := matchLength_range b1
    exact h.of_decoding rfl h.flushed rfl h.decBit (fun e => by cases e) (fun _ => hb) h18
      (fun _ => Nat.le_of_succ_le (Nat.le_of_succ_le h3)) (Nat.zero_le _)
  | copyByte hf hp hc => exact (h.accepted _ _).copyDone _ hp hc
  | copyOver hf hp hc => exact h.tokenEnds (h.tokenBit (.inr hp)) rfl h.flushed rfl rfl h.decRem h.latch

theorem RangeInv.startEncode (h : RangeInv s) : RangeInv (encInit (startCommon .encode s)) :=
  h.of_encoding rfl rfl (Nat.zero_le _) (Nat.zero_le _) (Nat.zero_le _) (fun hp => by cases hp) h.bestLen (Nat.zero_le _)
    (Nat.zero_le _) (fun _ => Nat.zero_lt_succ 7) (fun n hn => by cases hn)

theorem RangeInv.startDecode (h : RangeInv s) : RangeInv (decInit (startCommon .decode s)) :=
  h.of_decoding rfl (fun n hn => by cases hn) rfl le_rfl (fun _ => rfl) (fun hp => by obtain hp | hp := hp <;> cases hp)
    (Nat.zero_le _) (fun hp => by cases hp) (Nat.zero_le _)

theorem rangeInv_reset : RangeInv State.reset := by
  constructor <;> simp [State.reset, Phase.encoding]

theorem rangeInv_resetEvent (s : State) : RangeInv (resetEvent s) := by
  constructor <;> simp [State.reset, Phase.encoding]

/-- Every move keeps the registers in range, STATUS being in agreement with the phase. -/
theorem rangeInv_kept : KeptByMoves fun s => StatusInv s ∧ RangeInv s where
  agents _ _ _ _ _ h := ⟨{ h.1 with }, { h.2 with }⟩
  engine _ _ h hm := ⟨h.1.engineMove hm, h.2.engineMove h.1 hm⟩
  startEncode s h hb := ⟨statusInv_kept.startEncode s h.1 hb, h.2.startEncode⟩
  startDecode s h hb := ⟨statusInv_kept.startDecode s h.1 hb, h.2.startDecode⟩
  reset s h := ⟨statusInv_kept.reset s h.1, rangeInv_resetEvent s⟩

end Sys2Proof.Machine

namespace Sys2Proof

open Sys2Proof.Machine

/-- Settles O51: every move keeps the registers in range; that a FLUSH belongs to an encode run is STATUS's invariant. -/
theorem registersStayInRange : Obligations.RegistersStayInRange := by
  intro s t hstatus hrange hstep
  obtain ⟨-, ht⟩ := rangeInv_kept.step ⟨hstatus, hrange⟩ hstep
  exact ht

end Sys2Proof
end

section
/-!
PROOFS. The memories stay in canonical form (log entries 5 and 6): the ring is written by RB_FILL, RB_WRITE and a reset, the
tree by TREE_INIT, DELETE, INSERT and a reset, and each of them keeps the form.
-/

namespace Sys2Proof.Machine

variable {s t u : State}

theorem MemoryInv.of_eq (h : MemoryInv s) (hr : t.ring = s.ring) (ht : t.tree = s.tree) : MemoryInv t :=
  ⟨hr ▸ h.ring, ht ▸ h.tree⟩

/-- One byte is written to the ring, as ENC_PRELOAD, ENC_STEP, LIT and DEC_COPY do (40_ring_buffer.md R162). -/
theorem MemoryInv.of_rbWrite (h : MemoryInv s) {p : Pos} {b : Byte} (hr : t.ring = rbWrite p b s.ring)
    (ht : t.tree = s.tree) : MemoryInv t :=
  ⟨hr ▸ Memory.wf_rbWrite p b h.ring, ht ▸ h.tree⟩

theorem PreloadRead.memory (hr : PreloadRead s u) (h : MemoryInv s) : MemoryInv u := by
  cases hr with
  | noRead => exact h
  | data => exact h.of_rbWrite rfl rfl
  | ended => exact { h with }

theorem LookaheadRead.memory {tr : Tree} (hr : LookaheadRead s tr u) (h : MemoryInv { s with tree := tr }) :
    MemoryInv u := by
  cases hr with
  | noRead => exact h
  | data => exact h.of_rbWrite rfl rfl
  | ended => exact { h with }

theorem preloadExit_memory (h : MemoryInv s) : MemoryInv (preloadExit s) := by
  obtain ⟨-, e⟩ | ⟨-, e⟩ := preloadExit_cases s <;> rw [e] <;> exact { h with }

theorem flushNext_memory (n : BitVec 5) (h : MemoryInv s) : MemoryInv (flushNext n s) := by
  obtain ⟨-, e⟩ | ⟨-, -, e⟩ | ⟨-, -, e⟩ := flushNext_cases n s <;> rw [e] <;> exact { h with }

theorem recordMatch_memory (f : Finder) (h : MemoryInv s) : MemoryInv (recordMatch f s) :=
  h.of_eq (recordMatch_ring s f) (recordMatch_tree s f)

theorem encStepEmit_memory (h : MemoryInv s) : MemoryInv (encStepEmit s) := by
  obtain ⟨-, e⟩ | ⟨-, -, e⟩ | ⟨-, -, e⟩ := encStepEmit_cases s <;> rw [e] <;> exact { h with }

/-- Every move of the engine keeps the canonical form. -/
theorem MemoryInv.engineMove (h : MemoryInv s) (hm : EngineMove s t) : MemoryInv t := by
  cases hm with
  | hold => exact h
  | inputError hf hp ht =>
    obtain rfl | ⟨-, hd⟩ := ht
    · exact { h with }
    · exact ⟨h.ring, delete_wf h.tree hd⟩
  | outputError => exact { h with }
  | flushByte => exact flushNext_memory _ { h with }
  | preload hf hp hr => exact preloadExit_memory (hr.memory h)
  | encStep hf hp hg hd hr hi =>
    have hu := hr.memory ⟨h.ring, delete_wf h.tree hd⟩
    exact encStepEmit_memory (recordMatch_memory _ ⟨hu.ring, insert_wf hu.tree hi⟩)
  | finalDone => exact { h with }
  | finalFlush => exact { h with }
  | tokenByte => exact { h with }
  | streamEnd => exact { h with }
  | ctrl => exact { h with }
  | lit => exact h.of_rbWrite rfl rfl
  | matchTok => exact { h with }
  | copyByte => exact h.of_rbWrite (copyDone_ring _ _) (copyDone_tree _ _)
  | copyOver => exact { h with }

theorem MemoryInv.resetEvent (h : MemoryInv s) : MemoryInv (resetEvent s) where
  ring := by
    rw [resetEvent_ring]
    exact Store.wf_redraw _ h.ring le_rfl
  tree := by
    rw [resetEvent_tree]
    exact Tree.wf_redraw _ h.tree

/-- Every move keeps the canonical form of the memories, a reset included. -/
theorem memoryInv_kept : KeptByMoves MemoryInv where
  agents _ _ _ _ _ h := { h with }
  engine _ _ h hm := h.engineMove hm
  startEncode _ h _ := ⟨Memory.wf_rbFill, Tree.wf_treeInit h.tree⟩
  startDecode _ h _ := ⟨Memory.wf_rbFill, h.tree⟩
  reset _ h := h.resetEvent

end Sys2Proof.Machine

namespace Sys2Proof

open Sys2Proof.Machine

/-- Settles O52: every operation that writes a memory keeps its canonical form. -/
theorem memoriesStayCanonical : Obligations.MemoriesStayCanonical :=
  fun _ _ h hstep => memoryInv_kept.step h hstep

end Sys2Proof
end

section
/-!
PROOFS. Who writes IE and STATE (10_state.md R34, R38; 44_host_commands.md R312, R315, R317), read off the moves of a step.
-/

namespace Sys2Proof.Machine

variable {s t : State}

/-- What a host access does to IE: nothing, or it is a write of IRQ_EN (44_host_commands.md R317). -/
theorem HostMove.ie {a : HostAccess} (h : HostMove s a t) :
    t.host.ie = s.host.ie ∨ ∃ w, a = { op := .write w, off := 8, size := 4 } ∧ t.host.ie = w.getLsbD 0 := by
  cases h with
  | read => exact .inl rfl
  | noEffect => exact .inl rfl
  | setIe w => exact .inr ⟨w, rfl, rfl⟩
  | startEncode => exact .inl rfl
  | startDecode => exact .inl rfl

/-- What a host access does to STATE: nothing, or it is a START (44_host_commands.md R311, R313, R315). -/
theorem HostMove.state {a : HostAccess} (h : HostMove s a t) :
    t.host.state = s.host.state ∨ t.host.state = .busy ∧ ∃ w, a = { op := .write w, off := 0, size := 4 } ∧
      (cmdOp w = 1#4 ∨ cmdOp w = 2#4) := by
  cases h with
  | read => exact .inl rfl
  | noEffect => exact .inl rfl
  | setIe => exact .inl rfl
  | startEncode hw => exact .inr ⟨rfl, _, rfl, .inl hw⟩
  | startDecode hw => exact .inr ⟨rfl, _, rfl, .inr hw⟩

end Sys2Proof.Machine

namespace Sys2Proof

open Sys2Proof.Machine

/-- Settles O40: no move of the engine writes IE, and of the host's only a write of IRQ_EN. -/
theorem interruptEnableChangesOnlyByHostOrReset : Obligations.InterruptEnableChangesOnlyByHostOrReset := by
  intro s t h
  obtain ⟨-, e⟩ | ⟨x, rest, henv, e⟩ := step_cases s <;> have h := e.symm.trans h
  · exact .inl (engineStep_move h).ie
  · obtain ⟨-, hm⟩ | ⟨a, rfl, hm⟩ | ⟨ports, rfl⟩ | ⟨rfl, rfl⟩ := turnStep_move h
    · exact .inl hm.ie
    · obtain hie | ⟨w, rfl, hie⟩ := hm.ie
      · exact .inl hie
      · exact .inr (.inl ⟨w, rest, henv, hie⟩)
    · exact .inl rfl
    · exact .inr (.inr ⟨rest, henv, rfl⟩)

/-- Settles O41: the moves of the engine leave STATE or end a run, those of the host leave it or are a START. -/
theorem runStateIsWrittenOnlyByItsCauses : Obligations.RunStateIsWrittenOnlyByItsCauses := by
  intro s t h
  obtain ⟨henv, e⟩ | ⟨x, rest, henv, e⟩ := step_cases s <;> have h := e.symm.trans h
  · obtain hst | hst := (engineStep_move h).state
    · exact .inl hst
    · exact .inr (.inr (.inl ⟨hst, .inl henv⟩))
  · obtain ⟨rfl, hm⟩ | ⟨a, rfl, hm⟩ | ⟨ports, rfl⟩ | ⟨rfl, rfl⟩ := turnStep_move h
    · obtain hst | hst := hm.state
      · exact .inl hst
      · exact .inr (.inr (.inl ⟨hst, .inr ⟨rest, henv⟩⟩))
    · obtain hst | ⟨hst, w, rfl, hw⟩ := hm.state
      · exact .inl hst
      · exact .inr (.inl ⟨hst, w, rest, henv, hw⟩)
    · exact .inl rfl
    · exact .inr (.inr (.inr ⟨rfl, rest, henv⟩))

end Sys2Proof
end

section
/-!
PROOFS. The register block, its codes and its reset (10_state.md R37, R41, R45, R46, R64), and the invariants at reset.
-/

namespace Sys2Proof

/-! ### The codes of children and link references -/

/-- The kind field of a link reference (10_state.md R45). -/
def Link.kindBits : Link → BitVec 2
  | .none => 0#2
  | .root _ => 1#2
  | .left _ => 2#2
  | .right _ => 3#2

/-- The index field of a link reference (10_state.md R45). -/
def Link.indexBits : Link → BitVec 12
  | .none => 0#12
  | .root c => c.setWidth 12
  | .left q => q
  | .right q => q

/-- A root index keeps its eight bits in the index field. -/
theorem setWidth_byte_injective {c c' : Byte} (h : c.setWidth 12 = c'.setWidth 12) : c = c' := by
  bv_omega

/-- Kind and index together fix the reference. -/
theorem Link.eq_of_fields {l l' : Link} (hk : l.kindBits = l'.kindBits) (hi : l.indexBits = l'.indexBits) : l = l' := by
  cases l with
  | none =>
    cases l' with
    | none => rfl
    | _ => cases hk
  | root c =>
    cases l' with
    | root c' => exact congrArg Link.root (setWidth_byte_injective hi)
    | _ => cases hk
  | left q =>
    cases l' with
    | left q' => exact congrArg Link.left hi
    | _ => cases hk
  | right q =>
    cases l' with
    | right q' => exact congrArg Link.right hi
    | _ => cases hk

end Sys2Proof

namespace Sys2Proof.Machine

theorem linkBits_eq_append (l : Link) : linkBits l = l.kindBits ++ l.indexBits := by
  cases l <;> rfl

theorem linkBits_kind (l : Link) : (linkBits l).extractLsb' 12 2 = l.kindBits := by
  rw [linkBits_eq_append, BitVec.extractLsb'_append_eq_left]

theorem linkBits_index (l : Link) : (linkBits l).extractLsb' 0 12 = l.indexBits := by
  rw [linkBits_eq_append, BitVec.extractLsb'_append_eq_right]

theorem linkBits_injective {l l' : Link} (h : linkBits l = linkBits l') : l = l' :=
  Link.eq_of_fields (by rw [← linkBits_kind, h, linkBits_kind]) (by rw [← linkBits_index, h, linkBits_index])

/-- A position's code is the position, below that of NIL, 4096 (10_state.md R46). -/
theorem childBits_some_toNat (q : Pos) : (childBits (some q)).toNat = q.toNat := by
  simp only [childBits]
  bv_omega

theorem childBits_injective {c c' : Child} (h : childBits c = childBits c') : c = c' := by
  have hn := congrArg BitVec.toNat h
  cases c with
  | none =>
    cases c' with
    | none => rfl
    | some q' =>
      rw [childBits_some_toNat] at hn
      exact absurd hn (by have := q'.isLt; simp only [childBits]; bv_omega)
  | some q =>
    rw [childBits_some_toNat] at hn
    cases c' with
    | none => exact absurd hn (by have := q.isLt; simp only [childBits]; bv_omega)
    | some q' =>
      rw [childBits_some_toNat] at hn
      rw [BitVec.eq_of_toNat_eq hn]

/-! ### STATUS -/

/-- A code below `2 ^ k` has no bit at or above `k`. -/
theorem getLsbD_eq_false_of_code_lt {w : Word} {k i : Nat} (hw : w.toNat < 2 ^ k) (hi : k ≤ i) : w.getLsbD i = false :=
  Nat.testBit_lt_two_pow (hw.trans_le (Nat.pow_le_pow_right Nat.two_pos hi))

theorem RunState.code_lt (x : RunState) : x.code.toNat < 2 ^ 2 := by cases x <;> decide

theorem Mode.code_lt (x : Mode) : x.code.toNat < 2 ^ 1 := by cases x <;> decide

theorem ErrCode.code_lt (x : ErrCode) : x.code.toNat < 2 ^ 4 := by cases x <;> decide

/-! ### Refused accesses -/

theorem HostAccess.refusal_cases {a : HostAccess} {r : Refusal} (h : a.refusal = some r) :
    r = .outsideRegisterBlock ∨ r = .notThirtyTwoBits ∨ r = .unaligned := by
  unfold HostAccess.refusal at h
  split at h
  · exact .inl (Option.some.inj h).symm
  · split at h
    · exact .inr (.inl (Option.some.inj h).symm)
    · split at h
      · exact .inr (.inr (Option.some.inj h).symm)
      · cases h

end Sys2Proof.Machine

namespace Sys2Proof

open Sys2Proof.Machine

/-- Settles O8: the code is the kind followed by the index, and both can be read back. -/
theorem linkReferencesHaveDistinctCodes : Obligations.LinkReferencesHaveDistinctCodes := by
  refine ⟨fun l => ⟨?_, ?_⟩, fun _ _ h => linkBits_injective h, fun _ _ h => childBits_injective h⟩
  · rw [linkBits_kind]
    cases l <;> rfl
  · rw [linkBits_index]
    cases l <;> rfl

/-- Settles O44: an access that is taken is 32 bits wide and aligned inside the block, so any other is refused. -/
theorem undefinedHostAccessesAreRefused : Obligations.UndefinedHostAccessesAreRefused := by
  intro s a rest henv hbad
  rw [step_turn henv]
  cases hr : a.refusal with
  | none =>
    have := a.refusal_none_iff.1 hr
    omega
  | some r =>
    have he : turnStep (.host a) { s with env := rest } = .refused r := by simp [turnStep, hostAccess, hr]
    obtain rfl | rfl | rfl := HostAccess.refusal_cases hr
    · exact .inl he
    · exact .inr (.inl he)
    · exact .inr (.inr he)

/-- Settles O45: STATE has two bits, MODE one at bit 2, ERR four at bit 4. -/
theorem reservedStatusBitsReadZero : Obligations.ReservedStatusBitsReadZero := by
  intro r i hi
  have hstate : r.state.code.getLsbD i = false := getLsbD_eq_false_of_code_lt r.state.code_lt (by omega)
  have hmode : r.mode.code.getLsbD (i - 2) = false := getLsbD_eq_false_of_code_lt r.mode.code_lt (by omega)
  have herr : i < 4 ∨ r.err.code.getLsbD (i - 4) = false := by
    obtain h3 | ⟨h8, -⟩ := hi
    · exact .inl (by omega)
    · exact .inr (getLsbD_eq_false_of_code_lt r.err.code_lt (by omega))
  obtain h | h := herr <;> simp [HostRegs.statusWord, BitVec.getLsbD_shiftLeft, hstate, hmode, h]

/-- Settles O47: each value, as the state after reset has it. -/
theorem resetHasTheSpecifiedValues : Obligations.ResetHasTheSpecifiedValues :=
  ⟨rfl, rfl, rfl, rfl, rfl, rfl, rfl, rfl, rfl⟩

/-- Settles O49: no run is in progress, and the memories list no entry. -/
theorem invariantsHoldAtReset : Obligations.InvariantsHoldAtReset where
  status := statusInv_reset
  range := rangeInv_reset
  memory := ⟨rfl, rfl⟩
  mirror hp := absurd rfl hp
  tree hp := by cases hp
  window := ⟨fun hp => (by cases hp), fun hp => (by cases hp), fun hp => (by cases hp)⟩

end Sys2Proof
end

section
/-!
PROOFS. The port events of the engine (20_memory.md R88, R91, R93): a move of the engine does at most one, and IN_COUNT and
OUT_COUNT count them; with no answer from the port it asks the engine holds.
-/

namespace Sys2Proof.Machine

variable {s t u : State}

/-! ### At most one port event a step -/

/-- What a port event changes: the streams and the two counters. -/
def portSide (s : State) : Ports × Word × Word := (s.ports, s.host.inCount, s.host.outCount)

theorem portSide_eq_iff {ports : Ports} {ins outs : Word} :
    portSide t = (ports, ins, outs) ↔ t.ports = ports ∧ t.host.inCount = ins ∧ t.host.outCount = outs := by
  simp [portSide]

theorem portSide_congr (hp : t.ports = s.ports) (hh : t.host = s.host) : portSide t = portSide s := by
  simp [portSide, hp, hh]

/-- What the streams and the counters come to, from `s`, by at most one port event (20_memory.md R88, R91; 10_state.md R39,
R40). -/
inductive PortEvent (s : State) : Ports × Word × Word → Prop
  | none : PortEvent s (portSide s)
  /-- A DATA item is taken. -/
  | data {b : Byte} {rest : List InItem} (hi : s.ports.inStream = .data b :: rest) :
      PortEvent s ({ s.ports with inStream := rest }, s.host.inCount + 1#32, s.host.outCount)
  /-- END or ERR is taken. -/
  | last {x : InItem} {rest : List InItem} (hi : s.ports.inStream = x :: rest) (hx : x = .eos ∨ x = .err) :
      PortEvent s ({ s.ports with inStream := rest }, s.host.inCount, s.host.outCount)
  /-- A byte is accepted. -/
  | accepted (b : Byte) {rest : List SinkAnswer} (hs : s.ports.sink = .ok :: rest) :
      PortEvent s ({ s.ports with sink := rest, outStream := s.ports.outStream ++ [b] }, s.host.inCount,
        s.host.outCount + 1#32)
  /-- A byte is refused. -/
  | refused {rest : List SinkAnswer} (hs : s.ports.sink = .err :: rest) :
      PortEvent s ({ s.ports with sink := rest }, s.host.inCount, s.host.outCount)

theorem preloadExit_portSide (s : State) : portSide (preloadExit s) = portSide s := by
  obtain ⟨-, e⟩ | ⟨-, e⟩ := preloadExit_cases s <;> rw [e]
  rfl

theorem encStepEmit_portSide (s : State) : portSide (encStepEmit s) = portSide s := by
  obtain ⟨-, e⟩ | ⟨-, -, e⟩ | ⟨-, -, e⟩ := encStepEmit_cases s <;> rw [e] <;> rfl

theorem recordMatch_portSide (f : Finder) (s : State) : portSide (recordMatch f s) = portSide s :=
  portSide_congr (recordMatch_ports s f) (recordMatch_host s f)

theorem flushNext_portSide (n : BitVec 5) (s : State) : portSide (flushNext n s) = portSide s := by
  obtain ⟨-, e⟩ | ⟨-, -, e⟩ | ⟨-, -, e⟩ := flushNext_cases n s <;> rw [e] <;> rfl

theorem copyDone_portSide (x : Byte) (s : State) : portSide (copyDone x s) = portSide s :=
  portSide_congr (copyDone_ports s x) (copyDone_host s x)

theorem PreloadRead.portEvent (h : PreloadRead s u) : PortEvent s (portSide u) := by
  cases h with
  | noRead => exact .none
  | data _ hi => exact .data hi
  | ended _ hi => exact .last hi (.inl rfl)

theorem LookaheadRead.portEvent {tr : Tree} (h : LookaheadRead s tr u) : PortEvent s (portSide u) := by
  cases h with
  | noRead => exact .none
  | data _ hi => exact .data hi
  | ended _ hi => exact .last hi (.inl rfl)

/-- A move of the engine does at most one port event, and the counters count it (20_memory.md R88, R91, R93). -/
theorem EngineMove.portEvent (h : EngineMove s t) : PortEvent s (portSide t) := by
  cases h with
  | hold => exact .none
  | inputError _ _ _ hi => exact .last hi (.inr rfl)
  | outputError _ hs => exact .refused hs
  | flushByte _ _ _ hs =>
    rw [flushNext_portSide]
    exact .accepted _ hs
  | preload _ _ hr =>
    rw [preloadExit_portSide]
    exact hr.portEvent
  | encStep _ _ _ _ hr _ =>
    rw [encStepEmit_portSide, recordMatch_portSide]
    exact hr.portEvent
  | finalDone => exact .none
  | finalFlush => exact .none
  | tokenByte _ _ _ hi => exact .data hi
  | streamEnd _ _ hi => exact .last hi (.inl rfl)
  | ctrl => exact .none
  | lit _ _ _ _ hs => exact .accepted _ hs
  | matchTok => exact .none
  | copyByte _ _ _ hs =>
    rw [copyDone_portSide]
    exact .accepted _ hs
  | copyOver => exact .none

/-! ### Holding -/

/-- An unanswered `InRead` holds (20_memory.md R88). -/
theorem inRead_held (hi : s.ports.inStream = []) : inRead s = .held := by simp [inRead, hi]

/-- An unanswered `OutWrite` holds the operation that offers the byte (20_memory.md R91). -/
theorem offer_held (b : Byte) (k : State → State) (hs : s.ports.sink = []) : offer b s k = .next s := by
  simp [offer, outWrite, hs]

theorem preloadStep_held (hi : s.ports.inStream = []) (hl : s.enc.la.toNat < Config.F) (he : s.enc.eos = false) :
    preloadStep s = .next s := by
  simp [preloadStep, preloading, hl, he, inRead_held hi]

theorem encStep_held (hi : s.ports.inStream = []) (hg : encStepInRange s = true) (he : s.enc.eos = false) :
    encStep s = .next s := by
  simp [encStep, hg, encStepHolds_iff.2 ⟨he, hi⟩]

theorem readTokenByte_held (hi : s.ports.inStream = []) : readTokenByte s = .next s := by
  simp [readTokenByte, inRead_held hi]

theorem copyStep_held (hs : s.ports.sink = []) (hr : s.dec.rem ≠ 0#5) : copyStep s = .next s := by
  simp [copyStep, hr, offer_held _ _ hs]

/-- The latch holds no instruction while a byte of its token is missing (30_encoding.md R132). -/
theorem latched_eq_none (hl : s.latch.length < (streamPlace s).size) : latched s = none := by
  obtain ⟨h, -⟩ | ⟨k, rest, hp, hb, -⟩ | ⟨d, rest, hp, hb, -⟩ | ⟨b0, b1, rest, hp, hb, -⟩ := latched_cases s
  · exact h
  all_goals simp [hp, hb, Place.size] at hl

/-- At a literal's place a latch that is not empty holds the literal (30_encoding.md R127). -/
theorem latched_eq_lit (hp : streamPlace s = .literal) (hl : s.latch ≠ []) : ∃ d, latched s = some (.lit d) := by
  obtain ⟨d, rest, hb⟩ := List.exists_cons_of_ne_nil hl
  exact ⟨d, by simp [latched, hp, hb, decode]⟩

theorem AtToken.bit_inRange (h : AtToken s) : ¬ (s.phase = .decToken ∧ 8 ≤ s.dec.bit.toNat) := by
  rintro ⟨hp, h8⟩
  obtain ⟨-, hc | ⟨-, hb⟩⟩ := h
  · cases hc.symm.trans hp
  · omega

theorem engineStep_of_atToken (h : AtToken s) : engineStep s = decodeStep s := by
  obtain ⟨hf, hp | ⟨hp, -⟩⟩ := h <;> simp [engineStep_phase hf, phaseStep, hp]

theorem engineStep_of_waitsForInput (h : WaitsForInput s) : engineStep s = .next s := by
  obtain ⟨hi, hf, ⟨hp, hl, he⟩ | ⟨hp, hg, he⟩ | ⟨ht, hl⟩⟩ := h
  · simp only [engineStep_phase hf, phaseStep, hp, preloadStep_held hi hl he]
  · simp only [engineStep_phase hf, phaseStep, hp, encStep_held hi hg he]
  · rw [engineStep_of_atToken ht, decodeStep_of_not_latched ht.bit_inRange (latched_eq_none hl), readTokenByte_held hi]

theorem engineStep_of_waitsForOutput (h : WaitsForOutput s) : engineStep s = .next s := by
  obtain ⟨hs, ⟨n, hf, hn, hl⟩ | ⟨ht, hp, hl⟩ | ⟨hf, hp, hr⟩⟩ := h
  · rw [engineStep_flush hf, flushStep_inRange hn hl, offer_held _ _ hs]
  · obtain ⟨d, hd⟩ := latched_eq_lit hp hl
    rw [engineStep_of_atToken ht, decodeStep_of_latched ht.bit_inRange hd]
    exact offer_held d (litDone d) hs
  · simp only [engineStep_phase hf, phaseStep, hp, copyStep_held hs hr]

end Sys2Proof.Machine

namespace Sys2Proof

open Sys2Proof.Machine

/-- Settles O35: the port events of the engine's moves, one by one. -/
theorem aStepHasAtMostOnePortEvent : Obligations.AStepHasAtMostOnePortEvent := by
  intro s t h
  have hev := (engineStep_move h).portEvent
  generalize ht : portSide t = p at hev
  cases hev with
  | none => exact .inl (portSide_eq_iff.1 ht)
  | data hi => exact .inr (.inl ⟨_, _, hi, portSide_eq_iff.1 ht⟩)
  | last hi hx => exact .inr (.inr (.inl ⟨_, _, hi, hx, portSide_eq_iff.1 ht⟩))
  | accepted b hs => exact .inr (.inr (.inr (.inl ⟨b, _, hs, portSide_eq_iff.1 ht⟩)))
  | refused hs => exact .inr (.inr (.inr (.inr ⟨_, hs, portSide_eq_iff.1 ht⟩)))

/-- Settles O37: each operation holds at its own unanswered port. -/
theorem anUnansweredPortHoldsTheEngine : Obligations.AnUnansweredPortHoldsTheEngine :=
  fun _ h => h.elim engineStep_of_waitsForInput engineStep_of_waitsForOutput

end Sys2Proof
end

section
/-!
PROOFS. The token and command encodings (30_encoding.md): the bytes of a match token as numbers, the fields of a CMD word,
everything the decoder can read, and that decoding and encoding undo each other.
-/

namespace Sys2Proof

open Sys2Proof.Machine

/-! ### The bytes of a match token as numbers -/

/-- The mask `0xF0` keeps the high nibble of a byte. -/
theorem and_highNibble (n : Nat) : n &&& 0xF0 = n / 16 % 16 * 16 := by
  have hlow : (n &&& 0xF0) % 2 ^ 4 = 0 := by rw [Nat.and_mod_two_pow]; exact Nat.and_zero _
  have hhigh : (n &&& 0xF0) >>> 4 = (n >>> 4) % 2 ^ 4 := by
    rw [Nat.shiftRight_and_distrib]
    exact Nat.and_two_pow_sub_one_eq_mod _ 4
  rw [Nat.shiftRight_eq_div_pow, Nat.shiftRight_eq_div_pow] at hhigh
  omega

/-- The mask `0x0F` keeps the low nibble of a byte. -/
theorem and_lowNibble (n : Nat) : n &&& 0x0F = n % 16 := Nat.and_two_pow_sub_one_eq_mod n 4

/-- `b1[7:4] : b0[7:0]` as a number (30_encoding.md R124). -/
theorem matchPosition_toNat (b0 b1 : Byte) : (matchPosition b0 b1).toNat = b0.toNat + 256 * (b1.toNat / 16) := by
  have h0 := b0.isLt
  have h1 := b1.isLt
  have hm : (b1 &&& 0xF0#8).toNat = b1.toNat / 16 % 16 * 16 := and_highNibble b1.toNat
  unfold matchPosition
  bv_omega

/-- `b1[3:0] + 3` as a number (30_encoding.md R124). -/
theorem matchLength_toNat (b1 : Byte) : (matchLength b1).toNat = b1.toNat % 16 + 3 := by
  have hm : (b1 &&& 0x0F#8).toNat = b1.toNat % 16 := and_lowNibble b1.toNat
  unfold matchLength
  bv_omega

/-- The first byte is the position modulo 256 (30_encoding.md R125). -/
theorem matchByte0_toNat (pos : Pos) : (matchByte0 pos).toNat = pos.toNat % 256 := by
  have hm : (pos &&& 0xFF#12).toNat = pos.toNat % 2 ^ 8 := Nat.and_two_pow_sub_one_eq_mod pos.toNat 8
  unfold matchByte0
  bv_omega

/-- The second byte is the high nibble of the position, then the length less 3 (30_encoding.md R125). -/
theorem matchByte1_toNat (pos : Pos) {len : BitVec 5} (h3 : 3 ≤ len.toNat) (h18 : len.toNat ≤ 18) :
    (matchByte1 pos len).toNat = 16 * (pos.toNat / 256) + (len.toNat - 3) := by
  have hp := pos.isLt
  have hm : ((pos >>> 4) &&& 0xF0#12).toNat = (pos >>> 4).toNat / 16 % 16 * 16 := and_highNibble _
  have hhigh : (((pos >>> 4) &&& 0xF0#12).setWidth 8).toNat = 2 ^ 4 * (pos.toNat / 256) := by bv_omega
  have hlow : ((len - 3#5).setWidth 8).toNat = len.toNat - 3 := by bv_omega
  rw [matchByte1, BitVec.toNat_or, hhigh, hlow, ← Nat.two_pow_add_eq_or_of_lt (by omega)]

theorem matchPosition_matchBytes (pos : Pos) {len : BitVec 5} (h3 : 3 ≤ len.toNat) (h18 : len.toNat ≤ 18) :
    matchPosition (matchByte0 pos) (matchByte1 pos len) = pos := by
  apply BitVec.eq_of_toNat_eq
  rw [matchPosition_toNat, matchByte0_toNat, matchByte1_toNat pos h3 h18]
  omega

theorem matchLength_matchByte1 (pos : Pos) {len : BitVec 5} (h3 : 3 ≤ len.toNat) (h18 : len.toNat ≤ 18) :
    matchLength (matchByte1 pos len) = len := by
  apply BitVec.eq_of_toNat_eq
  rw [matchLength_toNat, matchByte1_toNat pos h3 h18]
  omega

theorem matchByte0_matchPosition (b0 b1 : Byte) : matchByte0 (matchPosition b0 b1) = b0 := by
  apply BitVec.eq_of_toNat_eq
  rw [matchByte0_toNat, matchPosition_toNat]
  omega

theorem matchByte1_matchFields (b0 b1 : Byte) : matchByte1 (matchPosition b0 b1) (matchLength b1) = b1 := by
  obtain ⟨h3, h18⟩ := matchLength_range b1
  apply BitVec.eq_of_toNat_eq
  rw [matchByte1_toNat _ h3 h18, matchPosition_toNat, matchLength_toNat]
  omega

/-! ### The fields of a CMD word -/

@[simp] theorem cmdOp_cmdWord (op : BitVec 4) (ign : BitVec 28) : cmdOp (cmdWord op ign) = op :=
  BitVec.extractLsb'_append_eq_right

@[simp] theorem cmdIgnored_cmdWord (op : BitVec 4) (ign : BitVec 28) : cmdIgnored (cmdWord op ign) = ign :=
  BitVec.extractLsb'_append_eq_left

/-- A CMD word is its ignored field followed by its OP field (10_state.md R33). -/
theorem cmdWord_fields (w : Word) : cmdWord (cmdOp w) (cmdIgnored w) = w :=
  (BitVec.extractLsb'_append_extractLsb'_eq_extractLsb' rfl).trans BitVec.extractLsb'_eq_self

/-- A byte above the lowest one of a concatenation is a byte of its upper part. -/
theorem extractLsb'_append_byte {n : Nat} (k : Nat) (hi : BitVec n) (lo : Byte) :
    (hi ++ lo).extractLsb' (8 + k) 8 = hi.extractLsb' k 8 := by
  rw [BitVec.extractLsb'_append_eq_of_le (Nat.le_add_right 8 k), Nat.add_sub_cancel_left]

/-- A word is written from its four bytes as they stand on the host bus (20_memory.md R83). -/
theorem wordBytes_bytesWord (b0 b1 b2 b3 : Byte) : wordBytes (bytesWord b0 b1 b2 b3) = [b0, b1, b2, b3] := by
  have h0 : (bytesWord b0 b1 b2 b3).extractLsb' 0 8 = b0 := BitVec.extractLsb'_append_eq_right
  have h1 : (bytesWord b0 b1 b2 b3).extractLsb' 8 8 = b1 :=
    (extractLsb'_append_byte 0 _ b0).trans BitVec.extractLsb'_append_eq_right
  have h2 : (bytesWord b0 b1 b2 b3).extractLsb' 16 8 = b2 :=
    (extractLsb'_append_byte 8 _ b0).trans ((extractLsb'_append_byte 0 _ b1).trans BitVec.extractLsb'_append_eq_right)
  have h3 : (bytesWord b0 b1 b2 b3).extractLsb' 24 8 = b3 :=
    (extractLsb'_append_byte 16 _ b0).trans ((extractLsb'_append_byte 8 _ b1).trans BitVec.extractLsb'_append_eq_left)
  rw [wordBytes, h0, h1, h2, h3]

theorem decodeCommand_nop (ign : BitVec 28) : decodeCommand (cmdWord 0#4 ign) = .cmdNop ign := by
  simp [decodeCommand]

theorem decodeCommand_startEncode (ign : BitVec 28) : decodeCommand (cmdWord 1#4 ign) = .cmdStartEncode ign := by
  simp [decodeCommand]

theorem decodeCommand_startDecode (ign : BitVec 28) : decodeCommand (cmdWord 2#4 ign) = .cmdStartDecode ign := by
  simp [decodeCommand]

theorem decodeCommand_reserved {op : BitVec 4} (ign : BitVec 28) (h3 : 3 ≤ op.toNat) :
    decodeCommand (cmdWord op ign) = .cmdReserved op ign := by
  have h0 : op ≠ 0#4 := by bv_omega
  have h1 : op ≠ 1#4 := by bv_omega
  have h2 : op ≠ 2#4 := by bv_omega
  simp [decodeCommand, h0, h1, h2]

/-- The four OP cases of a CMD word (30_encoding.md R131). -/
theorem decodeCommand_cases (w : Word) :
    (cmdOp w = 0#4 ∧ decodeCommand w = .cmdNop (cmdIgnored w)) ∨
    (cmdOp w = 1#4 ∧ decodeCommand w = .cmdStartEncode (cmdIgnored w)) ∨
    (cmdOp w = 2#4 ∧ decodeCommand w = .cmdStartDecode (cmdIgnored w)) ∨
    (3 ≤ (cmdOp w).toNat ∧ decodeCommand w = .cmdReserved (cmdOp w) (cmdIgnored w)) := by
  unfold decodeCommand
  split
  · rename_i h0; exact .inl ⟨h0, rfl⟩
  · split
    · rename_i h1; exact .inr (.inl ⟨h1, rfl⟩)
    · split
      · rename_i h2; exact .inr (.inr (.inl ⟨h2, rfl⟩))
      · exact .inr (.inr (.inr ⟨by bv_omega, rfl⟩))

theorem decodeCommand_wf (w : Word) : (decodeCommand w).wf = true := by
  obtain ⟨-, e⟩ | ⟨-, e⟩ | ⟨-, e⟩ | ⟨h3, e⟩ := decodeCommand_cases w <;> rw [e]
  · rfl
  · rfl
  · rfl
  · exact decide_eq_true h3

theorem decodeCommand_place (w : Word) : (decodeCommand w).place = .command := by
  obtain ⟨-, e⟩ | ⟨-, e⟩ | ⟨-, e⟩ | ⟨-, e⟩ := decodeCommand_cases w <;> rw [e] <;> rfl

theorem encode_decodeCommand (w : Word) : encode (decodeCommand w) = wordBytes w := by
  have hw := cmdWord_fields w
  obtain ⟨h, e⟩ | ⟨h, e⟩ | ⟨h, e⟩ | ⟨-, e⟩ := decodeCommand_cases w <;> rw [e, encode]
  · rw [← h, hw]
  · rw [← h, hw]
  · rw [← h, hw]
  · rw [hw]

/-! ### What the decoder reads -/

/-- Everything the decoder can come to (30_encoding.md R121 to R124, R131, R132, R135). -/
theorem decode_cases (p : Place) (bs : List Byte) :
    (bs.length < p.size ∧ decode p bs = .error .truncated) ∨
    (∃ k rest, p = .control ∧ bs = k :: rest ∧ decode p bs = .ok (.ctrl k, rest)) ∨
    (∃ d rest, p = .literal ∧ bs = d :: rest ∧ decode p bs = .ok (.lit d, rest)) ∨
    (∃ b0 b1 rest, p = .matchSlot ∧ bs = b0 :: b1 :: rest ∧
      decode p bs = .ok (.matchTok (matchPosition b0 b1) (matchLength b1), rest)) ∨
    (∃ b0 b1 b2 b3 rest, p = .command ∧ bs = b0 :: b1 :: b2 :: b3 :: rest ∧
      decode p bs = .ok (decodeCommand (bytesWord b0 b1 b2 b3), rest)) := by
  match p, bs with
  | .control, k :: rest => exact .inr (.inl ⟨k, rest, rfl, rfl, rfl⟩)
  | .literal, d :: rest => exact .inr (.inr (.inl ⟨d, rest, rfl, rfl, rfl⟩))
  | .matchSlot, b0 :: b1 :: rest => exact .inr (.inr (.inr (.inl ⟨b0, b1, rest, rfl, rfl, rfl⟩)))
  | .command, b0 :: b1 :: b2 :: b3 :: rest => exact .inr (.inr (.inr (.inr ⟨b0, b1, b2, b3, rest, rfl, rfl, rfl⟩)))
  | .control, [] | .literal, [] | .matchSlot, [] | .matchSlot, [_] | .command, [] | .command, [_] | .command, [_, _]
  | .command, [_, _, _] => exact .inl ⟨by simp [Place.size], rfl⟩

/-- A CMD word as it is written to the host bus. -/
theorem decode_wordBytes (w : Word) (rest : List Byte) :
    decode .command (wordBytes w ++ rest) = .ok (decodeCommand w, rest) := by
  simp only [wordBytes, List.cons_append, List.nil_append, decode, bytesWord_wordBytes]

/-- What is read takes as many bytes as its place says, whatever they are (30_encoding.md R128, R132). -/
theorem decode_eq_ok_of_size_le {p : Place} {bs : List Byte} (h : p.size ≤ bs.length) :
    ∃ i rest, decode p bs = .ok (i, rest) := by
  obtain ⟨hlt, -⟩ | ⟨k, rest, -, -, e⟩ | ⟨d, rest, -, -, e⟩ | ⟨b0, b1, rest, -, -, e⟩ | ⟨b0, b1, b2, b3, rest, -, -, e⟩ :=
    decode_cases p bs
  · omega
  all_goals exact ⟨_, _, e⟩

/-- Fewer bytes than the encoding takes are rejected (30_encoding.md R132). -/
theorem decode_eq_truncated_of_lt {p : Place} {bs : List Byte} (h : bs.length < p.size) :
    decode p bs = .error .truncated := by
  obtain ⟨-, e⟩ | ⟨k, rest, rfl, rfl, -⟩ | ⟨d, rest, rfl, rfl, -⟩ | ⟨b0, b1, rest, rfl, rfl, -⟩ |
    ⟨b0, b1, b2, b3, rest, rfl, rfl, -⟩ := decode_cases p bs
  · exact e
  all_goals
    simp only [Place.size, List.length_cons] at h
    omega

/-- Settles O1: by the instruction; the fields of a match token and of a CMD word are those its bytes were made from. -/
theorem decodeOfEncodeIsTheInstruction : Obligations.DecodeOfEncodeIsTheInstruction := by
  intro i rest hwf
  cases i with
  | ctrl k => rfl
  | lit d => rfl
  | matchTok pos len =>
    obtain ⟨h3, h18⟩ : 3 ≤ len.toNat ∧ len.toNat ≤ 18 := by simpa [Instr.wf] using hwf
    rw [encode, Instr.place, List.cons_append, List.cons_append, List.nil_append, decode,
      matchPosition_matchBytes pos h3 h18, matchLength_matchByte1 pos h3 h18]
  | cmdNop ign => rw [encode, Instr.place, decode_wordBytes, decodeCommand_nop]
  | cmdStartEncode ign => rw [encode, Instr.place, decode_wordBytes, decodeCommand_startEncode]
  | cmdStartDecode ign => rw [encode, Instr.place, decode_wordBytes, decodeCommand_startDecode]
  | cmdReserved op ign =>
    have h3 : 3 ≤ op.toNat := by simpa [Instr.wf] using hwf
    rw [encode, Instr.place, decode_wordBytes, decodeCommand_reserved ign h3]

/-- Settles O2: by what the decoder can read; the bytes of a match token and of a CMD word are those its fields were taken
from. -/
theorem encodeOfDecodeIsTheBytes : Obligations.EncodeOfDecodeIsTheBytes := by
  intro p bs rest i h
  obtain ⟨-, e⟩ | ⟨k, r, rfl, rfl, e⟩ | ⟨d, r, rfl, rfl, e⟩ | ⟨b0, b1, r, rfl, rfl, e⟩ | ⟨b0, b1, b2, b3, r, rfl, rfl, e⟩ :=
    decode_cases p bs <;> cases e.symm.trans h
  · exact ⟨rfl, rfl, rfl⟩
  · exact ⟨rfl, rfl, rfl⟩
  · obtain ⟨h3, h18⟩ := matchLength_range b1
    refine ⟨by simp [Instr.wf, h3, h18], rfl, ?_⟩
    rw [encode, matchByte0_matchPosition, matchByte1_matchFields]
    rfl
  · refine ⟨decodeCommand_wf _, decodeCommand_place _, ?_⟩
    rw [encode_decodeCommand, wordBytes_bytesWord]
    rfl

/-- Settles O3: shorter lists are rejected, and any other is read. -/
theorem onlyMissingBytesAreRejected : Obligations.OnlyMissingBytesAreRejected := by
  intro p bs
  refine ⟨⟨fun h => ?_, decode_eq_truncated_of_lt⟩, fun ⟨i, rest, h⟩ => ?_, decode_eq_ok_of_size_le⟩
  · by_contra hlt
    obtain ⟨i, rest, e⟩ := decode_eq_ok_of_size_le (Nat.le_of_not_lt hlt)
    cases h.symm.trans e
  · by_contra hle
    cases h.symm.trans (decode_eq_truncated_of_lt (Nat.lt_of_not_le hle))

/-- Settles O4: the quoted formulas and the fields give the same numbers. -/
theorem matchOperandsAreTheTokenFields : Obligations.MatchOperandsAreTheTokenFields := by
  intro b0 b1
  obtain ⟨h3, h18⟩ := matchLength_range b1
  have hpos := matchPosition_toNat b0 b1
  have hlen := matchLength_toNat b1
  have h1 := b1.isLt
  refine ⟨matchPosition b0 b1, matchLength b1, rfl, ?_, ?_, ?_, ?_, h3, h18⟩
  · rw [hpos, and_highNibble, Nat.shiftLeft_eq]
    omega
  · rw [hlen, and_lowNibble]
  · apply BitVec.eq_of_toNat_eq
    rw [hpos, BitVec.toNat_append, BitVec.extractLsb'_toNat, ← Nat.shiftLeft_add_eq_or_of_lt b0.isLt, Nat.shiftLeft_eq,
      Nat.shiftRight_eq_div_pow]
    omega
  · have hfield : (b1.extractLsb' 0 4).toNat = b1.toNat % 16 := BitVec.extractLsb'_toNat 0 4 b1
    bv_omega

/-- Settles O5: each word, as the decoder reads it. -/
theorem wordsOfTheTableDecodeAsWritten : Obligations.WordsOfTheTableDecodeAsWritten :=
  ⟨rfl, rfl, rfl, rfl, rfl, rfl, rfl, rfl⟩

/-! ### The control byte of a block -/

theorem Instr.isLit_iff {i : Instr} : i.isLit = true ↔ ∃ d, i = .lit d := by
  cases i <;> simp [Instr.isLit]

/-- The bit a token adds to the control byte at its number `n` (30_encoding.md R134). -/
theorem getLsbD_literalBit {i : Instr} {n t : Nat} (ht : t < 8) :
    (if i.isLit then 1#8 <<< n else 0#8).getLsbD t = true ↔ t = n ∧ ∃ d, i = .lit d := by
  by_cases hi : i.isLit = true
  · rw [if_pos hi, ← BitVec.twoPow_eq, BitVec.getLsbD_twoPow]
    simp only [Instr.isLit_iff.1 hi, Bool.and_eq_true, decide_eq_true_eq, and_true]
    omega
  · rw [if_neg hi]
    simpa using fun _ d e => hi (Instr.isLit_iff.2 ⟨d, e⟩)

/-- In a control byte whose first token has number `n`, bit `t` is 1 exactly for a literal `t - n` tokens on (30_encoding.md
R134). -/
theorem getLsbD_controlByteFrom {ts : List Instr} {n t : Nat} (ht : t < 8) :
    (controlByteFrom n ts).getLsbD t = true ↔ n ≤ t ∧ ∃ d, ts[t - n]? = some (.lit d) := by
  induction ts generalizing n with
  | nil => simp [controlByteFrom]
  | cons i ts ih =>
    rw [controlByteFrom, BitVec.getLsbD_or, Bool.or_eq_true, getLsbD_literalBit ht, ih]
    obtain hlt | rfl | hgt := Nat.lt_trichotomy t n
    · omega
    · simp
    · rw [show t - n = t - (n + 1) + 1 by omega, List.getElem?_cons_succ]
      simp [hgt.ne', hgt.le, Nat.succ_le_of_lt hgt]

/-- Settles O7: the control byte of a block counts its tokens from 0. -/
theorem controlBitsAreTheTokenKinds : Obligations.ControlBitsAreTheTokenKinds := by
  intro ts t _ _ ht
  rw [controlByte, getLsbD_controlByteFrom ht]
  simp

end Sys2Proof
end

section
/-!
PROOFS. A step of a decode run always answers (30_encoding.md R128; 43_decoder.md R284): no instruction stops, and with the
registers in range neither does the token fetch.
-/

namespace Sys2Proof.Machine

variable {s : State}

theorem offer_answers (b : Byte) (s : State) (k : State → State) : Answers (offer b s k) := by
  obtain ⟨-, e⟩ | ⟨rest, -, e⟩ | ⟨rest, -, e⟩ := offer_cases b s k <;> exact ⟨_, e⟩

theorem readTokenByte_answers (s : State) : Answers (readTokenByte s) := by
  obtain ⟨-, e⟩ | ⟨b, rest, -, e⟩ | ⟨rest, -, e⟩ | ⟨rest, -, e⟩ := readTokenByte_cases s <;> exact ⟨_, e⟩

/-- No instruction stops the machine, in any state. -/
theorem exec_answers (i : Instr) (s : State) : Answers (exec i s) := by
  cases i with
  | ctrl k => exact ⟨_, rfl⟩
  | lit d => exact offer_answers d s (litDone d)
  | matchTok pos len => exact ⟨_, rfl⟩
  | cmdNop ign => exact ⟨_, rfl⟩
  | cmdStartEncode ign =>
    show Answers (execCmdStartEncode ign s)
    unfold execCmdStartEncode
    split <;> exact ⟨_, rfl⟩
  | cmdStartDecode ign =>
    show Answers (execCmdStartDecode ign s)
    unfold execCmdStartDecode
    split <;> exact ⟨_, rfl⟩
  | cmdReserved op ign => exact ⟨_, rfl⟩

theorem copyStep_answers (s : State) : Answers (copyStep s) := by
  unfold copyStep
  split
  · exact ⟨_, rfl⟩
  · exact offer_answers _ s _

/-- The token fetch stops only at a control bit index beyond 7 (43_decoder.md R275; log entry 12). -/
theorem decodeStep_answers (hb : s.phase = .decToken → s.dec.bit.toNat < 8) : Answers (decodeStep s) := by
  obtain ⟨hp, h8, -⟩ | ⟨-, ⟨-, e⟩ | ⟨i, -, e⟩⟩ := decodeStep_cases s
  · have := hb hp
    omega
  · rw [e]
    exact readTokenByte_answers s
  · rw [e]
    exact exec_answers i s

end Sys2Proof.Machine

namespace Sys2Proof

open Sys2Proof.Machine

/-- Settles O57: a decode run has no FLUSH in progress and its control bit index in range, so its step is a token fetch or a
byte of a copy, and each answers. -/
theorem noTokenMakesTheReplayEngineFault : Obligations.NoTokenMakesTheReplayEngineFault := by
  intro s hs hr hd
  obtain e | e := engineStep_decoding hd (hs.flush_none hd)
  · rw [e]
    exact decodeStep_answers fun hp => hr.tokenBit (.inl hp)
  · rw [e]
    exact copyStep_answers s

end Sys2Proof
end

section
/-!
PROOFS. The padding mirrors slots 0 to 15 (40_ring_buffer.md R166, R168): the engine changes the ring by RB_WRITE only, which
writes both copies of a slot, and RB_FILL begins every run.
-/

namespace Sys2Proof.Machine

variable {s t u : State} {m : Ring}

/-! ### Mirrored rings -/

/-- The padding of the ring equals slots `0..F-1` (40_ring_buffer.md R166). -/
def Mirrored (m : Ring) : Prop := ∀ k, k < Config.F → rbReadPhys (Config.N + k) m = rbReadPhys k m

/-- Outside IDLE, the mirror invariant says that the ring is mirrored. -/
theorem mirrorInv_iff : MirrorInv s ↔ (s.phase ≠ .idle → Mirrored s.ring) := Iff.rfl

theorem mirrored_rbFill : Mirrored rbFill := fun _ _ => rfl

/-- Slot `k` below `F` and its padding copy are written by the same RB_WRITEs, those of position `k` (40_ring_buffer.md
R162). -/
theorem Mirrored.after_rbWrite (h : Mirrored m) (hm : Memory.wf m = true) (p : Pos) (b : Byte) :
    Mirrored (rbWrite p b m) := by
  intro k hk
  have hp := p.isLt
  simp only [Config.F] at hk
  have hpad : (Config.N + k = p.toNat ∨ p.toNat < Config.F ∧ Config.N + k = Config.N + p.toNat) ↔ k = p.toNat := by
    simp only [Config.N, Config.F]; omega
  have hslot : (k = p.toNat ∨ p.toNat < Config.F ∧ k = Config.N + p.toNat) ↔ k = p.toNat := by
    simp only [Config.N, Config.F]; omega
  rw [rbReadPhys_rbWrite p b _ hm, rbReadPhys_rbWrite p b _ hm, h k hk]
  simp only [hpad, hslot]

/-- A physical index of a mirrored ring reads the ring position it stands for (40_ring_buffer.md R168). -/
theorem Mirrored.rbReadPhys_mod (h : Mirrored m) {q : Nat} (hq : q < Config.slots) :
    rbReadPhys (q % Config.N) m = rbReadPhys q m := by
  simp only [Config.slots, Config.N] at hq ⊢
  by_cases hlow : q < 4096
  · rw [Nat.mod_eq_of_lt hlow]
  · obtain ⟨k, rfl⟩ := Nat.exists_eq_add_of_le (Nat.le_of_not_lt hlow)
    rw [Nat.add_mod_left, Nat.mod_eq_of_lt (by omega)]
    exact (h k (by simp only [Config.F]; omega)).symm

/-! ### What the engine does to the ring -/

theorem PreloadRead.ring (h : PreloadRead s u) : u.ring = s.ring ∨ ∃ p b, u.ring = rbWrite p b s.ring := by
  cases h with
  | noRead => exact .inl rfl
  | data => exact .inr ⟨_, _, rfl⟩
  | ended => exact .inl rfl

theorem LookaheadRead.ring {tr : Tree} (h : LookaheadRead s tr u) :
    u.ring = s.ring ∨ ∃ p b, u.ring = rbWrite p b s.ring := by
  cases h with
  | noRead => exact .inl rfl
  | data => exact .inr ⟨_, _, rfl⟩
  | ended => exact .inl rfl

theorem preloadExit_ring (s : State) : (preloadExit s).ring = s.ring := by
  obtain ⟨-, e⟩ | ⟨-, e⟩ := preloadExit_cases s <;> rw [e]

theorem encStepEmit_ring (s : State) : (encStepEmit s).ring = s.ring := by
  obtain ⟨-, e⟩ | ⟨-, -, e⟩ | ⟨-, -, e⟩ := encStepEmit_cases s <;> rw [e] <;> rfl

theorem flushNext_ring (n : BitVec 5) (s : State) : (flushNext n s).ring = s.ring := by
  obtain ⟨-, e⟩ | ⟨-, -, e⟩ | ⟨-, -, e⟩ := flushNext_cases n s <;> rw [e] <;> rfl

/-- A move of the engine keeps the ring or is one RB_WRITE to it. -/
theorem EngineMove.ring (h : EngineMove s t) : t.ring = s.ring ∨ ∃ p b, t.ring = rbWrite p b s.ring := by
  cases h with
  | hold => exact .inl rfl
  | inputError => exact .inl rfl
  | outputError => exact .inl rfl
  | flushByte => exact .inl (flushNext_ring _ _)
  | preload _ _ hr =>
    rw [preloadExit_ring]
    exact hr.ring
  | encStep _ _ _ _ hr =>
    rw [encStepEmit_ring, recordMatch_ring]
    exact hr.ring
  | finalDone => exact .inl rfl
  | finalFlush => exact .inl rfl
  | tokenByte => exact .inl rfl
  | streamEnd => exact .inl rfl
  | ctrl => exact .inl rfl
  | lit => exact .inr ⟨_, _, rfl⟩
  | matchTok => exact .inl rfl
  | copyByte => exact .inr ⟨_, _, copyDone_ring _ _⟩
  | copyOver => exact .inl rfl

/-- In IDLE the engine only waits: no FLUSH is in progress there, and each other move belongs to a phase of a run
(60_exceptions.md R365). -/
theorem EngineMove.eq_of_idle (h : EngineMove s t) (hs : StatusInv s) (hp : s.phase = .idle) : t = s := by
  have hf : s.flush = none := by
    by_contra hn
    simpa [hp] using hs.flush hn
  cases h with
  | hold => rfl
  | _ => simp_all

/-! ### Every move -/

theorem MirrorInv.engineMove (h : MirrorInv s) (hs : StatusInv s) (hm : MemoryInv s) (hmove : EngineMove s t) :
    MirrorInv t := by
  by_cases hp : s.phase = .idle
  · rwa [hmove.eq_of_idle hs hp]
  · refine mirrorInv_iff.2 fun _ => ?_
    have hring : Mirrored s.ring := mirrorInv_iff.1 h hp
    obtain e | ⟨p, b, e⟩ := hmove.ring <;> rw [e]
    · exact hring
    · exact hring.after_rbWrite hm.ring p b

/-- Every move keeps the mirror. It needs the status invariant for IDLE, where nothing is known of the ring, and the canonical
form for what RB_WRITE leaves to be read. -/
theorem mirrorInv_kept : KeptByMoves fun s => StatusInv s ∧ MemoryInv s ∧ MirrorInv s where
  agents s ports env data ie := fun ⟨hs, hm, h⟩ =>
    ⟨statusInv_kept.agents s ports env data ie hs, memoryInv_kept.agents s ports env data ie hm, h⟩
  engine _ _ := fun ⟨hs, hm, h⟩ hmove => ⟨hs.engineMove hmove, hm.engineMove hmove, h.engineMove hs hm hmove⟩
  startEncode s := fun ⟨hs, hm, _⟩ hb =>
    ⟨statusInv_kept.startEncode s hs hb, memoryInv_kept.startEncode s hm hb, fun _ => mirrored_rbFill⟩
  startDecode s := fun ⟨hs, hm, _⟩ hb =>
    ⟨statusInv_kept.startDecode s hs hb, memoryInv_kept.startDecode s hm hb, fun _ => mirrored_rbFill⟩
  reset s := fun ⟨_, hm, _⟩ => ⟨statusInv_resetEvent s, hm.resetEvent, fun hp => absurd rfl hp⟩

end Sys2Proof.Machine

namespace Sys2Proof

open Sys2Proof.Machine

/-- Settles O53: the engine writes the ring by RB_WRITE only, a START fills it, and a reset leaves the block in IDLE. -/
theorem paddingStaysAMirror : Obligations.PaddingStaysAMirror := by
  intro s t hs hm h hstep
  obtain ⟨-, -, ht⟩ := mirrorInv_kept.step ⟨hs, hm, h⟩ hstep
  exact ht

/-- Settles O54: an index below `N` is its own ring position, one from `N` on is the padding copy of it. -/
theorem scansReadTheRingModuloN : Obligations.ScansReadTheRingModuloN := by
  intro s q h hp hq
  have hmirror : Mirrored s.ring := mirrorInv_iff.1 h hp
  have hpos : (BitVec.ofNat 12 (q % 4096)).toNat = q % 4096 := by
    rw [BitVec.toNat_ofNat]
    exact Nat.mod_mod q 4096
  rw [rbRead, hpos]
  exact (hmirror.rbReadPhys_mod hq).symm

end Sys2Proof
end

section
/-!
PROOFS. The links as trees (41_match_tree.md R180, R198): what a sound tree says of its cells and its members, in a form that
does not tell LEFT from RIGHT, and the three changes of links that keep it sound.
-/

namespace Sys2Proof

variable {q : Pos} {l : Link}

/-- The position whose child field a link reference names, if it names one (10_state.md R45). -/
def Link.owner : Link → Option Pos
  | .none => Option.none
  | .root _ => Option.none
  | .left q => some q
  | .right q => some q

@[simp] theorem Link.owner_none : Link.none.owner = Option.none := rfl
@[simp] theorem Link.owner_root (b : Byte) : (Link.root b).owner = Option.none := rfl
@[simp] theorem Link.owner_left (q : Pos) : (Link.left q).owner = some q := rfl
@[simp] theorem Link.owner_right (q : Pos) : (Link.right q).owner = some q := rfl

theorem Link.owner_eq_some_iff : l.owner = some q ↔ l = .left q ∨ l = .right q := by
  cases l <;> simp

theorem Link.ne_none_of_owner (h : l.owner = some q) : l ≠ .none := fun e => by simp [e] at h

/-- A link reference with its position renamed. -/
def Link.relabel (σ : Pos → Pos) : Link → Link
  | .none => .none
  | .root b => .root b
  | .left q => .left (σ q)
  | .right q => .right (σ q)

@[simp] theorem Link.relabel_none (σ : Pos → Pos) : Link.none.relabel σ = .none := rfl
@[simp] theorem Link.relabel_left (σ : Pos → Pos) (q : Pos) : (Link.left q).relabel σ = .left (σ q) := rfl
@[simp] theorem Link.relabel_right (σ : Pos → Pos) (q : Pos) : (Link.right q).relabel σ = .right (σ q) := rfl

@[simp] theorem Link.relabel_eq_none_iff (σ : Pos → Pos) : l.relabel σ = .none ↔ l = .none := by
  cases l <;> simp [Link.relabel]

@[simp] theorem Link.owner_relabel (σ : Pos → Pos) : (l.relabel σ).owner = l.owner.map σ := by
  cases l <;> rfl

theorem Link.relabel_relabel {σ : Pos → Pos} (hσ : Function.Involutive σ) : (l.relabel σ).relabel σ = l := by
  cases l <;> simp [Link.relabel, hσ _]

/-- A renaming that leaves the owner leaves the reference. -/
theorem Link.relabel_of_owner {σ : Pos → Pos} (h : ∀ q, l.owner = some q → σ q = q) : l.relabel σ = l := by
  cases l <;> simp_all [Link.relabel]

end Sys2Proof

namespace Sys2Proof.Machine

variable {t t1 : Tree} {i j q r z : Pos} {l : Link} {c : Child} {rank : Pos → Nat}

/-! ### Cells and their owners -/

@[simp] theorem Tree.linkGet_root (b : Byte) : t.linkGet (.root b) = t.rootAt b := rfl
@[simp] theorem Tree.linkGet_left (q : Pos) : t.linkGet (.left q) = t.leftOf q := rfl
@[simp] theorem Tree.linkGet_right (q : Pos) : t.linkGet (.right q) = t.rightOf q := rfl

/-- A cell is live if it is a root entry or its owner is a member. -/
theorem Tree.live_iff : t.live l ↔ l ≠ .none ∧ ∀ r, l.owner = some r → t.parentOf r ≠ .none := by
  cases l <;> simp [Tree.live]

theorem Tree.ne_none_of_live (h : t.live l) : l ≠ .none := (Tree.live_iff.1 h).1

theorem Tree.live_of_owner (ho : l.owner = some q) (hq : t.parentOf q ≠ .none) : t.live l := by
  obtain rfl | rfl := Link.owner_eq_some_iff.1 ho <;> exact hq

/-- Ranks that rise along every child link (41_match_tree.md R180). -/
def Tree.RankedBy (t : Tree) (rank : Pos → Nat) : Prop := ∀ q r, (t.parentOf q).owner = some r → rank r < rank q

theorem Tree.Sound.of_ranked (up : ∀ q, t.parentOf q ≠ .none → t.live (t.parentOf q) ∧ t.linkGet (t.parentOf q) = some q)
    (down : ∀ l q, t.live l → t.linkGet l = some q → t.parentOf q = l) (hrank : t.RankedBy rank) : t.Sound :=
  ⟨up, down, rank, fun q r h => hrank q r (Link.owner_eq_some_iff.2 h)⟩

theorem Tree.Sound.exists_rankedBy (h : t.Sound) : ∃ rank, t.RankedBy rank := by
  obtain ⟨rank, hrank⟩ := h.ranked
  exact ⟨rank, fun q r ho => hrank q r (Link.owner_eq_some_iff.1 ho)⟩

/-! ### What a sound tree says -/

theorem Tree.Sound.live_parent (h : t.Sound) (hq : t.parentOf q ≠ .none) : t.live (t.parentOf q) := (h.up q hq).1

theorem Tree.Sound.linkGet_parent (h : t.Sound) (hq : t.parentOf q ≠ .none) : t.linkGet (t.parentOf q) = some q :=
  (h.up q hq).2

/-- A position that a live cell points at is a member. -/
theorem Tree.Sound.member (h : t.Sound) (hl : t.live l) (hg : t.linkGet l = some q) : t.parentOf q ≠ .none := by
  rw [h.down l q hl hg]
  exact Tree.ne_none_of_live hl

/-- No two members have the same parent reference. -/
theorem Tree.Sound.parent_injective (h : t.Sound) (hq : t.parentOf q ≠ .none) (e : t.parentOf q = t.parentOf r) : q = r := by
  have hr : t.parentOf r ≠ .none := e ▸ hq
  have hg := h.linkGet_parent hq
  rw [e, h.linkGet_parent hr] at hg
  exact (Option.some.inj hg).symm

/-- The owner of a member's parent reference is a member too. -/
theorem Tree.Sound.owner_member (h : t.Sound) (ho : (t.parentOf q).owner = some r) : t.parentOf r ≠ .none :=
  (Tree.live_iff.1 (h.live_parent (Link.ne_none_of_owner ho))).2 r ho

/-- No node is its own parent. -/
theorem Tree.Sound.owner_ne_self (h : t.Sound) (q : Pos) : (t.parentOf q).owner ≠ some q := by
  obtain ⟨rank, hrank⟩ := h.exists_rankedBy
  exact fun ho => lt_irrefl _ (hrank q q ho)

/-- A live cell points at a position exactly where it is that position's parent reference. -/
theorem Tree.Sound.linkGet_iff (h : t.Sound) (hl : t.live l) : t.linkGet l = some q ↔ t.parentOf q = l := by
  refine ⟨h.down l q hl, ?_⟩
  rintro rfl
  exact h.linkGet_parent (Tree.ne_none_of_live hl)

theorem Tree.Sound.leftOf_iff (h : t.Sound) (hq : t.parentOf q ≠ .none) : t.leftOf q = some r ↔ t.parentOf r = .left q :=
  h.linkGet_iff (l := .left q) hq

theorem Tree.Sound.rightOf_iff (h : t.Sound) (hq : t.parentOf q ≠ .none) :
    t.rightOf q = some r ↔ t.parentOf r = .right q :=
  h.linkGet_iff (l := .right q) hq

/-- A tree with the same parents and the same live cells is as sound. -/
theorem Tree.Sound.congr (h : t.Sound) (hp : ∀ q, t1.parentOf q = t.parentOf q)
    (hg : ∀ l, t.live l → t1.linkGet l = t.linkGet l) : t1.Sound := by
  have hlive : ∀ l, t1.live l ↔ t.live l := fun l => by simp only [Tree.live_iff, hp]
  obtain ⟨rank, hrank⟩ := h.exists_rankedBy
  refine .of_ranked (rank := rank) (fun q hq => ?_) (fun l q hl hq => ?_) (fun q r ho => hrank q r (hp q ▸ ho))
  · rw [hp] at hq ⊢
    rw [hlive, hg _ (h.live_parent hq)]
    exact h.up q hq
  · rw [hlive] at hl
    rw [hp]
    exact h.down l q hl (hg l hl ▸ hq)

/-- The positions of a lower rank than `q`. -/
def lowerRanked (rank : Pos → Nat) (q : Pos) : Finset (Fin 4096) :=
  Finset.univ.filter fun x => rank (BitVec.ofFin x) < rank q

theorem mem_lowerRanked {x : Fin 4096} : x ∈ lowerRanked rank q ↔ rank (BitVec.ofFin x) < rank q := by
  simp [lowerRanked]

/-- There are `N` positions, so ranks below `N` serve too: the number of positions of a lower rank. -/
theorem Tree.Sound.exists_rank_lt (h : t.Sound) : ∃ rank : Pos → Nat, (∀ q, rank q < 4096) ∧ t.RankedBy rank := by
  obtain ⟨rank, hrank⟩ := h.exists_rankedBy
  have hself : ∀ q : Pos, q.toFin ∉ lowerRanked rank q := fun q => by simp [mem_lowerRanked]
  refine ⟨fun q => (lowerRanked rank q).card, fun q => ?_, fun q r ho => Finset.card_lt_card ?_⟩
  · simpa using Finset.card_lt_univ_of_notMem (hself q)
  · have hlt := hrank q r ho
    refine (Finset.ssubset_iff_of_subset fun x hx => ?_).2 ⟨r.toFin, mem_lowerRanked.2 hlt, hself r⟩
    exact mem_lowerRanked.2 ((mem_lowerRanked.1 hx).trans hlt)

/-! ### A new leaf -/

/-- `t1` is `t` with `i` in the cell `l` (41_match_tree.md R194). -/
structure Tree.Attached (i : Pos) (l : Link) (t t1 : Tree) : Prop where
  cells : ∀ l', t1.linkGet l' = if l' = l then some i else t.linkGet l'
  parents : ∀ q, t1.parentOf q = if q = i then l else t.parentOf q

/-- Exactly `i` comes in. -/
theorem Tree.Attached.member (ha : Tree.Attached i l t t1) (hl : l ≠ .none) (q : Pos) :
    t1.parentOf q ≠ .none ↔ q = i ∨ t.parentOf q ≠ .none := by
  by_cases hq : q = i <;> simp [ha.parents, hq, hl]

/-- A new leaf at an empty live cell leaves a tree. -/
theorem Tree.Sound.attached (h : t.Sound) (hi : t.parentOf i = .none)
    (hleaf : ∀ l', l'.owner = some i → t.linkGet l' = none) (hl : t.live l) (hfree : t.linkGet l = none)
    (ha : Tree.Attached i l t t1) : t1.Sound := by
  have hmem := ha.member (Tree.ne_none_of_live hl)
  have hlive : ∀ l', t1.live l' ↔ l'.owner = some i ∨ t.live l' := fun l' => by
    simp only [Tree.live_iff, hmem]
    grind [Link.ne_none_of_owner]
  have hchild : ∀ q, (t.parentOf q).owner ≠ some i := fun q ho => h.owner_member ho hi
  obtain ⟨hcells, hparents⟩ := ha
  obtain ⟨rank, hrank⟩ := h.exists_rankedBy
  refine .of_ranked (rank := Function.update rank i (1 + l.owner.elim 0 rank)) (fun q hq => ?_) (fun l' q hl' hq => ?_)
    (fun q r ho => ?_)
  · by_cases hqi : q = i
    · have hp : t1.parentOf q = l := by simp [hparents, hqi]
      rw [hp, hlive]
      exact ⟨.inr hl, by simp [hcells, hqi]⟩
    · have hp : t1.parentOf q = t.parentOf q := by simp [hparents, hqi]
      have hq' := ((hmem q).1 hq).resolve_left hqi
      have hne : t.parentOf q ≠ l := fun e => by simpa [e, hfree] using h.linkGet_parent hq'
      rw [hp, hlive]
      exact ⟨.inr (h.live_parent hq'), by simp [hcells, hne, h.linkGet_parent hq']⟩
  · by_cases hll : l' = l
    · obtain rfl : i = q := by simpa [hcells, hll] using hq
      simp [hparents, hll]
    · have hq' : t.linkGet l' = some q := by simpa [hcells, hll] using hq
      have hold := ((hlive l').1 hl').resolve_left fun ho => by simp [hleaf l' ho] at hq'
      have hqi : q ≠ i := fun e => h.member hold hq' (e ▸ hi)
      simpa [hparents, hqi] using h.down l' q hold hq'
  · have hri : r ≠ i := by
      rintro rfl
      by_cases hqr : q = r
      · exact (Tree.live_iff.1 hl).2 r (by simpa [hparents, hqr] using ho) hi
      · exact hchild q (by simpa [hparents, hqr] using ho)
    by_cases hqi : q = i
    · have ho' : l.owner = some r := by simpa [hparents, hqi] using ho
      simp [hqi, hri, ho']
    · simpa [hqi, hri] using hrank q r (by simpa [hparents, hqi] using ho)

/-! ### One node in the place of another -/

/-- `t1` is `t` with `i` in the place of `j`: at its link and with its children; `j` is in no tree (41_match_tree.md R193). -/
structure Tree.Replaced (i j : Pos) (t t1 : Tree) : Prop where
  cells : ∀ l, t1.linkGet l =
    if l = t.parentOf j then some i else if l = .left i then t.leftOf j else if l = .right i then t.rightOf j
    else t.linkGet l
  parents : ∀ q, t1.parentOf q =
    if q = j then .none else if q = i then t.parentOf j else if t.leftOf j = some q then .left i
    else if t.rightOf j = some q then .right i else t.parentOf q

/-- Exactly `i` comes in and exactly `j` leaves. -/
theorem Tree.Sound.replaced_member (h : t.Sound) (hj : t.parentOf j ≠ .none) (hr : Tree.Replaced i j t t1) (q : Pos) :
    t1.parentOf q ≠ .none ↔ q ≠ j ∧ (q = i ∨ t.parentOf q ≠ .none) := by
  have hleft := h.leftOf_iff (r := q) hj
  have hright := h.rightOf_iff (r := q) hj
  rw [hr.parents]
  grind

/-- A tree whose positions are renamed, one for one, is a tree. -/
theorem Tree.Sound.relabel {σ : Pos → Pos} (h : t.Sound) (hσ : Function.Involutive σ)
    (hp : ∀ q, t1.parentOf q = (t.parentOf (σ q)).relabel σ)
    (hg : ∀ l, t.live (l.relabel σ) → t1.linkGet l = (t.linkGet (l.relabel σ)).map σ) : t1.Sound := by
  have hlive : ∀ l, t1.live l ↔ t.live (l.relabel σ) := fun l => by
    simp only [Tree.live_iff, hp, ne_eq, Link.relabel_eq_none_iff, Link.owner_relabel, Option.map_eq_some_iff]
    refine and_congr_right fun _ => ⟨?_, fun ho r hr => ho (σ r) ⟨r, hr, rfl⟩⟩
    rintro ho _ ⟨r, hr, rfl⟩
    exact ho r hr
  obtain ⟨rank, hrank⟩ := h.exists_rankedBy
  refine .of_ranked (rank := fun q => rank (σ q)) (fun q hq => ?_) (fun l q hl hq => ?_) (fun q r ho => ?_)
  · rw [hp, ne_eq, Link.relabel_eq_none_iff] at hq
    have hlq : t.live (((t.parentOf (σ q)).relabel σ).relabel σ) := by
      rw [Link.relabel_relabel hσ]
      exact h.live_parent hq
    rw [hp, hlive, hg _ hlq, Link.relabel_relabel hσ, h.linkGet_parent hq, Option.map_some, hσ q]
    exact ⟨h.live_parent hq, rfl⟩
  · rw [hlive] at hl
    rw [hg l hl, Option.map_eq_some_iff] at hq
    obtain ⟨q0, hq0, rfl⟩ := hq
    rw [hp, hσ q0, h.down _ q0 hl hq0, Link.relabel_relabel hσ]
  · rw [hp, Link.owner_relabel, Option.map_eq_some_iff] at ho
    obtain ⟨r0, hr0, rfl⟩ := ho
    simpa [hσ r0] using hrank _ r0 hr0

/-- Putting a position in the place of a member leaves a tree: the two change names. -/
theorem Tree.Sound.replaced (h : t.Sound) (hi : t.parentOf i = .none) (hj : t.parentOf j ≠ .none)
    (hr : Tree.Replaced i j t t1) : t1.Sound := by
  have hchild : ∀ q, (t.parentOf q).owner ≠ some i := fun q ho => h.owner_member ho hi
  have hself := h.owner_ne_self j
  have hfix : ∀ q, q ≠ i → q ≠ j → Equiv.swap i j q = q := fun q => Equiv.swap_apply_of_ne_of_ne
  have hlink : ∀ l : Link, l.owner ≠ some i → l.owner ≠ some j → l.relabel (Equiv.swap i j) = l := fun l hli hlj =>
    Link.relabel_of_owner fun r ho => hfix r (fun e => hli (e ▸ ho)) (fun e => hlj (e ▸ ho))
  have hget : ∀ l, t.live l → l ≠ t.parentOf j → (t.linkGet l).map (Equiv.swap i j) = t.linkGet l := fun l hl hlj => by
    cases hq : t.linkGet l with
    | none => rfl
    | some q =>
      have hqj : q ≠ j := fun e => hlj (e ▸ (h.down l q hl hq).symm)
      have hqi : q ≠ i := fun e => h.member hl hq (e ▸ hi)
      simp [hfix q hqi hqj]
  refine h.relabel (σ := Equiv.swap i j) (Equiv.swap_apply_self i j) (fun q => ?_) (fun l hl => ?_)
  · rw [hr.parents]
    by_cases hqj : q = j
    · simp [hqj, hi]
    by_cases hqi : q = i
    · rw [if_neg hqj, if_pos hqi, hqi, Equiv.swap_apply_left, hlink _ (hchild j) hself]
    simp only [hqj, hqi, if_false, hfix q hqi hqj, h.leftOf_iff hj, h.rightOf_iff hj]
    split
    · simp [*]
    split
    · simp [*]
    · exact (hlink _ (hchild q) fun ho => (Link.owner_eq_some_iff.1 ho).elim ‹_› ‹_›).symm
  · rw [hr.cells]
    by_cases hlp : l = t.parentOf j
    · rw [if_pos hlp, hlp, hlink _ (hchild j) hself, h.linkGet_parent hj]
      simp
    by_cases hll : l = .left i
    · have := hget (.left j) hj fun e => hself (by simp [← e])
      rw [if_neg hlp, if_pos hll, hll]
      simpa using this.symm
    by_cases hlr : l = .right i
    · have := hget (.right j) hj fun e => hself (by simp [← e])
      rw [if_neg hlp, if_neg hll, if_pos hlr, hlr]
      simpa using this.symm
    · have hli : l.owner ≠ some i := fun ho => (Link.owner_eq_some_iff.1 ho).elim hll hlr
      have hlj : l.owner ≠ some j := fun ho => (Tree.live_iff.1 hl).2 i (by simp [ho]) hi
      rw [hlink l hli hlj] at hl ⊢
      simp [hlp, hll, hlr, hget l hl hlp]

/-! ### A node with at most one child, taken out -/

/-- `t1` is `t` with `c` in the place of `z`, which is in no tree (41_match_tree.md R190). -/
structure Tree.SplicedOut (z : Pos) (c : Child) (t t1 : Tree) : Prop where
  cells : ∀ l, t1.linkGet l = if l = t.parentOf z then c else t.linkGet l
  parents : ∀ q, t1.parentOf q = if q = z then .none else if c = some q then t.parentOf z else t.parentOf q

/-- `c` is the one child of `z`, or NIL where it has none. -/
def Tree.OneChild (z : Pos) (c : Child) (t : Tree) : Prop :=
  (t.leftOf z = none ∧ t.rightOf z = c) ∨ (t.leftOf z = c ∧ t.rightOf z = none)

theorem Tree.Sound.oneChild_iff (h : t.Sound) (hz : t.parentOf z ≠ .none) (hc : t.OneChild z c) (q : Pos) :
    c = some q ↔ (t.parentOf q).owner = some z := by
  rw [Link.owner_eq_some_iff, ← h.leftOf_iff hz, ← h.rightOf_iff hz]
  obtain ⟨hl, hr⟩ | ⟨hl, hr⟩ := hc <;> simp [hl, hr]

/-- Exactly `z` leaves. -/
theorem Tree.Sound.splicedOut_member (h : t.Sound) (hz : t.parentOf z ≠ .none) (hc : t.OneChild z c)
    (hs : Tree.SplicedOut z c t t1) (q : Pos) : t1.parentOf q ≠ .none ↔ q ≠ z ∧ t.parentOf q ≠ .none := by
  by_cases hqz : q = z
  · simp [hs.parents, hqz]
  by_cases hq : c = some q
  · have hq' := Link.ne_none_of_owner ((h.oneChild_iff hz hc q).1 hq)
    simp [hs.parents, hqz, hq, hz, hq']
  · simp [hs.parents, hqz, hq]

/-- Taking out a node with at most one child leaves a tree. -/
theorem Tree.Sound.splicedOut (h : t.Sound) (hz : t.parentOf z ≠ .none) (hc : t.OneChild z c)
    (hs : Tree.SplicedOut z c t t1) : t1.Sound := by
  have hchild := h.oneChild_iff hz hc
  have hmem := h.splicedOut_member hz hc hs
  have hlive : ∀ l, t1.live l ↔ t.live l ∧ l.owner ≠ some z := fun l => by
    simp only [Tree.live_iff, hmem]
    grind
  obtain ⟨hcells, hparents⟩ := hs
  obtain ⟨rank, hrank⟩ := h.exists_rankedBy
  refine .of_ranked (rank := rank) (fun q hq => ?_) (fun l q hl hq => ?_) (fun q r ho => ?_)
  · obtain ⟨hqz, hq'⟩ := (hmem q).1 hq
    by_cases hcq : c = some q
    · have hp : t1.parentOf q = t.parentOf z := by simp [hparents, hqz, hcq]
      rw [hp, hlive]
      exact ⟨⟨h.live_parent hz, h.owner_ne_self z⟩, by simp [hcells, hcq]⟩
    · have hp : t1.parentOf q = t.parentOf q := by simp [hparents, hqz, hcq]
      have hne : t.parentOf q ≠ t.parentOf z := fun e => hqz (h.parent_injective hq' e)
      rw [hp, hlive]
      exact ⟨⟨h.live_parent hq', fun ho => hcq ((hchild q).2 ho)⟩, by simp [hcells, hne, h.linkGet_parent hq']⟩
  · obtain ⟨hl, hlz⟩ := (hlive l).1 hl
    by_cases hlp : l = t.parentOf z
    · have hcq : c = some q := by simpa [hcells, hlp] using hq
      have hqz : q ≠ z := fun e => h.owner_ne_self z (e ▸ (hchild q).1 hcq)
      simp [hparents, hqz, hcq, hlp]
    · have hp := h.down l q hl (by simpa [hcells, hlp] using hq)
      have hqz : q ≠ z := fun e => hlp (e ▸ hp.symm)
      have hcq : c ≠ some q := fun e => hlz (hp ▸ (hchild q).1 e)
      simp [hparents, hqz, hcq, hp]
  · by_cases hqz : q = z
    · simp [hparents, hqz] at ho
    by_cases hcq : c = some q
    · have hz' : (t.parentOf z).owner = some r := by simpa [hparents, hqz, hcq] using ho
      exact (hrank z r hz').trans (hrank q z ((hchild q).1 hcq))
    · exact hrank q r (by simpa [hparents, hqz, hcq] using ho)

end Sys2Proof.Machine
end

section
/-!
PROOFS. What the operations on links write (41_match_tree.md R182 to R184, R186, R190): each is read off once, as the change of
cells and parents it makes.
-/

namespace Sys2Proof.Machine

variable {t t1 : Tree} {i j q r y z : Pos} {l : Link} {c v : Child}

/-! ### One field -/

theorem Tree.linkGet_linkSet (hw : t.wf = true) (e : t.linkSet l v = .ok t1) (l' : Link) :
    t1.linkGet l' = if l' = l then v else t.linkGet l' := by
  obtain ⟨-, -, -, hsame, hother⟩ := Tree.linkSet_spec hw e
  by_cases hl : l' = l
  · rw [if_pos hl, hl, hsame]
  · rw [if_neg hl, hother l' hl]

theorem Tree.linkGet_setLeft (hw : t.wf = true) (q : Pos) (v : Child) (l : Link) :
    (t.setLeft q v).linkGet l = if l = .left q then v else t.linkGet l :=
  Tree.linkGet_linkSet (l := .left q) hw rfl l

theorem Tree.linkGet_setRight (hw : t.wf = true) (q : Pos) (v : Child) (l : Link) :
    (t.setRight q v).linkGet l = if l = .right q then v else t.linkGet l :=
  Tree.linkGet_linkSet (l := .right q) hw rfl l

@[simp] theorem Tree.linkGet_setParentOf (q : Pos) (l l' : Link) : (t.setParentOf q l).linkGet l' = t.linkGet l' := by
  cases l' <;> rfl

@[simp] theorem Tree.linkGet_setParent (c : Child) (l l' : Link) : (t.setParent c l).linkGet l' = t.linkGet l' := by
  cases c
  · rfl
  · exact Tree.linkGet_setParentOf _ _ _

/-! ### The empty slot case of INSERT -/

theorem attach_spec (hw : t.wf = true) (hl : l ≠ .none) (i : Pos) :
    ∃ t1, attach i l t = .ok t1 ∧ Tree.Attached i l t t1 := by
  obtain ⟨t2, e⟩ := (Tree.linkSet_ok_iff (t := t) (v := some i)).2 hl
  obtain ⟨hw2, -, hp, -, -⟩ := Tree.linkSet_spec hw e
  refine ⟨t2.setParentOf i l, by simp only [attach, e], ⟨fun l' => ?_, fun q => ?_⟩⟩
  · rw [Tree.linkGet_setParentOf, Tree.linkGet_linkSet hw e]
  · rw [Tree.parentOf_setParentOf hw2, hp]

/-! ### The exact case of INSERT -/

/-- The children of `j` are `i`'s, before `i` takes the link of `j` (41_match_tree.md R186). -/
def Tree.takeChildren (i j : Pos) (t : Tree) : Tree :=
  ((((t.setLeft i (t.leftOf j)).setRight i (t.rightOf j)).setParent (t.leftOf j) (.left i)).setParent (t.rightOf j)
    (.right i))

theorem Tree.wf_takeChildren (hw : t.wf = true) (i j : Pos) : (t.takeChildren i j).wf = true :=
  Tree.wf_setParent _ _ (Tree.wf_setParent _ _ (Tree.wf_setRight i _ (Tree.wf_setLeft i _ hw)))

theorem Tree.linkGet_takeChildren (hw : t.wf = true) (i j : Pos) (l : Link) : (t.takeChildren i j).linkGet l =
    if l = .left i then t.leftOf j else if l = .right i then t.rightOf j else t.linkGet l := by
  simp only [Tree.takeChildren, Tree.linkGet_setParent, Tree.linkGet_setRight (Tree.wf_setLeft i _ hw),
    Tree.linkGet_setLeft hw]
  grind

theorem Tree.parentOf_takeChildren (hw : t.wf = true) (i j q : Pos) : (t.takeChildren i j).parentOf q =
    if t.rightOf j = some q then .right i else if t.leftOf j = some q then .left i else t.parentOf q := by
  have hw2 := Tree.wf_setRight i (t.rightOf j) (Tree.wf_setLeft i (t.leftOf j) hw)
  simp only [Tree.takeChildren, Tree.parentOf_setParent (Tree.wf_setParent _ _ hw2), Tree.parentOf_setParent hw2,
    Tree.parentOf_setRight, Tree.parentOf_setLeft, eq_comm]

/-- `i` takes the children of `j`, then its link. -/
theorem replaceNode_of_linkSet (hw : t.wf = true)
    (e : (t.takeChildren i j).linkSet ((t.takeChildren i j).parentOf j) (some i) = .ok t1) :
    replaceNode i j t = .ok ((t1.setParentOf i (t1.parentOf j)).setParentOf j .none) := by
  simp only [Tree.takeChildren] at e
  simp only [replaceNode, Tree.rightOf_setLeft, Tree.leftOf_setRight, Tree.leftOf_setLeft hw,
    Tree.rightOf_setParent, Tree.rightOf_setRight (Tree.wf_setLeft i _ hw), ite_self, e]

theorem replaceNode_spec (hw : t.wf = true) (hs : t.Sound) (hi : t.parentOf i = .none) (hj : t.parentOf j ≠ .none) :
    ∃ t1, replaceNode i j t = .ok t1 ∧ Tree.Replaced i j t t1 := by
  have hleft := fun q => hs.leftOf_iff (r := q) hj
  have hright := fun q => hs.rightOf_iff (r := q) hj
  have hself := hs.owner_ne_self j
  have hij : i ≠ j := fun e => hj (e ▸ hi)
  have hchild : ∀ q, (t.parentOf q).owner ≠ some i := fun q ho => hs.owner_member ho hi
  have hw4 := Tree.wf_takeChildren hw i j
  have hp4 := Tree.parentOf_takeChildren hw i j
  have hpj : (t.takeChildren i j).parentOf j = t.parentOf j := by
    have hjl : t.leftOf j ≠ some j := fun e => hself (by simp [(hleft j).1 e])
    have hjr : t.rightOf j ≠ some j := fun e => hself (by simp [(hright j).1 e])
    rw [hp4, if_neg hjr, if_neg hjl]
  obtain ⟨t5, e5⟩ := (Tree.linkSet_ok_iff (t := t.takeChildren i j) (v := some i)).2 hj
  obtain ⟨hw5, -, hp5, -, -⟩ := Tree.linkSet_spec hw4 e5
  refine ⟨_, replaceNode_of_linkSet hw (by rw [hpj, e5]), ⟨fun l => ?_, fun q => ?_⟩⟩
  · rw [Tree.linkGet_setParentOf, Tree.linkGet_setParentOf, Tree.linkGet_linkSet hw4 e5, Tree.linkGet_takeChildren hw]
  · rw [Tree.parentOf_setParentOf (Tree.wf_setParentOf i _ hw5), Tree.parentOf_setParentOf hw5, hp5, hp5, hpj, hp4]
    have hone : t.leftOf j = some q → t.rightOf j ≠ some q := fun h1 h2 => by
      cases ((hleft q).1 h1).symm.trans ((hright q).1 h2)
    grind

/-! ### The end of DELETE -/

theorem spliceOut_spec (hw : t.wf = true) (hz : t.parentOf z ≠ .none) (hc : c ≠ some z) :
    ∃ t1, spliceOut z c t = .ok t1 ∧ Tree.SplicedOut z c t t1 := by
  have hpz : (t.setParent c (t.parentOf z)).parentOf z = t.parentOf z := by
    rw [Tree.parentOf_setParent hw, if_neg hc.symm]
  have hw1 := Tree.wf_setParent c (t.parentOf z) hw
  obtain ⟨t2, e⟩ := (Tree.linkSet_ok_iff (t := t.setParent c (t.parentOf z)) (v := c)).2 hz
  obtain ⟨hw2, -, hp, -, -⟩ := Tree.linkSet_spec hw1 e
  refine ⟨t2.setParentOf z .none, by simp only [spliceOut, hpz, e], ⟨fun l => ?_, fun q => ?_⟩⟩
  · rw [Tree.linkGet_setParentOf, Tree.linkGet_linkSet hw1 e, Tree.linkGet_setParent]
  · rw [Tree.parentOf_setParentOf hw2, hp, Tree.parentOf_setParent hw]
    simp only [eq_comm]

/-! ### The predecessor takes over the subtrees of the deleted node -/

theorem takeRight_linkGet (hw : t.wf = true) (z y : Pos) (l : Link) :
    (takeRight z y t).linkGet l = if l = .right y then t.rightOf z else t.linkGet l := by
  simp only [takeRight, Tree.linkGet_setParent, Tree.linkGet_setRight hw]

theorem takeRight_parentOf (hw : t.wf = true) (z y q : Pos) :
    (takeRight z y t).parentOf q = if t.rightOf z = some q then .right y else t.parentOf q := by
  have hw1 := Tree.wf_setRight y (t.rightOf z) hw
  simp only [takeRight, Tree.parentOf_setParent hw1, Tree.rightOf_setRight hw, ite_self, Tree.parentOf_setRight, eq_comm]

theorem liftPredecessor_spec (hw : t.wf = true) (hzy : z ≠ y) (hy : t.parentOf y = .right r) :
    ∃ t1, liftPredecessor z y t = .ok t1 ∧
      (∀ l, t1.linkGet l = if l = .left y then t.leftOf z else if l = t.parentOf y then t.leftOf y else t.linkGet l) ∧
      ∀ q, t1.parentOf q =
        if t.leftOf z = some q then .left y else if t.leftOf y = some q then t.parentOf y else t.parentOf q := by
  rw [hy]
  let t1 := t.setRight r (t.leftOf y)
  have hw1 : t1.wf = true := Tree.wf_setRight r _ hw
  have hw2 := Tree.wf_setParent (t.leftOf y) (.right r) hw1
  have hw3 := Tree.wf_setLeft y (t.leftOf z) hw2
  have e : liftPredecessor z y t =
      .ok (((t1.setParent (t.leftOf y) (.right r)).setLeft y (t.leftOf z)).setParent (t.leftOf z) (.left y)) := by
    simp only [liftPredecessor, hy, Tree.linkSet, Tree.leftOf_setRight, Tree.parentOf_setRight, Tree.leftOf_setParent,
      Tree.leftOf_setLeft hw2, if_neg hzy, t1]
  refine ⟨_, e, fun l => ?_, fun q => ?_⟩
  · simp only [Tree.linkGet_setParent, Tree.linkGet_setLeft hw2, Tree.linkGet_setRight hw, t1]
  · simp only [Tree.parentOf_setParent hw3, Tree.parentOf_setLeft, Tree.parentOf_setParent hw1, Tree.parentOf_setRight,
      eq_comm, t1]

end Sys2Proof.Machine
end

section
/-!
PROOFS. DELETE (41_match_tree.md R190 to R192). A node with at most one child is spliced out; one with two children is replaced
by its in-order predecessor, itself spliced out.
-/

namespace Sys2Proof.Machine

variable {t t1 : Tree} {a b p r y z : Pos} {c : Child} {n : Nat} {rank : Pos → Nat}

/-! ### The shapes of DELETE -/

theorem delete_of_not_member (hz : t.parentOf z = .none) : delete z t = .ok t := by
  simp [delete, hz]

theorem delete_of_oneChild (hz : t.parentOf z ≠ .none) (hc : t.OneChild z c) : delete z t = spliceOut z c t := by
  obtain ⟨hl, hr⟩ | ⟨hl, hr⟩ := hc
  · cases c <;> simp [delete, hz, hl, hr]
  · simp [delete, hz, hl, hr]

theorem delete_of_twoChildren (hz : t.parentOf z ≠ .none) (ha : t.leftOf z = some a) (hb : t.rightOf z = some b) :
    delete z t = deleteTwo z a t := by
  simp [delete, hz, ha, hb]

/-- A node has at most one child or two. -/
theorem Tree.children_cases (t : Tree) (z : Pos) :
    (∃ c, t.OneChild z c) ∨ ∃ a b, t.leftOf z = some a ∧ t.rightOf z = some b := by
  cases ha : t.leftOf z with
  | none => exact .inl ⟨_, .inl ⟨ha, rfl⟩⟩
  | some a =>
    cases hb : t.rightOf z with
    | none => exact .inl ⟨_, .inr ⟨rfl, hb⟩⟩
    | some b => exact .inr ⟨a, b, rfl, rfl⟩

/-! ### A node with at most one child -/

theorem delete_oneChild_spec (hw : t.wf = true) (hs : t.Sound) (hz : t.parentOf z ≠ .none) (hc : t.OneChild z c) :
    ∃ t1, delete z t = .ok t1 ∧ Tree.SplicedOut z c t t1 := by
  rw [delete_of_oneChild hz hc]
  exact spliceOut_spec hw hz fun e => hs.owner_ne_self z ((hs.oneChild_iff hz hc z).1 e)

/-! ### The predecessor -/

/-- The rightmost node from `y` on is some right links below `y`, and its right field is NIL (41_match_tree.md R192). -/
theorem rightmost_ok {fuel : Nat} (e : rightmost t fuel y = .ok p) :
    ∃ n, rightBelow t n y = some p ∧ t.rightOf p = none := by
  induction fuel generalizing y with
  | zero => cases e
  | succ fuel ih =>
    cases hr : t.rightOf y with
    | none =>
      simp only [rightmost, hr, Except.ok.injEq] at e
      exact ⟨0, congrArg some e, e ▸ hr⟩
    | some y1 =>
      simp only [rightmost, hr] at e
      obtain ⟨n, hn, hp⟩ := ih e
      exact ⟨n + 1, by simpa [rightBelow, hr] using hn, hp⟩

/-- The walk along right links ends, because ranks rise on it and stay below `N`. -/
theorem rightmost_answers (hs : t.Sound) (hlt : ∀ q, rank q < 4096) (hrank : t.RankedBy rank) {fuel : Nat}
    (hy : t.parentOf y ≠ .none) (hfuel : 4096 ≤ fuel + rank y) : ∃ p, rightmost t fuel y = .ok p := by
  induction fuel generalizing y with
  | zero =>
    have := hlt y
    omega
  | succ fuel ih =>
    cases hr : t.rightOf y with
    | none => exact ⟨y, by simp only [rightmost, hr]⟩
    | some y1 =>
      have hp := (hs.rightOf_iff hy).1 hr
      have := hrank y1 y (by simp [hp])
      simp only [rightmost, hr]
      exact ih (by simp [hp]) (by omega)

/-- A node below `a` along right links is `a`, or hangs on a right link no higher than `a`. -/
theorem rightBelow_cases (hs : t.Sound) (hrank : t.RankedBy rank) (ha : t.parentOf a ≠ .none)
    (h : rightBelow t n a = some p) : t.parentOf p ≠ .none ∧ rank a ≤ rank p ∧
      (p = a ∨ ∃ r, t.parentOf p = .right r ∧ rank a ≤ rank r) := by
  induction n generalizing a with
  | zero =>
    obtain rfl : a = p := by simpa [rightBelow] using h
    exact ⟨ha, le_rfl, .inl rfl⟩
  | succ n ih =>
    cases hr : t.rightOf a with
    | none => simp [rightBelow, hr] at h
    | some a1 =>
      have hp := (hs.rightOf_iff ha).1 hr
      have hlt := hrank a1 a (by simp [hp])
      obtain ⟨hmem, hle, hplace⟩ := ih (a := a1) (by simp [hp]) (by simpa [rightBelow, hr] using h)
      refine ⟨hmem, by omega, .inr ?_⟩
      obtain rfl | ⟨r, hr, hler⟩ := hplace
      · exact ⟨a, hp, le_rfl⟩
      · exact ⟨r, hr, by omega⟩

/-- `p` is the in-order predecessor of `z`, whose children are `a` and `b` (41_match_tree.md R192). -/
structure Tree.Predecessor (z a b p : Pos) (t : Tree) : Prop where
  left : t.leftOf z = some a
  right : t.rightOf z = some b
  last : t.rightOf p = none
  below : ∃ n, rightBelow t n a = some p

/-- Where the predecessor stands: it is neither `z` nor above `z` nor `b`, and it is `a` or on a right link of another node
than `z`. -/
structure Tree.PredecessorPlace (z a b p : Pos) (t : Tree) : Prop where
  parent_a : t.parentOf a = .left z
  parent_b : t.parentOf b = .right z
  member : t.parentOf p ≠ .none
  ne_z : p ≠ z
  ne_b : p ≠ b
  z_ne_b : z ≠ b
  not_above : (t.parentOf z).owner ≠ some p
  place : t.parentOf p = .left z ∧ p = a ∨ p ≠ a ∧ ∃ r, t.parentOf p = .right r ∧ r ≠ z

theorem Tree.Predecessor.position (h : Tree.Predecessor z a b p t) (hs : t.Sound) (hz : t.parentOf z ≠ .none) :
    Tree.PredecessorPlace z a b p t := by
  have hpa := (hs.leftOf_iff hz).1 h.left
  obtain ⟨rank, hrank⟩ := hs.exists_rankedBy
  obtain ⟨n, hn⟩ := h.below
  obtain ⟨hmem, hle, hplace⟩ := rightBelow_cases hs hrank (by simp [hpa]) hn
  have hza := hrank a z (by simp [hpa])
  have hpb := (hs.rightOf_iff hz).1 h.right
  refine ⟨hpa, hpb, hmem, ?_, ?_, fun e => hs.owner_ne_self b (by simp [hpb, e]), fun ho => ?_, ?_⟩
  · rintro rfl
    omega
  · rintro rfl
    obtain rfl | ⟨r, hr, hler⟩ := hplace
    · cases hpa.symm.trans hpb
    · obtain rfl : r = z := by simpa [hr] using hpb
      omega
  · have := hrank z p ho
    omega
  · obtain rfl | ⟨r, hr, hler⟩ := hplace
    · exact .inl ⟨hpa, rfl⟩
    · refine .inr ⟨fun e => ?_, r, hr, ?_⟩
      · cases (e ▸ hr).symm.trans hpa
      · rintro rfl
        omega

/-! ### A node with two children -/

/-- `t1` is `t` with the predecessor `p` in the place of `z`, whose children were `a` and `b` (41_match_tree.md R190). -/
structure Tree.Promoted (z a b p : Pos) (t t1 : Tree) : Prop where
  cells : ∀ l, t1.linkGet l =
    if l = t.parentOf z then some p else if l = .right p then some b else if p ≠ a ∧ l = .left p then some a
    else if p ≠ a ∧ l = t.parentOf p then t.leftOf p else t.linkGet l
  parents : ∀ q, t1.parentOf q =
    if q = z then .none else if q = p then t.parentOf z else if q = b then .right p else if p ≠ a ∧ q = a then .left p
    else if p ≠ a ∧ t.leftOf p = some q then t.parentOf p else t.parentOf q

/-- The last part of DELETE for a node with two children: `p` takes the right child and the link of `z` (41_match_tree.md
R190). -/
theorem spliceOut_takeRight_spec (hw : t.wf = true) (hz : t.parentOf z ≠ .none) (hb : t.rightOf z = some b) (hzb : z ≠ b)
    (hzp : z ≠ p) : ∃ t1, spliceOut z (some p) (takeRight z p t) = .ok t1 ∧
      (∀ l, t1.linkGet l = if l = t.parentOf z then some p else if l = .right p then some b else t.linkGet l) ∧
      ∀ q, t1.parentOf q =
        if q = z then .none else if q = p then t.parentOf z else if q = b then .right p else t.parentOf q := by
  have hcells := takeRight_linkGet hw z p
  have hparents := takeRight_parentOf hw z p
  simp only [hb, Option.some.injEq] at hcells hparents
  have hpz : (takeRight z p t).parentOf z = t.parentOf z := by rw [hparents, if_neg hzb.symm]
  obtain ⟨t1, e, hs⟩ := spliceOut_spec (c := some p) (takeRight_wf z p hw) (hpz ▸ hz) (by simpa using hzp.symm)
  refine ⟨t1, e, fun l => ?_, fun q => ?_⟩
  · rw [hs.cells, hpz, hcells]
  · rw [hs.parents, hpz, hparents]
    simp only [Option.some.injEq, eq_comm]

/-- The left child of `z` is its predecessor (41_match_tree.md R190). -/
theorem deleteTwo_leftChild (hw : t.wf = true) (hz : t.parentOf z ≠ .none) (h : Tree.Predecessor z a b a t)
    (hp : Tree.PredecessorPlace z a b a t) : ∃ t1, deleteTwo z a t = .ok t1 ∧ Tree.Promoted z a b a t t1 := by
  obtain ⟨t1, e, hcells, hparents⟩ := spliceOut_takeRight_spec hw hz h.right hp.z_ne_b hp.ne_z.symm
  exact ⟨t1, by simp only [deleteTwo, h.last, if_true, e], ⟨by simpa using hcells, by simpa using hparents⟩⟩

/-- The predecessor of `z` is below its left child: first it gives up its left subtree for that of `z` (41_match_tree.md
R190). -/
theorem deleteTwo_below (hw : t.wf = true) (hs : t.Sound) (hz : t.parentOf z ≠ .none) (h : Tree.Predecessor z a b p t)
    (hp : Tree.PredecessorPlace z a b p t) (hpa : p ≠ a) (hright : t.rightOf a ≠ none)
    (hm : rightmost t walkFuel a = .ok p) : ∃ t1, deleteTwo z a t = .ok t1 ∧ Tree.Promoted z a b p t t1 := by
  obtain ⟨-, r, hr, hrz⟩ := hp.place.resolve_left fun ⟨_, e⟩ => hpa e
  obtain ⟨t2, e2, hcells2, hparents2⟩ := liftPredecessor_spec hw hp.ne_z.symm hr
  have hchild : ∀ q, t.leftOf p = some q ↔ t.parentOf q = .left p := fun q => hs.leftOf_iff hp.member
  have hz2 : t2.parentOf z = t.parentOf z := by
    have hza : t.leftOf z ≠ some z := fun e => hs.owner_ne_self z (by simp [(hs.leftOf_iff hz).1 e])
    have hzp : t.leftOf p ≠ some z := fun e => hp.not_above (by simp [(hchild z).1 e])
    rw [hparents2, if_neg hza, if_neg hzp]
  have hb2 : t2.rightOf z = some b := by
    have := hcells2 (.right z)
    simpa [hr, hrz.symm, h.right] using this
  obtain ⟨t1, e1, hcells, hparents⟩ :=
    spliceOut_takeRight_spec (liftPredecessor_wf hw e2) (hz2 ▸ hz) hb2 hp.z_ne_b hp.ne_z.symm
  refine ⟨t1, by simp only [deleteTwo, if_neg hright, hm, e2, e1], ⟨fun l => ?_, fun q => ?_⟩⟩
  · rw [hcells, hz2, hcells2, h.left]
    simp [hpa]
  · rw [hparents, hz2, hparents2, h.left]
    simp [hpa, eq_comm]

/-- DELETE of a node with two children promotes its predecessor. -/
theorem delete_twoChildren_spec (hw : t.wf = true) (hs : t.Sound) (hz : t.parentOf z ≠ .none) (ha : t.leftOf z = some a)
    (hb : t.rightOf z = some b) :
    ∃ p t1, Tree.Predecessor z a b p t ∧ delete z t = .ok t1 ∧ Tree.Promoted z a b p t t1 := by
  rw [delete_of_twoChildren hz ha hb]
  by_cases hright : t.rightOf a = none
  · have h : Tree.Predecessor z a b a t := ⟨ha, hb, hright, 0, rfl⟩
    obtain ⟨t1, e, hpro⟩ := deleteTwo_leftChild hw hz h (h.position hs hz)
    exact ⟨a, t1, h, e, hpro⟩
  · obtain ⟨rank, hlt, hrank⟩ := hs.exists_rank_lt
    have hpa := (hs.leftOf_iff hz).1 ha
    obtain ⟨p, hm⟩ := rightmost_answers hs hlt hrank (y := a) (fuel := walkFuel) (by simp [hpa])
      (by simp only [walkFuel]; omega)
    obtain ⟨n, hn, hlast⟩ := rightmost_ok hm
    have h : Tree.Predecessor z a b p t := ⟨ha, hb, hlast, n, hn⟩
    obtain ⟨t1, e, hpro⟩ := deleteTwo_below hw hs hz h (h.position hs hz) (fun e => hright (e ▸ hlast)) hright hm
    exact ⟨p, t1, h, e, hpro⟩

/-- The predecessor takes the link and the right child of `z`. -/
theorem Tree.Promoted.takesPlace (hpro : Tree.Promoted z a b p t t1) (hp : Tree.PredecessorPlace z a b p t) :
    t1.linkGet (t.parentOf z) = some p ∧ t1.parentOf p = t.parentOf z ∧ t1.rightOf p = some b ∧
      t1.parentOf b = .right p := by
  have hne : Link.right p ≠ t.parentOf z := fun e => hp.not_above (by simp [← e])
  exact ⟨by simp [hpro.cells], by simp [hpro.parents, hp.ne_z], by simpa [hne] using hpro.cells (.right p),
    by simp [hpro.parents, hp.z_ne_b.symm, hp.ne_b.symm]⟩

/-- The left child of `z`, as predecessor, keeps its left subtree. -/
theorem Tree.Promoted.leftOf_leftChild (hpro : Tree.Promoted z a b p t t1) (hp : Tree.PredecessorPlace z a b p t)
    (hpa : p = a) : t1.leftOf p = t.leftOf p := by
  have hne : Link.left p ≠ t.parentOf z := fun e => hp.not_above (by simp [← e])
  have := hpro.cells (.left p)
  rw [if_neg hne] at this
  simpa [hpa] using this

/-- A predecessor below the left child of `z` takes over that child, and its own left subtree takes its place. -/
theorem Tree.Promoted.takesLeft (hpro : Tree.Promoted z a b p t t1) (hp : Tree.PredecessorPlace z a b p t) (hs : t.Sound)
    (hpa : p ≠ a) : t1.leftOf p = some a ∧ t1.parentOf a = .left p ∧
    ∃ r, t.parentOf p = .right r ∧ t1.rightOf r = t.leftOf p ∧ ∀ c, t.leftOf p = some c → t1.parentOf c = .right r := by
  obtain ⟨-, r, hr, -⟩ := hp.place.resolve_left fun ⟨_, e⟩ => hpa e
  have hne : Link.left p ≠ t.parentOf z := fun e => hp.not_above (by simp [← e])
  have haz : a ≠ z := fun e => hs.owner_ne_self z (by simpa [e] using congrArg Link.owner hp.parent_a)
  have hab : a ≠ b := fun e => by simpa [← e, hp.parent_a] using hp.parent_b
  refine ⟨by simpa [hne, hpa] using hpro.cells (.left p), by simp [hpro.parents, haz, Ne.symm hpa, hab, hpa], r, hr, ?_,
    fun c hc => ?_⟩
  · have hrp : r ≠ p := fun e => hs.owner_ne_self p (by simp [hr, e])
    have hrz : Link.right r ≠ t.parentOf z := fun e => hp.ne_z (hs.parent_injective hp.member (hr.trans e))
    simpa [hrz, hrp, hpa, hr] using hpro.cells (.right r)
  · have hpc := (hs.leftOf_iff hp.member).1 hc
    have hcz : c ≠ z := fun e => hp.not_above (by simp [← e, hpc])
    have hcp : c ≠ p := fun e => hs.owner_ne_self p (by simpa [e] using congrArg Link.owner hpc)
    have hcb : c ≠ b := fun e => by simpa [← e, hpc] using hp.parent_b
    have hca : c ≠ a := fun e => hp.ne_z (by simpa [← e, hpc] using hp.parent_a)
    simp [hpro.parents, hcz, hcp, hcb, hca, hpa, hc, hr]

/-- No other child field changes. -/
theorem Tree.Promoted.leftOf_frame (hpro : Tree.Promoted z a b p t t1) (hp : Tree.PredecessorPlace z a b p t) {q : Pos}
    (hq : q ≠ p) (hqz : t.parentOf z ≠ .left q) : t1.leftOf q = t.leftOf q := by
  have hqp : ¬ (p ≠ a ∧ Link.left q = t.parentOf p) := by
    obtain ⟨-, e⟩ | ⟨-, r, e, -⟩ := hp.place <;> simp [e]
  have := hpro.cells (.left q)
  rw [if_neg hqz.symm, if_neg (by simp), if_neg (by simp [hq]), if_neg hqp] at this
  exact this

theorem Tree.Promoted.rightOf_frame (hpro : Tree.Promoted z a b p t t1) {q : Pos} (hq : q ≠ p)
    (hqz : t.parentOf z ≠ .right q) (hqp : t.parentOf p ≠ .right q) : t1.rightOf q = t.rightOf q := by
  simpa [hqz.symm, hq, hqp.symm] using hpro.cells (.right q)

/-! ### DELETE leaves a tree -/

/-- Promoting the predecessor is splicing it out and putting it in the place of `z`: the same parents and the same live
cells. -/
theorem Tree.Promoted.eq_replaced {t2 t3 : Tree} (hpro : Tree.Promoted z a b p t t1) (h : Tree.Predecessor z a b p t)
    (hp : Tree.PredecessorPlace z a b p t) (hs : t.Sound) (hsplice : Tree.SplicedOut p (t.leftOf p) t t2)
    (hrep : Tree.Replaced p z t2 t3) :
    (∀ q, t1.parentOf q = t3.parentOf q) ∧ ∀ l, l.owner ≠ some z → t1.linkGet l = t3.linkGet l := by
  have hchild : ∀ q, t.leftOf p = some q ↔ t.parentOf q = .left p := fun q => hs.leftOf_iff hp.member
  have hz2 : t2.parentOf z = t.parentOf z := by
    have hzp : t.leftOf p ≠ some z := fun e => hp.not_above (by simp [(hchild z).1 e])
    rw [hsplice.parents, if_neg hp.ne_z.symm, if_neg hzp]
  have hright2 : t2.rightOf z = some b := by
    have hne : Link.right z ≠ t.parentOf p := by
      obtain ⟨e, -⟩ | ⟨-, r, e, hrz⟩ := hp.place <;> rw [e] <;> simp [Ne.symm, *]
    simpa [hne, h.right] using hsplice.cells (.right z)
  have hleft2 : t2.leftOf z = if p = a then t.leftOf p else some a := by
    have := hsplice.cells (.left z)
    obtain ⟨e, hpa⟩ | ⟨hpa, r, e, -⟩ := hp.place <;> rw [e] at this <;> simpa [hpa, h.left] using this
  have hb := hp.parent_b
  have ha := hp.parent_a
  refine ⟨fun q => ?_, fun l hl => ?_⟩
  · rw [hpro.parents, hrep.parents, hz2, hleft2, hright2, hsplice.parents]
    obtain ⟨-, hpa⟩ | ⟨hpa, -⟩ := hp.place
    · simp only [hpa, ne_eq, not_true_eq_false, false_and, if_false, if_true]
      grind
    · simp only [hpa, ne_eq, not_false_eq_true, true_and, if_false]
      grind
  · rw [hpro.cells, hrep.cells, hz2, hleft2, hright2, hsplice.cells]
    obtain ⟨e, hpa⟩ | ⟨hpa, -⟩ := hp.place
    · simp only [hpa, ne_eq, not_true_eq_false, false_and, if_false, if_true]
      grind [Tree.linkGet_left, Link.owner_left]
    · simp only [hpa, ne_eq, not_false_eq_true, true_and, if_false]
      grind

theorem Tree.Sound.promoted (hw : t.wf = true) (hs : t.Sound) (hz : t.parentOf z ≠ .none)
    (h : Tree.Predecessor z a b p t) (hpro : Tree.Promoted z a b p t t1) :
    t1.Sound ∧ ∀ q, t1.parentOf q ≠ .none ↔ q ≠ z ∧ t.parentOf q ≠ .none := by
  have hp := h.position hs hz
  have hone : t.OneChild p (t.leftOf p) := .inr ⟨rfl, h.last⟩
  obtain ⟨t2, e2, hsplice⟩ := delete_oneChild_spec hw hs hp.member hone
  have hs2 := hs.splicedOut hp.member hone hsplice
  have hmem2 := hs.splicedOut_member hp.member hone hsplice
  have hz2 : t2.parentOf z ≠ .none := (hmem2 z).2 ⟨hp.ne_z.symm, hz⟩
  have hp2 : t2.parentOf p = .none := by simp [hsplice.parents]
  obtain ⟨t3, -, hrep⟩ := replaceNode_spec (delete_wf hw e2) hs2 hp2 hz2
  have hmem3 := hs2.replaced_member hz2 hrep
  obtain ⟨hparents, hcells⟩ := hpro.eq_replaced h hp hs hsplice hrep
  refine ⟨(hs2.replaced hp2 hz2 hrep).congr hparents fun l hl => hcells l fun ho => ?_, fun q => ?_⟩
  · exact ((hmem3 z).1 ((Tree.live_iff.1 hl).2 z ho)).1 rfl
  · rw [hparents, hmem3, hmem2]
    by_cases hqp : q = p
    · simp [hqp, hp.member]
    · simp [hqp]

/-- In a tree, DELETE answers, takes out exactly its position, and leaves a tree. -/
theorem delete_spec (hw : t.wf = true) (hs : t.Sound) (z : Pos) : ∃ t1, delete z t = .ok t1 ∧ t1.Sound ∧
    ∀ q, t1.parentOf q ≠ .none ↔ q ≠ z ∧ t.parentOf q ≠ .none := by
  by_cases hz : t.parentOf z = .none
  · refine ⟨t, delete_of_not_member hz, hs, fun q => ⟨fun hq => ⟨fun e => hq (e ▸ hz), hq⟩, And.right⟩⟩
  obtain ⟨c, hc⟩ | ⟨a, b, ha, hb⟩ := t.children_cases z
  · obtain ⟨t1, e, hsplice⟩ := delete_oneChild_spec hw hs hz hc
    exact ⟨t1, e, hs.splicedOut hz hc hsplice, hs.splicedOut_member hz hc hsplice⟩
  · obtain ⟨p, t1, h, e, hpro⟩ := delete_twoChildren_spec hw hs hz ha hb
    exact ⟨t1, e, Tree.Sound.promoted hw hs hz h hpro⟩

end Sys2Proof.Machine

namespace Sys2Proof

open Sys2Proof.Machine

/-- Settles O32: DELETE looks at the parent reference first. -/
theorem deleteOfANonMemberChangesNothing : Obligations.DeleteOfANonMemberChangesNothing :=
  fun _ _ hz => delete_of_not_member hz

/-- Settles O33, by the number of children: a node with at most one is spliced out, one with two is replaced by its
predecessor. -/
theorem deleteTakesOutExactlyOnePosition : Obligations.DeleteTakesOutExactlyOnePosition := by
  intro z t hw hs
  obtain ⟨t1, e, hs1, hmem⟩ := delete_spec hw hs z
  refine ⟨t1, e, hs1, ?_, fun q hq => ?_⟩
  · by_contra hz
    exact ((hmem z).1 hz).1 rfl
  · have := hmem q
    tauto

/-- Settles O60: with two children the claims are read off the promotion of the predecessor, else off the splicing out. -/
theorem deletePromotesThePredecessor : Obligations.DeletePromotesThePredecessor := by
  intro z t t1 hw hs hz e
  refine ⟨fun a b ha hb => ?_, fun c hc => ?_⟩
  · obtain ⟨p, t1', h, e', hpro⟩ := delete_twoChildren_spec hw hs hz ha hb
    cases e'.symm.trans e
    obtain ⟨n, hn⟩ := h.below
    have hp := h.position hs hz
    obtain ⟨hlink, hparent, hright, hparentb⟩ := hpro.takesPlace hp
    exact ⟨n, p, hn, h.last, hlink, hparent, hright, hparentb, hpro.leftOf_leftChild hp, hpro.takesLeft hp hs,
      fun q => hpro.leftOf_frame hp, fun q => hpro.rightOf_frame⟩
  · obtain ⟨t1', e', hsplice⟩ := delete_oneChild_spec hw hs hz hc
    cases e'.symm.trans e
    refine ⟨by simp [hsplice.cells], fun y hy => ?_, fun q hq => ?_, fun q hq => ?_⟩
    · have hyz : y ≠ z := fun e => hs.owner_ne_self z ((hs.oneChild_iff hz hc z).1 (e ▸ hy))
      simp [hsplice.parents, hyz, hy]
    · simpa [hq.symm] using hsplice.cells (.left q)
    · simpa [hq.symm] using hsplice.cells (.right q)

end Sys2Proof
end

section
/-!
PROOFS. INSERT (41_match_tree.md R185 to R189, R193 to R195). What its walk comes to is read off once, with no assumption on the
tree; in a tree the walk ends, and where it ends one of two changes of links is made.
-/

namespace Sys2Proof.Machine

variable {m : Ring} {t t1 : Tree} {i j q : Pos} {run n : Nat} {l : Link} {c : Child} {f f1 : Finder} {vs : List Pos}
  {rank : Pos → Nat}

/-! ### One node of the walk -/

/-- The walk compares bytes as numbers `0..255` (41_match_tree.md R188). -/
theorem descend_eq (m : Ring) (i j : Pos) (n : Nat) : descend m i j n =
    if (rbReadPhys (i.toNat + n) m).toNat < (rbReadPhys (j.toNat + n) m).toNat then .left j else .right j := by
  simp only [descend, BitVec.lt_def]

@[simp] theorem descend_owner (m : Ring) (i j : Pos) (n : Nat) : (descend m i j n).owner = some j := by
  unfold descend
  split <;> rfl

theorem linkGet_descend (t : Tree) (m : Ring) (i j : Pos) (n : Nat) : t.linkGet (descend m i j n) =
    if (rbReadPhys (i.toNat + n) m).toNat < (rbReadPhys (j.toNat + n) m).toNat then t.leftOf j else t.rightOf j := by
  rw [descend_eq]
  split <;> rfl

theorem visits_cons_exact (hc : cpl m j.toNat i.toNat run = run) :
    Visits m i run t (j :: vs) c ↔ c = some j ∧ vs = [] := by
  simp [Visits, hc]

theorem visits_cons_descend (hc : cpl m j.toNat i.toNat run ≠ run) : Visits m i run t (j :: vs) c ↔
    c = some j ∧ Visits m i run t vs (t.linkGet (descend m i j (cpl m j.toNat i.toNat run))) := by
  simp [Visits, hc, linkGet_descend]

theorem landing_cons_exact (hc : cpl m j.toNat i.toNat run = run) : landing m i run (j :: vs) l = l := by
  simp [landing, hc]

theorem landing_cons_descend (hc : cpl m j.toNat i.toNat run ≠ run) : landing m i run (j :: vs) l =
    landing m i run vs (descend m i j (cpl m j.toNat i.toNat run)) := by
  simp [landing, hc, descend_eq]

/-- A walk from an empty cell visits nothing. -/
theorem Visits.eq_nil (h : Visits m i run t vs none) : vs = [] := by
  cases vs with
  | nil => rfl
  | cons j vs => cases h.1

/-- A walk that meets an exact match first visits it alone. -/
theorem Visits.eq_singleton (h : Visits m i run t vs (some j)) (hc : cpl m j.toNat i.toNat run = run) : vs = [j] := by
  cases vs with
  | nil => cases h
  | cons k vs =>
    obtain rfl : j = k := Option.some.inj h.1
    rw [((visits_cons_exact hc).1 h).2]

/-- A walk reads no more of the tree than the child fields of the nodes it visits. -/
theorem Visits.congr (h : Visits m i run t vs c) (heq : ∀ l q, l.owner = some q → q ∈ vs → t1.linkGet l = t.linkGet l) :
    Visits m i run t1 vs c := by
  induction vs generalizing c with
  | nil => exact h
  | cons j vs ih =>
    by_cases hc : cpl m j.toNat i.toNat run = run
    · rwa [visits_cons_exact hc] at h ⊢
    · rw [visits_cons_descend hc] at h ⊢
      rw [heq _ j (descend_owner _ _ _ _) (List.mem_cons_self ..)]
      exact ⟨h.1, ih h.2 fun l q ho hq => heq l q ho (List.mem_cons_of_mem _ hq)⟩

/-- In a tree the walk visits members and lands at a live cell. -/
theorem Visits.live (h : Visits m i run t vs (t.linkGet l)) (hs : t.Sound) (hl : t.live l) :
    (∀ j ∈ vs, t.parentOf j ≠ .none) ∧ t.live (landing m i run vs l) := by
  induction vs generalizing l with
  | nil => exact ⟨by simp, hl⟩
  | cons j vs ih =>
    have hj : t.parentOf j ≠ .none := hs.member hl h.1
    by_cases hc : cpl m j.toNat i.toNat run = run
    · rw [visits_cons_exact hc] at h
      rw [landing_cons_exact hc, h.2]
      exact ⟨by simpa using hj, hl⟩
    · rw [visits_cons_descend hc] at h
      rw [landing_cons_descend hc]
      obtain ⟨hvs, hland⟩ := ih h.2 (Tree.live_of_owner (descend_owner _ _ _ _) hj)
      exact ⟨List.forall_mem_cons.2 ⟨hj, hvs⟩, hland⟩

/-! ### The best match of the nodes visited -/

/-- The result of the walk over the nodes it visits (41_match_tree.md R186, R189). -/
def bestOf (m : Ring) (i : Pos) (run : Nat) : List Pos → Finder → Finder
  | [], f => f
  | j :: vs, f => bestOf m i run vs (f.better (cpl m j.toNat i.toNat run) j)

theorem Finder.better_of_le (h : n ≤ f.len.toNat) (j : Pos) : f.better n j = f := by
  simp [Finder.better, Nat.not_lt.2 h]

theorem Finder.better_of_lt (h : f.len.toNat < n) (j : Pos) : f.better n j = { len := BitVec.ofNat 5 n, pos := j } := by
  simp [Finder.better, h]

theorem Finder.better_len (hn : n ≤ 16) (f : Finder) (j : Pos) : (f.better n j).len.toNat = max f.len.toNat n := by
  obtain h | h := Nat.lt_or_ge f.len.toNat n
  · rw [Finder.better_of_lt h, BitVec.toNat_ofNat]
    omega
  · rw [Finder.better_of_le h]
    omega

section
variable (hrun : run ≤ 16)
include hrun

theorem cpl_le_sixteen (m : Ring) (i j : Pos) : cpl m j.toNat i.toNat run ≤ 16 := (cpl_le m _ _ run).trans hrun

theorem le_bestOf_len (m : Ring) (i : Pos) (vs : List Pos) (f : Finder) :
    f.len.toNat ≤ (bestOf m i run vs f).len.toNat := by
  induction vs generalizing f with
  | nil => exact le_rfl
  | cons j vs ih =>
    have := Finder.better_len (cpl_le_sixteen hrun m i j) f j
    exact le_trans (by omega) (ih _)

/-- No match is longer than `run` (41_match_tree.md R185). -/
theorem bestOf_len_le (m : Ring) (i : Pos) (vs : List Pos) (f : Finder) :
    (bestOf m i run vs f).len.toNat ≤ max f.len.toNat run := by
  induction vs generalizing f with
  | nil => exact le_max_left _ _
  | cons j vs ih =>
    have := Finder.better_len (cpl_le_sixteen hrun m i j) f j
    have := cpl_le m j.toNat i.toNat run
    exact (ih _).trans (by omega)

/-- No node visited matches longer. -/
theorem cpl_le_bestOf_len (m : Ring) (i : Pos) (f : Finder) (hj : j ∈ vs) :
    cpl m j.toNat i.toNat run ≤ (bestOf m i run vs f).len.toNat := by
  induction vs generalizing f with
  | nil => cases hj
  | cons k vs ih =>
    obtain rfl | hj := List.mem_cons.1 hj
    · have := Finder.better_len (cpl_le_sixteen hrun m i j) f j
      exact le_trans (by omega) (le_bestOf_len hrun m i vs _)
    · exact ih _ hj

/-- The result is the one before the walk, or a longer match with the first node visited of its length (41_match_tree.md
R189). -/
theorem bestOf_cases (m : Ring) (i : Pos) (vs : List Pos) (f : Finder) : bestOf m i run vs f = f ∨
    (f.len.toNat < (bestOf m i run vs f).len.toNat ∧ ∃ us ws, vs = us ++ (bestOf m i run vs f).pos :: ws ∧
      cpl m (bestOf m i run vs f).pos.toNat i.toNat run = (bestOf m i run vs f).len.toNat ∧
      ∀ u ∈ us, cpl m u.toNat i.toNat run < (bestOf m i run vs f).len.toNat) := by
  induction vs generalizing f with
  | nil => exact .inl rfl
  | cons j vs ih =>
    have hlen := Finder.better_len (cpl_le_sixteen hrun m i j) f j
    obtain e | ⟨hlt, us, ws, hvs, hcpl, hus⟩ := ih (f.better (cpl m j.toNat i.toNat run) j)
    · simp only [bestOf, e]
      obtain h | h := Nat.lt_or_ge f.len.toNat (cpl m j.toNat i.toNat run)
      · rw [hlen]
        rw [Finder.better_of_lt h]
        exact .inr ⟨by omega, [], vs, rfl, by simp only; omega, by simp⟩
      · exact .inl (Finder.better_of_le h j)
    · refine .inr ⟨by simp only [bestOf]; omega, j :: us, ws, by simp only [bestOf, List.cons_append, ← hvs], hcpl, ?_⟩
      refine List.forall_mem_cons.2 ⟨?_, hus⟩
      simp only [bestOf]
      omega

end

/-! ### What the walk comes to -/

/-- Where the walk over `vs` ended, at the cell `l`: `i` is linked at it or takes the place of the exact match in it
(41_match_tree.md R186, R193, R194). -/
inductive WalkEnd (m : Ring) (i : Pos) (run : Nat) (t : Tree) (vs : List Pos) (l : Link) (t1 : Tree) : Prop
  | slot (hfree : t.linkGet l = none) (hno : ∀ k ∈ vs, cpl m k.toNat i.toNat run ≠ run) (e : attach i l t = .ok t1)
  | exact (j : Pos) (hget : t.linkGet l = some j) (hj : j ∈ vs) (hc : cpl m j.toNat i.toNat run = run)
      (hone : ∀ k ∈ vs, cpl m k.toNat i.toNat run = run → k = j) (e : replaceNode i j t = .ok t1)

theorem WalkEnd.cons (h : WalkEnd m i run t vs l t1) (hj : cpl m j.toNat i.toNat run ≠ run) :
    WalkEnd m i run t (j :: vs) l t1 := by
  cases h with
  | slot hfree hno e => exact .slot hfree (List.forall_mem_cons.2 ⟨hj, hno⟩) e
  | exact k hget hk hc hone e =>
    exact .exact k hget (List.mem_cons_of_mem _ hk) hc (List.forall_mem_cons.2 ⟨fun h => absurd h hj, hone⟩) e

theorem insertWalk_slot {fuel : Nat} (hget : t.linkGet l = none) (e : attach i l t = .ok t1) :
    insertWalk m i run (fuel + 1) l t f = .ok (t1, f) := by
  simp only [insertWalk, hget, e]

theorem insertWalk_exact {fuel : Nat} (hget : t.linkGet l = some j) (hc : cpl m j.toNat i.toNat run = run)
    (e : replaceNode i j t = .ok t1) : insertWalk m i run (fuel + 1) l t f = .ok (t1, f.better run j) := by
  simp only [insertWalk, hget, hc, if_true, e]

theorem insertWalk_descend {fuel : Nat} (hget : t.linkGet l = some j) (hc : cpl m j.toNat i.toNat run ≠ run) :
    insertWalk m i run (fuel + 1) l t f = insertWalk m i run fuel (descend m i j (cpl m j.toNat i.toNat run)) t
      (f.better (cpl m j.toNat i.toNat run) j) := by
  rw [insertWalk, hget]
  exact if_neg hc

/-- Whatever the tree, a walk that answers has visited some nodes, found the best match among them, and linked `i` where it
ended. -/
theorem insertWalk_ok {fuel : Nat} (e : insertWalk m i run fuel l t f = .ok (t1, f1)) :
    ∃ vs, Visits m i run t vs (t.linkGet l) ∧ f1 = bestOf m i run vs f ∧
      WalkEnd m i run t vs (landing m i run vs l) t1 := by
  induction fuel generalizing l f with
  | zero => cases e
  | succ fuel ih =>
    cases hget : t.linkGet l with
    | none =>
      cases ha : attach i l t with
      | error x => simp only [insertWalk, hget, ha, reduceCtorEq] at e
      | ok t2 =>
        cases (insertWalk_slot hget ha).symm.trans e
        exact ⟨[], rfl, rfl, .slot hget (by simp) ha⟩
    | some j =>
      by_cases hc : cpl m j.toNat i.toNat run = run
      · cases hr : replaceNode i j t with
        | error x => simp only [insertWalk, hget, hc, hr, if_true, reduceCtorEq] at e
        | ok t2 =>
          cases (insertWalk_exact hget hc hr).symm.trans e
          refine ⟨[j], (visits_cons_exact hc).2 ⟨rfl, rfl⟩, by simp only [bestOf, hc], ?_⟩
          rw [landing_cons_exact hc]
          exact .exact j hget (List.mem_singleton_self j) hc (by simp) hr
      · obtain ⟨vs, hv, hf, hend⟩ := ih ((insertWalk_descend hget hc).symm.trans e)
        exact ⟨j :: vs, (visits_cons_descend hc).2 ⟨rfl, hv⟩, hf, landing_cons_descend (l := l) hc ▸ hend.cons hc⟩

theorem insertWalk_slot_answers {fuel : Nat} (hw : t.wf = true) (hl : t.live l) (hget : t.linkGet l = none) :
    ∃ r, insertWalk m i run (fuel + 1) l t f = .ok r := by
  obtain ⟨t1, e, -⟩ := attach_spec hw (Tree.ne_none_of_live hl) i
  exact ⟨_, insertWalk_slot hget e⟩

/-- In a tree the walk answers: ranks rise on it and stay below `N`. -/
theorem insertWalk_answers (hw : t.wf = true) (hs : t.Sound) (hi : t.parentOf i = .none) (hlt : ∀ q, rank q < 4096)
    (hrank : t.RankedBy rank) {fuel : Nat} (hl : t.live l) (hfuel : ∀ j, t.linkGet l = some j → 4096 ≤ fuel + rank j) :
    ∃ r, insertWalk m i run (fuel + 1) l t f = .ok r := by
  induction fuel generalizing l f with
  | zero =>
    cases hget : t.linkGet l with
    | none => exact insertWalk_slot_answers hw hl hget
    | some j =>
      have := hfuel j hget
      have := hlt j
      omega
  | succ fuel ih =>
    cases hget : t.linkGet l with
    | none => exact insertWalk_slot_answers hw hl hget
    | some j =>
      have hj := hs.member hl hget
      by_cases hc : cpl m j.toNat i.toNat run = run
      · obtain ⟨t1, e, -⟩ := replaceNode_spec hw hs hi hj
        exact ⟨_, insertWalk_exact hget hc e⟩
      · rw [insertWalk_descend hget hc]
        have hd := Tree.live_of_owner (descend_owner m i j (cpl m j.toNat i.toNat run)) hj
        refine ih hd fun k hk => ?_
        have := hfuel j hget
        have := hrank k j (by rw [hs.down _ k hd hk, descend_owner])
        omega

/-! ### INSERT -/

/-- The tree INSERT walks: the child fields of `i` are NIL (41_match_tree.md R186). -/
def Tree.cleared (i : Pos) (t : Tree) : Tree := (t.setLeft i none).setRight i none

@[simp] theorem Tree.parentOf_cleared (i q : Pos) : (t.cleared i).parentOf q = t.parentOf q := rfl
@[simp] theorem Tree.rootAt_cleared (i : Pos) (b : Byte) : (t.cleared i).rootAt b = t.rootAt b := rfl

theorem Tree.wf_cleared (hw : t.wf = true) (i : Pos) : (t.cleared i).wf = true :=
  Tree.wf_setRight i none (Tree.wf_setLeft i none hw)

theorem Tree.linkGet_cleared (hw : t.wf = true) (i : Pos) (l : Link) :
    (t.cleared i).linkGet l = if l.owner = some i then none else t.linkGet l := by
  rw [Tree.cleared, Tree.linkGet_setRight (Tree.wf_setLeft i none hw), Tree.linkGet_setLeft hw]
  simp only [Link.owner_eq_some_iff]
  grind

theorem Tree.linkGet_cleared_of_ne (hw : t.wf = true) (h : l.owner ≠ some i) : (t.cleared i).linkGet l = t.linkGet l := by
  rw [Tree.linkGet_cleared hw, if_neg h]

/-- The child fields of a position in no tree belong to no tree. -/
theorem Tree.owner_ne_of_live (hi : t.parentOf i = .none) (hl : t.live l) : l.owner ≠ some i :=
  fun ho => (Tree.live_iff.1 hl).2 i ho hi

theorem Tree.Sound.cleared (hs : t.Sound) (hw : t.wf = true) (hi : t.parentOf i = .none) : (t.cleared i).Sound :=
  hs.congr (fun _ => rfl) fun _ hl => Tree.linkGet_cleared_of_ne hw (Tree.owner_ne_of_live hi hl)

theorem insert_eq (hi : t.parentOf i = .none) : insert m i run t f =
    insertWalk m i run walkFuel (.root (rbRead i m)) (t.cleared i) { f with len := 2#5 } := by
  rw [insert, if_neg (not_not.2 hi)]
  rfl

/-- INSERT checks that its position is in no tree (41_match_tree.md R195). -/
theorem not_member_of_insert (e : insert m i run t f = .ok (t1, f1)) : t.parentOf i = .none := by
  by_contra hi
  simp [insert, hi] at e

/-- What INSERT has done in a tree, its walk over `vs` having ended at the cell `l`: `i` is a new leaf there, or in the place
of the one node of `vs` that matches over the whole `run`. -/
inductive InsertEnd (m : Ring) (i : Pos) (run : Nat) (t : Tree) (vs : List Pos) (l : Link) (t1 : Tree) : Prop
  | leaf (hfree : t.linkGet l = none) (hno : ∀ k ∈ vs, cpl m k.toNat i.toNat run ≠ run)
      (ha : Tree.Attached i l (t.cleared i) t1)
  | exact (j : Pos) (hget : t.linkGet l = some j) (hj : j ∈ vs) (hc : cpl m j.toNat i.toNat run = run)
      (hone : ∀ k ∈ vs, cpl m k.toNat i.toNat run = run → k = j) (hr : Tree.Replaced i j t t1)

/-- The fields of `i` that the walk cleared are written again. -/
theorem Tree.Replaced.of_cleared (hw : t.wf = true) (hij : i ≠ j) (h : Tree.Replaced i j (t.cleared i) t1) :
    Tree.Replaced i j t t1 := by
  have hl : (t.cleared i).leftOf j = t.leftOf j := Tree.linkGet_cleared_of_ne (l := .left j) hw (by simp [hij.symm])
  have hr : (t.cleared i).rightOf j = t.rightOf j := Tree.linkGet_cleared_of_ne (l := .right j) hw (by simp [hij.symm])
  obtain ⟨hcells, hparents⟩ := h
  simp only [hl, hr, Tree.parentOf_cleared] at hcells hparents
  refine ⟨fun l => ?_, hparents⟩
  rw [hcells, Tree.linkGet_cleared hw]
  simp only [Link.owner_eq_some_iff]
  grind

/-- INSERT in a tree: the nodes it visits, the result among them, and where it links. -/
theorem insert_spec (hw : t.wf = true) (hs : t.Sound) (hi : t.parentOf i = .none) (m : Ring) (run : Nat) (f : Finder) :
    ∃ t1 vs, insert m i run t f = .ok (t1, bestOf m i run vs { f with len := 2#5 }) ∧
      Visits m i run t vs (t.rootAt (rbRead i m)) ∧ (∀ j ∈ vs, t.parentOf j ≠ .none) ∧
      t.live (landing m i run vs (.root (rbRead i m))) ∧
      InsertEnd m i run t vs (landing m i run vs (.root (rbRead i m))) t1 := by
  have hw0 := Tree.wf_cleared hw i
  have hs0 := hs.cleared hw hi
  obtain ⟨rank, hlt, hrank⟩ := hs0.exists_rank_lt
  obtain ⟨⟨t1, f1⟩, e⟩ := insertWalk_answers (m := m) (run := run) (f := { f with len := 2#5 }) (fuel := 4096)
    (l := .root (rbRead i m)) hw0 hs0 hi hlt hrank trivial (fun j _ => by omega)
  obtain ⟨vs, hv, rfl, hend⟩ := insertWalk_ok e
  obtain ⟨hmem, hland⟩ := hv.live hs0 trivial
  have hget : (t.cleared i).linkGet (landing m i run vs (.root (rbRead i m))) =
      t.linkGet (landing m i run vs (.root (rbRead i m))) :=
    Tree.linkGet_cleared_of_ne hw (Tree.owner_ne_of_live hi hland)
  refine ⟨t1, vs, (insert_eq hi).trans e, hv.congr fun l q ho hq => ?_, hmem, hland, ?_⟩
  · exact (Tree.linkGet_cleared_of_ne hw fun h => hmem q hq (Option.some.inj (ho.symm.trans h) ▸ hi)).symm
  · cases hend with
    | slot hfree hno e =>
      obtain ⟨t2, e2, ha⟩ := attach_spec hw0 (Tree.ne_none_of_live hland) i
      cases e2.symm.trans e
      exact .leaf (hget ▸ hfree) hno ha
    | exact j hj hjv hc hone e =>
      obtain ⟨t2, e2, hr⟩ := replaceNode_spec hw0 hs0 hi (hmem j hjv)
      cases e2.symm.trans e
      exact .exact j (hget ▸ hj) hjv hc hone (hr.of_cleared hw fun e => hmem j hjv (e ▸ hi))

end Sys2Proof.Machine
end

section
/-!
PROOFS. What INSERT gives (41_match_tree.md R185 to R189, R193, R194): its result, its position, and the cells it changes.
-/

namespace Sys2Proof.Machine

variable {m : Ring} {t t1 : Tree} {i j q : Pos} {run : Nat} {l : Link} {f : Finder} {vs : List Pos}

/-! ### The result -/

/-- A longer match than before the walk is that of the first node visited of its length (41_match_tree.md R189). -/
theorem bestOf_found (hrun : run ≤ 16) (m : Ring) (i : Pos) (vs : List Pos) (f : Finder)
    (hlt : f.len.toNat < (bestOf m i run vs f).len.toNat) :
    ∃ us ws, vs = us ++ (bestOf m i run vs f).pos :: ws ∧
      cpl m (bestOf m i run vs f).pos.toNat i.toNat run = (bestOf m i run vs f).len.toNat ∧
      ∀ u ∈ us, cpl m u.toNat i.toNat run < (bestOf m i run vs f).len.toNat := by
  obtain e | ⟨-, h⟩ := bestOf_cases hrun m i vs f
  · exact absurd (e ▸ hlt) (lt_irrefl _)
  · exact h

/-! ### The cells and the members -/

/-- Of the cells that do not belong to `i`, INSERT writes the one it links `i` at, and no other (41_match_tree.md R200). -/
structure Tree.LinkedAt (i : Pos) (l : Link) (t t1 : Tree) : Prop where
  parent : t1.parentOf i = l
  cells : ∀ l', l'.owner ≠ some i → t1.linkGet l' = if l' = l then some i else t.linkGet l'

theorem InsertEnd.linkedAt (h : InsertEnd m i run t vs l t1) (hw : t.wf = true) (hs : t.Sound) (hi : t.parentOf i = .none)
    (hl : t.live l) : Tree.LinkedAt i l t t1 := by
  cases h with
  | leaf hfree hno ha =>
    refine ⟨by simp [ha.parents], fun l' hl' => ?_⟩
    rw [ha.cells, Tree.linkGet_cleared_of_ne hw hl']
  | exact j hget hj hc hone hr =>
    have hp : t.parentOf j = l := hs.down l j hl hget
    have hij : i ≠ j := fun e => hs.member hl hget (e ▸ hi)
    refine ⟨by rw [hr.parents, if_neg hij, if_pos rfl, hp], fun l' hl' => ?_⟩
    have hll : l' ≠ .left i := fun e => hl' (by simp [e])
    have hlr : l' ≠ .right i := fun e => hl' (by simp [e])
    rw [hr.cells, hp, if_neg hll, if_neg hlr]

/-- With no exact match, `i` has no children (41_match_tree.md R194). -/
theorem InsertEnd.noChildren (h : InsertEnd m i run t vs l t1) (hw : t.wf = true) (hi : t.parentOf i = .none) (hl : t.live l)
    (hno : ∀ j ∈ vs, cpl m j.toNat i.toNat run ≠ run) : t1.leftOf i = none ∧ t1.rightOf i = none := by
  have howner := Tree.owner_ne_of_live hi hl
  have hll : Link.left i ≠ l := fun e => howner (by simp [← e])
  have hlr : Link.right i ≠ l := fun e => howner (by simp [← e])
  cases h with
  | exact j hget hj hc => exact absurd hc (hno j hj)
  | leaf hfree hno ha =>
    exact ⟨by simpa [hll, Tree.linkGet_cleared hw] using ha.cells (.left i),
      by simpa [hlr, Tree.linkGet_cleared hw] using ha.cells (.right i)⟩

/-- An exact match leaves, and `i` takes over its children (41_match_tree.md R193). -/
theorem InsertEnd.replaces (h : InsertEnd m i run t vs l t1) (hs : t.Sound) (hi : t.parentOf i = .none) (hl : t.live l)
    (hj : j ∈ vs) (hc : cpl m j.toNat i.toNat run = run) :
    t.linkGet l = some j ∧ Tree.Replaced i j t t1 ∧ t1.parentOf j = .none ∧
      t1.leftOf i = t.leftOf j ∧ t1.rightOf i = t.rightOf j := by
  cases h with
  | leaf hfree hno => exact absurd hc (hno j hj)
  | exact k hget hk hck hone hr =>
    obtain rfl : j = k := hone j hj hc
    have hp : t.parentOf j = l := hs.down l j hl hget
    have howner := Tree.owner_ne_of_live hi hl
    have hll : Link.left i ≠ l := fun e => howner (by simp [← e])
    have hlr : Link.right i ≠ l := fun e => howner (by simp [← e])
    exact ⟨hget, hr, by simp [hr.parents], by simpa [hp, hll] using hr.cells (.left i),
      by simpa [hp, hlr] using hr.cells (.right i)⟩

/-- INSERT leaves a tree. -/
theorem InsertEnd.sound (h : InsertEnd m i run t vs l t1) (hw : t.wf = true) (hs : t.Sound) (hi : t.parentOf i = .none)
    (hl : t.live l) : t1.Sound := by
  cases h with
  | leaf hfree hno ha =>
    have hs0 := hs.cleared hw hi
    have hget := Tree.linkGet_cleared_of_ne hw (Tree.owner_ne_of_live hi hl)
    exact hs0.attached hi (fun l' ho => by rw [Tree.linkGet_cleared hw, if_pos ho]) hl (hget.trans hfree) ha
  | exact j hget hj hc hone hr => exact hs.replaced hi (hs.member hl hget) hr

/-- INSERT puts `i` in, and lets out an exact match alone. -/
theorem InsertEnd.members (h : InsertEnd m i run t vs l t1) (hs : t.Sound) (hl : t.live l) :
    ∃ j, ∀ q, q ≠ i → (t1.parentOf q ≠ .none → t.parentOf q ≠ .none) ∧
      (t.parentOf q ≠ .none → t1.parentOf q = .none → q = j ∧ cpl m q.toNat i.toNat run = run) := by
  cases h with
  | leaf hfree hno ha =>
    refine ⟨i, fun q hq => ?_⟩
    have hp : t1.parentOf q = t.parentOf q := by simp [ha.parents, hq]
    rw [hp]
    exact ⟨id, fun h1 h2 => absurd h2 h1⟩
  | exact j hget hj hc hone hr =>
    refine ⟨j, fun q hq => ?_⟩
    have hmem := hs.replaced_member (hs.member hl hget) hr q
    refine ⟨fun h1 => (hmem.1 h1).2.resolve_left hq, fun h1 h2 => ?_⟩
    have hqj : q = j := by
      by_contra hqj
      exact hmem.2 ⟨hqj, .inr h1⟩ h2
    exact ⟨hqj, hqj ▸ hc⟩

end Sys2Proof.Machine

namespace Sys2Proof

open Sys2Proof.Machine

/-- Settles O34: the walk ends, and links `i` as a leaf or in the place of an exact match. -/
theorem insertPutsInExactlyOnePosition : Obligations.InsertPutsInExactlyOnePosition := by
  intro m i run t f hw hs hi
  obtain ⟨t1, vs, e, -, -, hland, hend⟩ := insert_spec hw hs hi m run f
  refine ⟨t1, _, e, hend.sound hw hs hi hland, ?_, hend.members hs hland⟩
  rw [(hend.linkedAt hw hs hi hland).parent]
  exact Tree.ne_none_of_live hland

/-- Settles O29: the result is the best match of the nodes visited, whatever the tree. -/
theorem insertReturnsATrueMatch : Obligations.InsertReturnsATrueMatch := by
  intro m i run t t1 f f1 hrun e
  obtain ⟨vs, -, rfl, -⟩ := insertWalk_ok ((insert_eq (not_member_of_insert e)).symm.trans e)
  refine ⟨le_bestOf_len hrun m i vs { f with len := 2#5 }, bestOf_len_le hrun m i vs { f with len := 2#5 }, fun h3 => ?_⟩
  obtain ⟨us, ws, -, hcpl, -⟩ := bestOf_found hrun m i vs { f with len := 2#5 } h3
  exact hcpl

/-- Settles O59: the walk, its result, and the one cell written. -/
theorem insertFollowsTheFirstDifferingByte : Obligations.InsertFollowsTheFirstDifferingByte := by
  intro m i run t f hw hs hi hrun
  obtain ⟨t1, vs, e, hv, -, hland, hend⟩ := insert_spec hw hs hi m run f
  obtain ⟨hparent, hcells⟩ := hend.linkedAt hw hs hi hland
  refine ⟨t1, _, vs, e, hv, hparent, ?_, fun j hj => cpl_le_bestOf_len hrun m i _ hj,
    bestOf_found hrun m i vs { f with len := 2#5 }, fun j hj hc => ?_,
    hend.noChildren hw hi hland, fun c hc => ?_, fun q hq hql => ?_, fun q hq hqr => ?_⟩
  · rw [hparent, hcells _ (Tree.owner_ne_of_live hi hland), if_pos rfl]
  · obtain ⟨-, -, hout, hl, hr⟩ := hend.replaces hs hi hland hj hc
    exact ⟨hl, hr, hout⟩
  · rw [hparent] at hc
    simpa [hc.symm] using hcells (.root c)
  · rw [hparent] at hql
    simpa [hql.symm, hq] using hcells (.left q)
  · rw [hparent] at hqr
    simpa [hqr.symm, hq] using hcells (.right q)

/-- Settles O31: the walk stops at the root, its exact match. -/
theorem exactMatchReplacesTheRoot : Obligations.ExactMatchReplacesTheRoot := by
  intro m i j run t f hw hs hi hroot hc h3 hrun
  obtain ⟨t1, vs, e, hv, -, hland, hend⟩ := insert_spec hw hs hi m run f
  obtain rfl : vs = [j] := (hroot ▸ hv).eq_singleton hc
  rw [landing_cons_exact hc] at hland hend
  obtain ⟨hparent, hcells⟩ := hend.linkedAt hw hs hi hland
  obtain ⟨-, hr, hout, hl, hright⟩ := hend.replaces hs hi hland (List.mem_singleton_self j) hc
  have hj : t.parentOf j ≠ .none := hs.member (l := .root _) trivial hroot
  have hbest : bestOf m i run [j] { f with len := 2#5 } = { len := BitVec.ofNat 5 run, pos := j } := by
    simp only [bestOf, hc]
    exact Finder.better_of_lt (show 2 < run by omega) j
  have hchild : ∀ q, (t.parentOf q).owner = some j → q ≠ i ∧ q ≠ j := fun q ho =>
    ⟨fun e => Link.ne_none_of_owner ho (e ▸ hi), fun e => hs.owner_ne_self q (e ▸ ho)⟩
  refine ⟨t1, hbest ▸ e, by simpa using hcells (.root (rbRead i m)), hparent, hout, hl, hright, fun q hq => ?_,
    fun q hq => ?_⟩
  · obtain ⟨hqi, hqj⟩ := hchild q (by simp [(hs.leftOf_iff hj).1 hq])
    simp [hr.parents, hqi, hqj, hq]
  · have hp := (hs.rightOf_iff hj).1 hq
    obtain ⟨hqi, hqj⟩ := hchild q (by simp [hp])
    have hql : t.leftOf j ≠ some q := fun hq' => by simpa [hp] using (hs.leftOf_iff hj).1 hq'
    simp [hr.parents, hqi, hqj, hql, hq]

/-- Settles O30: the walk ends at once, at the root entry. -/
theorem insertIntoAnEmptyTreeMakesARoot : Obligations.InsertIntoAnEmptyTreeMakesARoot := by
  intro m i run t f hw hi hroot
  obtain ⟨t1, e, ha⟩ := attach_spec (Tree.wf_cleared hw i) (l := .root (rbRead i m)) (by simp) i
  have hcells : ∀ l, t1.linkGet l =
      if l = .root (rbRead i m) then some i else if l.owner = some i then none else t.linkGet l := fun l => by
    rw [ha.cells, Tree.linkGet_cleared hw]
  refine ⟨t1, _, (insert_eq hi).trans (insertWalk_slot hroot e), rfl, by simpa using hcells (.root (rbRead i m)),
    by simp [ha.parents], by simpa using hcells (.left i), by simpa using hcells (.right i), fun c hc => ?_, fun q hq => ?_⟩
  · simpa [hc] using hcells (.root c)
  · exact ⟨by simp [ha.parents, hq], by simpa [hq] using hcells (.left q), by simpa [hq] using hcells (.right q)⟩

end Sys2Proof
end

section
/-!
PROOFS. The match tree from step to step (41_match_tree.md R195, R197, R198): what a step does to the tree and to the position
that is inserted next, that the links stay trees and the members inside the window, and that the engine always answers.
-/

namespace Sys2Proof.Machine

variable {s t u : State} {n : Nat} {q : Pos}

/-! ### The next insertion -/

/-- The position the run inserts next: `enc_p`, or the one after it during a FLUSH inside a step, whose INSERT is done
(42_encoder.md R225, R226). -/
def State.nextInsert (s : State) : Pos := s.enc.p + (if s.phase = .encStep ∧ s.flush ≠ none then 1#12 else 0#12)

theorem State.nextInsert_of_flush_none (hf : s.flush = none) : s.nextInsert = s.enc.p := by
  simp [State.nextInsert, hf]

theorem State.nextInsert_of_not_encStep (hp : s.phase ≠ .encStep) : s.nextInsert = s.enc.p := by
  simp [State.nextInsert, hp]

theorem State.nextInsert_flushing (hp : s.phase = .encStep) (hf : s.flush ≠ none) : s.nextInsert = s.enc.p + 1#12 := by
  simp [State.nextInsert, hp, hf]

/-- Between two steps and inside a FLUSH alike, no member is among the `F` positions from the next insertion on. -/
theorem windowInv_iff : WindowInv s ↔ (s.phase = .encPreload → ∀ q, s.tree.parentOf q = .none) ∧
    (s.phase = .encStep → ∀ k : Pos, k.toNat < Config.F → s.tree.parentOf (s.nextInsert + k) = .none) := by
  by_cases hf : s.flush = none
  · simp only [State.nextInsert_of_flush_none hf]
    exact ⟨fun h => ⟨h.preload, fun hp => h.between hp hf⟩,
      fun ⟨h1, h2⟩ => ⟨h1, fun hp _ => h2 hp, fun _ hn => absurd hf hn⟩⟩
  · refine ⟨fun h => ⟨h.preload, fun hp => ?_⟩, fun ⟨h1, h2⟩ => ⟨h1, fun _ hn => absurd hn hf, fun hp _ => ?_⟩⟩
    · rw [State.nextInsert_flushing hp hf]
      exact h.flushing hp hf
    · rw [← State.nextInsert_flushing hp hf]
      exact h2 hp

theorem WindowInv.of_not_encoding (hp : s.phase.encoding = false) : WindowInv s :=
  windowInv_iff.2 ⟨fun e => by simp [e, Phase.encoding] at hp, fun e => by simp [e, Phase.encoding] at hp⟩

theorem InsertedInv.of_not_encoding (hp : s.phase.encoding = false) (n : Nat) : InsertedInv n s :=
  ⟨fun h => by simp [h] at hp, fun h => by simp [h] at hp⟩

/-! ### What a move of the engine does to the tree -/

theorem PreloadRead.tree (h : PreloadRead s u) : u.tree = s.tree := by cases h <;> rfl
theorem PreloadRead.p (h : PreloadRead s u) : u.enc.p = s.enc.p := by cases h <;> rfl
theorem LookaheadRead.tree {tr : Tree} (h : LookaheadRead s tr u) : u.tree = tr := by cases h <;> rfl
theorem LookaheadRead.p {tr : Tree} (h : LookaheadRead s tr u) : u.enc.p = s.enc.p := by cases h <;> rfl

/-- What a move that leaves an encode run going has done to the tree: nothing, and the next insertion is the same; or the
DELETE and the INSERT of one step. -/
inductive TreeMove (s t : State) : Prop
  | keeps (hs : s.phase.encoding = true) (htree : t.tree = s.tree) (hnext : t.nextInsert = s.nextInsert)
      (hpre : t.phase = .encPreload → s.phase = .encPreload)
      (hstep : t.phase = .encStep → s.phase = .encStep ∨ s.phase = .encPreload)
  | inserts {tr : Tree} {m : Ring} {run : Nat} {f f1 : Finder} (hp : s.phase = .encStep) (hf : s.flush = none)
      (hd : delete (lookaheadSlot s.enc) s.tree = .ok tr) (hi : insert m s.enc.p run tr f = .ok (t.tree, f1))
      (hnext : t.nextInsert = s.enc.p + 1#12) (hpre : t.phase ≠ .encPreload)

theorem flushNext_treeMove {k : BitVec 5} (hf : s.flush = some k) (hp : s.phase = .encStep ∨ s.phase = .encFinal)
    (ht : (flushNext k s).phase.encoding = true) : TreeMove s (flushNext k s) := by
  have henc := encoding_of_encStep_or_encFinal hp
  obtain ⟨-, e⟩ | ⟨-, -, e⟩ | ⟨-, hnf, e⟩ := flushNext_cases k s <;> rw [e] at ht ⊢
  · exact .keeps henc rfl (by simp [State.nextInsert, hf]) id .inl
  · cases ht
  · have hstep := hp.resolve_right hnf
    refine .keeps henc rfl ?_ (fun e => ?_) (fun _ => .inl hstep)
    · rw [State.nextInsert_of_flush_none rfl, State.nextInsert_flushing hstep (by simp [hf])]
      rfl
    · obtain e' | e' := encStepTail_phase_cases (s := endFlush s) hstep <;> cases e'.symm.trans e

theorem preloadExit_treeMove (hf : s.flush = none) (hp : s.phase = .encPreload) (hr : PreloadRead s u) :
    TreeMove s (preloadExit u) := by
  have hfu : u.flush = none := hr.flush.trans hf
  have henc : s.phase.encoding = true := by rw [hp]; rfl
  have hnext : s.nextInsert = u.enc.p := (State.nextInsert_of_flush_none hf).trans hr.p.symm
  refine .keeps henc ?_ ?_ (fun _ => hp) (fun _ => .inr hp)
  · obtain ⟨-, e⟩ | ⟨-, e⟩ := preloadExit_cases u <;> rw [e] <;> exact hr.tree
  · rw [hnext]
    obtain ⟨-, e⟩ | ⟨-, e⟩ := preloadExit_cases u <;> rw [e] <;> exact State.nextInsert_of_flush_none hfu

theorem encStepEmit_tree (s : State) : (encStepEmit s).tree = s.tree := by
  obtain ⟨-, e⟩ | ⟨-, -, e⟩ | ⟨-, -, e⟩ := encStepEmit_cases s <;> rw [e] <;> rfl

theorem encStepEmit_next (hp : s.phase = .encStep) (hf : s.flush = none) :
    (encStepEmit s).nextInsert = s.enc.p + 1#12 ∧ (encStepEmit s).phase ≠ .encPreload := by
  have htail : ∀ u : State, u.phase = .encStep → (encStepTail u).phase ≠ .encPreload := fun u hu e => by
    obtain e' | e' := encStepTail_phase_cases hu <;> cases e'.symm.trans e
  obtain ⟨-, e⟩ | ⟨-, -, e⟩ | ⟨-, -, e⟩ := encStepEmit_cases s <;> rw [e]
  · exact ⟨State.nextInsert_of_flush_none hf, htail s hp⟩
  · exact ⟨State.nextInsert_flushing hp (by simp), fun e => by cases hp.symm.trans e⟩
  · exact ⟨State.nextInsert_of_flush_none hf, htail _ hp⟩

/-- No move of the engine begins an encode run: MODE stays while a run goes on (10_state.md R35). -/
theorem EngineMove.encoding (h : EngineMove s t) (hs : StatusInv s) (ht : t.phase.encoding = true) :
    s.phase.encoding = true := by
  obtain hk | ⟨u, rfl | ⟨_, rfl⟩, -⟩ := h.control
  · have hst := hs.engineMove h
    obtain ⟨hidle, hhalted⟩ := hs.busy.1 (hk.state.symm.trans (hst.busy_of_encoding ht))
    have hmode : s.phase.decoding ≠ true := fun hd => by
      cases (hs.decMode hd).symm.trans (hk.mode.symm.trans (hst.encMode ht))
    cases hp : s.phase <;> simp_all [Phase.encoding, Phase.decoding]
  · cases ht
  · cases ht

/-- Every move of the engine that leaves an encode run going is one of the two. -/
theorem EngineMove.tree (h : EngineMove s t) (hs : StatusInv s) (ht : t.phase.encoding = true) : TreeMove s t := by
  have henc := h.encoding hs ht
  have hdec : s.phase.decoding ≠ true := Phase.encoding_ne_decoding henc
  cases h with
  | hold => exact .keeps ht rfl rfl id .inl
  | inputError => cases ht
  | outputError => cases ht
  | @flushByte k rest hf =>
    have hm := flushNext_treeMove (s := accepted (s.pk.blockByte k.toNat) rest s) hf (hs.flush (by simp [hf])) ht
    cases hm with
    | keeps h1 h2 h3 h4 h5 => exact .keeps h1 h2 h3 h4 h5
    | inserts h1 h2 => cases hf.symm.trans h2
  | preload hf hp hr => exact preloadExit_treeMove hf hp hr
  | @encStep tr tr1 u f hf hp hg hd hr hi =>
    obtain ⟨hnext, hpre⟩ := encStepEmit_next (s := recordMatch f { u with tree := tr1 })
      ((recordMatch_phase _ _).trans (hr.phase.trans hp)) ((recordMatch_flush _ _).trans (hr.flush.trans hf))
    have htree : (encStepEmit (recordMatch f { u with tree := tr1 })).tree = tr1 := by
      rw [encStepEmit_tree, recordMatch_tree]
    rw [recordMatch_enc] at hnext
    rw [hr.tree, hr.p, ← htree] at hi
    exact .inserts hp hf hd hi (hnext.trans (congrArg (· + 1#12) hr.p)) hpre
  | finalDone => cases ht
  | finalFlush hf hp =>
    have hne : s.phase ≠ .encStep := by simp [hp]
    refine .keeps ht rfl ?_ id .inl
    rw [State.nextInsert_of_not_encStep hne]
    exact State.nextInsert_of_not_encStep (s := beginFlush s) hne
  | tokenByte hf hp => exact absurd (decoding_of_decCtrl_or_decToken hp) hdec
  | streamEnd => cases ht
  | ctrl => cases ht
  | lit hf hp => exact absurd (decoding_of_decCtrl_or_decToken (.inr hp)) hdec
  | matchTok => cases ht
  | copyByte hf hp => exact absurd (by simp [hp, Phase.decoding]) hdec
  | copyOver hf hp => exact absurd (by simp [hp, Phase.decoding]) hdec

/-! ### One encoder step -/

/-- INSERT in a tree leaves a tree, and brings no other position in. -/
theorem insert_keeps {m : Ring} {i : Pos} {run : Nat} {tr tr1 : Tree} {f f1 : Finder} (hw : tr.wf = true) (hs : tr.Sound)
    (e : insert m i run tr f = .ok (tr1, f1)) :
    tr1.Sound ∧ ∀ q, tr1.parentOf q ≠ .none → q = i ∨ tr.parentOf q ≠ .none := by
  have hi := not_member_of_insert e
  obtain ⟨t1, vs, e', -, -, hland, hend⟩ := insert_spec hw hs hi m run f
  cases e'.symm.trans e
  obtain ⟨j, hj⟩ := hend.members hs hland
  exact ⟨hend.sound hw hs hi hland, fun q hq => or_iff_not_imp_left.2 fun hqi => (hj q hqi).1 hq⟩

/-- The DELETE and the INSERT of a step leave a tree, whose members are the inserted position and old members other than the
deleted one (41_match_tree.md R197, R198). -/
theorem delete_insert_keeps {m : Ring} {i z : Pos} {run : Nat} {tr tr1 tr2 : Tree} {f f1 : Finder} (hw : tr.wf = true)
    (hs : tr.Sound) (hd : delete z tr = .ok tr1) (hi : insert m i run tr1 f = .ok (tr2, f1)) :
    tr2.Sound ∧ ∀ q, tr2.parentOf q ≠ .none → q = i ∨ q ≠ z ∧ tr.parentOf q ≠ .none := by
  obtain ⟨t1, e, hs1, hmem⟩ := delete_spec hw hs z
  cases e.symm.trans hd
  obtain ⟨hs2, hin⟩ := insert_keeps (delete_wf hw hd) hs1 hi
  exact ⟨hs2, fun q hq => (hin q hq).imp_right (hmem q).1⟩

/-! ### The links stay trees -/

theorem TreeInv.engineMove (h : TreeInv s) (hs : StatusInv s) (hm : MemoryInv s) (hmove : EngineMove s t) : TreeInv t := by
  intro ht
  cases hmove.tree hs ht with
  | keeps henc htree => exact htree ▸ h henc
  | inserts hp hf hd hi =>
    obtain ⟨hsound, -⟩ := delete_insert_keeps hm.tree (h (encoding_of_encStep_or_encFinal (.inl hp))) hd hi
    exact hsound

/-- A tree of no members is a tree. -/
theorem treeInit_sound (tr : Tree) : (treeInit tr).Sound :=
  .of_ranked (rank := fun _ => 0) (fun q hq => absurd (treeInit_parentOf q) hq)
    (fun l q hl hq => by
      cases l with
      | none => cases hq
      | root b => cases hq
      | left r => exact absurd rfl hl
      | right r => exact absurd rfl hl)
    (fun q r ho => by simp at ho)

/-- Every move keeps the trees of an encode run; a START begins one with no members. -/
theorem treeInv_kept : KeptByMoves fun s => StatusInv s ∧ MemoryInv s ∧ TreeInv s where
  agents s ports env data ie := fun ⟨hs, hm, h⟩ =>
    ⟨statusInv_kept.agents s ports env data ie hs, memoryInv_kept.agents s ports env data ie hm, h⟩
  engine _ _ := fun ⟨hs, hm, h⟩ hmove => ⟨hs.engineMove hmove, hm.engineMove hmove, h.engineMove hs hm hmove⟩
  startEncode s := fun ⟨hs, hm, _⟩ hb =>
    ⟨statusInv_kept.startEncode s hs hb, memoryInv_kept.startEncode s hm hb, fun _ => treeInit_sound s.tree⟩
  startDecode s := fun ⟨hs, hm, _⟩ hb =>
    ⟨statusInv_kept.startDecode s hs hb, memoryInv_kept.startDecode s hm hb, fun ht => by cases ht⟩
  reset s := fun ⟨_, hm, _⟩ => ⟨statusInv_resetEvent s, hm.resetEvent, fun ht => by cases ht⟩

/-! ### The members stay inside the window -/

/-- The step's DELETE takes out the one position that leaves the window, and its INSERT adds the newest (41_match_tree.md
R197). -/
theorem InsertedInv.afterInsert (h : InsertedInv n s) (hp : s.phase = .encStep) (hf : s.flush = none)
    (hmem : ∀ q, t.tree.parentOf q ≠ .none → q = s.enc.p ∨ q ≠ lookaheadSlot s.enc ∧ s.tree.parentOf q ≠ .none)
    (hnext : t.nextInsert = s.enc.p + 1#12) : InsertedInv (n + 1) t := by
  have henc := encoding_of_encStep_or_encFinal (.inl hp)
  have hpn : s.enc.p = Config.start + BitVec.ofNat 12 n := (State.nextInsert_of_flush_none hf).symm.trans (h.next henc)
  refine ⟨fun _ => ?_, fun _ q hq => ?_⟩
  · show t.nextInsert = _
    rw [hnext, hpn]
    bv_omega
  · obtain rfl | ⟨hne, hold⟩ := hmem q hq
    · exact ⟨n, by omega, by omega, hpn⟩
    · obtain ⟨k, hk, hkn, rfl⟩ := h.members henc q hold
      refine ⟨k, by omega, ?_, rfl⟩
      have hne' : n ≠ k + 4080 := by
        rintro rfl
        refine hne ?_
        rw [lookaheadSlot, hpn]
        bv_omega
      omega

theorem WindowInv.afterInsert (h : WindowInv s) (hp : s.phase = .encStep) (hf : s.flush = none)
    (hmem : ∀ q, t.tree.parentOf q ≠ .none → q = s.enc.p ∨ q ≠ lookaheadSlot s.enc ∧ s.tree.parentOf q ≠ .none)
    (hnext : t.nextInsert = s.enc.p + 1#12) (hpre : t.phase ≠ .encPreload) : WindowInv t := by
  refine windowInv_iff.2 ⟨fun e => absurd e hpre, fun _ k hk => ?_⟩
  simp only [Config.F] at hk
  by_contra hq
  rw [hnext] at hq
  obtain e | ⟨hne, hold⟩ := hmem _ hq
  · bv_omega
  · have hk15 : k ≠ 15#12 := by
      rintro rfl
      exact hne (by rw [lookaheadSlot]; bv_omega)
    refine hold ?_
    rw [show s.enc.p + 1#12 + k = s.enc.p + (k + 1#12) by bv_omega]
    exact h.between hp hf _ (by simp only [Config.F]; bv_omega)

/-- A move that leaves the tree and the next insertion leaves the window. -/
theorem WindowInv.afterKeeps (h : WindowInv s) (htree : t.tree = s.tree) (hnext : t.nextInsert = s.nextInsert)
    (hpre : t.phase = .encPreload → s.phase = .encPreload)
    (hstep : t.phase = .encStep → s.phase = .encStep ∨ s.phase = .encPreload) : WindowInv t := by
  obtain ⟨h1, h2⟩ := windowInv_iff.1 h
  rw [windowInv_iff, htree, hnext]
  refine ⟨fun e => h1 (hpre e), fun e k hk => ?_⟩
  obtain e | e := hstep e
  · exact h2 e k hk
  · exact h1 e _

theorem InsertedInv.afterKeeps (h : InsertedInv n s) (hs : s.phase.encoding = true) (htree : t.tree = s.tree)
    (hnext : t.nextInsert = s.nextInsert) : InsertedInv n t :=
  ⟨fun _ => hnext.trans (h.next hs), fun _ => htree ▸ h.members hs⟩

/-- Every step moves the engine, begins an encode run, or leaves the tree side alone, unless it leaves no encode run. -/
theorem step_tree_cases (h : step s = .next t) :
    (∃ env, EngineMove { s with env := env } t) ∨
    (s.host.state ≠ .busy ∧ ∃ env, t = encInit (startCommon .encode { s with env := env })) ∨
    t.phase.encoding = false ∨ (t.tree = s.tree ∧ t.enc = s.enc ∧ t.phase = s.phase ∧ t.flush = s.flush) := by
  obtain ⟨-, e⟩ | ⟨x, rest, -, e⟩ := step_cases s <;> have h := e.symm.trans h
  · exact .inl ⟨s.env, engineStep_move h⟩
  obtain ⟨-, hm⟩ | ⟨a, -, hm⟩ | ⟨ports, rfl⟩ | ⟨-, rfl⟩ := turnStep_move h
  · exact .inl ⟨rest, hm⟩
  · cases hm with
    | read => exact .inr (.inr (.inr ⟨rfl, rfl, rfl, rfl⟩))
    | noEffect => exact .inr (.inr (.inr ⟨rfl, rfl, rfl, rfl⟩))
    | setIe => exact .inr (.inr (.inr ⟨rfl, rfl, rfl, rfl⟩))
    | startEncode _ hb => exact .inr (.inl ⟨hb, rest, rfl⟩)
    | startDecode => exact .inr (.inr (.inl rfl))
  · exact .inr (.inr (.inr ⟨rfl, rfl, rfl, rfl⟩))
  · exact .inr (.inr (.inl rfl))

/-- In an encode run a move of the engine inserts no position or the next one, and keeps the window. -/
theorem InsertedInv.engineMove (h : InsertedInv n s) (hinv : Inv s) (hm : EngineMove s t) (ht : t.phase.encoding = true) :
    (InsertedInv n t ∨ InsertedInv (n + 1) t) ∧ WindowInv t := by
  cases hm.tree hinv.status ht with
  | keeps henc htree hnext hpre hstep =>
    exact ⟨.inl (h.afterKeeps henc htree hnext), hinv.window.afterKeeps htree hnext hpre hstep⟩
  | inserts hp hf hd hi hnext hpre =>
    have hsound := hinv.tree (encoding_of_encStep_or_encFinal (.inl hp))
    obtain ⟨-, hmem⟩ := delete_insert_keeps hinv.memory.tree hsound hd hi
    exact ⟨.inr (h.afterInsert hp hf hmem hnext), hinv.window.afterInsert hp hf hmem hnext hpre⟩

/-! ### The engine answers -/

/-- The registers are in range where ENC_STEP checks them (log entry 12). -/
theorem RangeInv.encStepInRange (h : RangeInv s) (hp : s.phase = .encStep) (hf : s.flush = none) :
    encStepInRange s = true := by
  have hopen := h.pkOpen (encoding_of_encStep_or_encFinal (.inl hp)) hf
  simp [Machine.encStepInRange, h.stepRun hp, h.run, hopen, h.pkLen]

theorem encStepInsert_answers (hw : s.tree.wf = true) (hs : s.tree.Sound) (hp : s.tree.parentOf s.enc.p = .none) :
    Answers (encStepInsert s) := by
  obtain ⟨t1, vs, e, -⟩ := insert_spec hw hs hp s.ring s.enc.run.toNat s.finder
  obtain ⟨_, e', -⟩ | ⟨tr, f, -, e'⟩ := encStepInsert_cases s
  · cases e.symm.trans e'
  · exact ⟨_, e'⟩

/-- ENC_STEP answers: DELETE does in a tree, and INSERT's position is outside the window (41_match_tree.md R195). -/
theorem encStep_answers (h : Inv s) (hp : s.phase = .encStep) (hf : s.flush = none) : Answers (encStep s) := by
  obtain ⟨t1, ed, hs1, hmem⟩ := delete_spec h.memory.tree (h.tree (encoding_of_encStep_or_encFinal (.inl hp)))
    (lookaheadSlot s.enc)
  have hw1 := delete_wf h.memory.tree ed
  have hp1 : t1.parentOf s.enc.p = .none := by
    by_contra hn
    exact ((hmem _).1 hn).2 (by simpa using h.window.between hp hf 0#12 (by decide))
  obtain ⟨hr, -⟩ | ⟨-, -, -, e⟩ | ⟨-, x, e, -⟩ | ⟨tr, -, etr, hread⟩ := encStep_cases s
  · rw [h.range.encStepInRange hp hf] at hr
    cases hr
  · exact ⟨_, e⟩
  · cases ed.symm.trans e
  cases ed.symm.trans etr
  obtain ⟨-, e⟩ | ⟨b, rest, -, -, e⟩ | ⟨rest, -, -, e⟩ | ⟨rest, -, -, e⟩ := hread
  · exact e ▸ encStepInsert_answers hw1 hs1 hp1
  · exact e ▸ encStepInsert_answers hw1 hs1 hp1
  · exact e ▸ encStepInsert_answers hw1 hs1 hp1
  · exact ⟨_, e⟩

theorem preloadStep_answers (s : State) : Answers (preloadStep s) := by
  obtain ⟨-, e⟩ | ⟨-, -, e⟩ | ⟨b, rest, -, -, e⟩ | ⟨rest, -, -, e⟩ | ⟨rest, -, -, e⟩ := preloadStep_cases s <;>
    exact ⟨_, e⟩

theorem encFinalStep_answers (s : State) : Answers (encFinalStep s) := by
  unfold encFinalStep
  split <;> exact ⟨_, rfl⟩

theorem flushStep_answers (h : RangeInv s) {k : BitVec 5} (hf : s.flush = some k) : Answers (flushStep k s) := by
  have hl := h.pkLen
  have hb := h.pkBit
  rw [flushStep_inRange (h.flushed k hf) (by simp only [Config.F]; omega)]
  exact offer_answers _ _ _

end Sys2Proof.Machine

namespace Sys2Proof

open Sys2Proof.Machine

/-- Settles O55: a step of the encoder deletes from a tree and inserts into one, a START begins with none. -/
theorem linksStayTrees : Obligations.LinksStayTrees := by
  intro s t hs hm h hstep
  obtain ⟨-, -, ht⟩ := treeInv_kept.step ⟨hs, hm, h⟩ hstep
  exact ht

/-- Settles O56: only the engine inserts, one position a step of the encoder. -/
theorem membersStayInsideTheWindow : Obligations.MembersStayInsideTheWindow := by
  intro s t n hinv h hstep
  by_cases ht : t.phase.encoding = true
  case neg =>
    have ht : t.phase.encoding = false := by simpa using ht
    exact ⟨fun _ => .inl (.of_not_encoding ht n), fun _ => .of_not_encoding ht 0, .of_not_encoding ht⟩
  obtain ⟨env, hm⟩ | ⟨hb, env, rfl⟩ | hn | ⟨htree, he, hp, hf⟩ := step_tree_cases hstep
  · have hstatus : StatusInv { s with env := env } := { hinv.status with }
    have hs : s.phase.encoding = true := hm.encoding hstatus ht
    have hinv' : Inv { s with env := env } := { hinv with
      status := hstatus
      range := { hinv.range with }
      memory := { hinv.memory with }
      window := { hinv.window with } }
    obtain ⟨hins, hwin⟩ := InsertedInv.engineMove (s := { s with env := env }) ⟨h.next, h.members⟩ hinv' hm ht
    exact ⟨fun _ => hins, fun e => by simp [hs] at e, hwin⟩
  · refine ⟨fun hs => absurd (hinv.status.busy_of_encoding hs) hb, fun _ => ⟨fun _ => rfl, fun _ q hq => ?_⟩, ?_⟩
    · exact absurd (treeInit_parentOf q) hq
    · exact windowInv_iff.2 ⟨fun _ q => treeInit_parentOf q, fun e => by cases e⟩
  · rw [hn] at ht
    cases ht
  · have hnext : t.nextInsert = s.nextInsert := by simp only [State.nextInsert, he, hp, hf]
    rw [hp] at ht
    exact ⟨fun _ => .inl (h.afterKeeps ht htree hnext), fun e => by simp [ht] at e,
      hinv.window.afterKeeps htree hnext (hp ▸ id) (fun e => .inl (hp ▸ e))⟩

/-- Settles O58: in range a FLUSH answers, in a tree an encoder step does, and the rest answers always. -/
theorem theEngineNeverFaults : Obligations.TheEngineNeverFaults := by
  intro s h
  obtain ⟨k, hf, e⟩ | ⟨-, -, e⟩ | ⟨-, -, e⟩ | ⟨hf, hp, e⟩ | ⟨-, -, e⟩ | ⟨-, hp, e⟩ | ⟨-, hp, e⟩ | ⟨-, -, e⟩ |
    ⟨-, -, e⟩ := engineStep_cases s <;> rw [e]
  · exact flushStep_answers h.range hf
  · exact ⟨s, rfl⟩
  · exact preloadStep_answers s
  · exact encStep_answers h hp hf
  · exact encFinalStep_answers s
  · exact decodeStep_answers fun e => h.range.tokenBit (.inl e)
  · exact decodeStep_answers fun e => h.range.tokenBit (.inl e)
  · exact copyStep_answers s
  · exact ⟨s, rfl⟩

end Sys2Proof
end

section
/-!
PROOFS. The packer (42_encoder.md R232 to R234): the token bytes it holds, what each emit adds to them, and that the tokens of a
block fill it with the bytes the block encodes to.
-/

namespace Sys2Proof.Machine

variable {k : Packer}

/-! ### The bytes the packer holds -/

/-- The token bytes in the packer, oldest first (10_state.md R56). -/
def Packer.tokenBytes (k : Packer) : List Byte := k.buf.toList.take k.len.toNat

/-- The bytes of the block FLUSH writes, in order (42_encoder.md R235). -/
def Packer.blockBytes (k : Packer) : List Byte := k.ctrl :: k.tokenBytes

theorem Packer.length_tokenBytes (hl : k.len.toNat ≤ 16) : k.tokenBytes.length = k.len.toNat := by
  simp [tokenBytes, hl]

theorem Packer.length_blockBytes (hl : k.len.toNat ≤ 16) : k.blockBytes.length = k.len.toNat + 1 := by
  simp [blockBytes, length_tokenBytes hl]

theorem Packer.getElem?_blockBytes {n : Nat} (hl : k.len.toNat ≤ 16) (hn : n ≤ k.len.toNat) :
    k.blockBytes[n]? = some (k.blockByte n) := by
  cases n with
  | zero => rfl
  | succ t =>
    have ht : t < k.buf.toList.length := by rw [Vector.length_toList]; omega
    rw [blockBytes, List.getElem?_cons_succ, tokenBytes, List.getElem?_take_of_lt (by omega), blockByte_succ,
      List.getD_eq_getElem?_getD, List.getElem?_eq_getElem ht, Option.getD_some]

/-- The bytes of a block from byte `n` on begin with byte `n`. -/
theorem Packer.drop_blockBytes {n : Nat} (hl : k.len.toNat ≤ 16) (hn : n ≤ k.len.toNat) :
    k.blockBytes.drop n = k.blockByte n :: k.blockBytes.drop (n + 1) := by
  have hlt : n < k.blockBytes.length := by rw [length_blockBytes hl]; omega
  have hbyte : k.blockBytes[n] = k.blockByte n :=
    Option.some.inj ((List.getElem?_eq_getElem hlt).symm.trans (getElem?_blockBytes hl hn))
  rw [List.drop_eq_getElem_cons hlt, hbyte]

theorem Packer.toNat_len_push (b : Byte) (hl : k.len.toNat < 16) : (k.push b).len.toNat = k.len.toNat + 1 := by
  rw [push_len]
  bv_omega

/-- `Packer.push` adds its byte behind the others (42_encoder.md R232). -/
theorem Packer.tokenBytes_push (b : Byte) (hl : k.len.toNat < 16) : (k.push b).tokenBytes = k.tokenBytes ++ [b] := by
  have hb : k.len.toNat < k.buf.toList.length := by rwa [Vector.length_toList]
  rw [tokenBytes, toNat_len_push b hl, push_buf, Vector.toList_setIfInBounds, List.take_add_one,
    List.getElem?_set_self hb, List.take_set, List.set_eq_of_length_le (by simp), tokenBytes, Option.toList_some]

/-! ### Emitting a token -/

theorem emitLit_tokenBytes (b : Byte) (hl : k.len.toNat < 16) : (emitLit b k).tokenBytes = k.tokenBytes ++ [b] :=
  Packer.tokenBytes_push b hl

theorem emitMatch_tokenBytes (pos : Pos) (len : BitVec 5) (hl : k.len.toNat < 15) :
    (emitMatch pos len k).tokenBytes = k.tokenBytes ++ [matchByte0 pos, matchByte1 pos len] := by
  have hpush := Packer.toNat_len_push (matchByte0 pos) (show k.len.toNat < 16 by omega)
  calc (emitMatch pos len k).tokenBytes
      = (k.push (matchByte0 pos)).tokenBytes ++ [matchByte1 pos len] := Packer.tokenBytes_push _ (by omega)
    _ = k.tokenBytes ++ [matchByte0 pos] ++ [matchByte1 pos len] := by rw [Packer.tokenBytes_push _ (by omega)]
    _ = k.tokenBytes ++ [matchByte0 pos, matchByte1 pos len] := List.append_assoc ..

theorem emitLit_toNat_len (b : Byte) (hl : k.len.toNat < 16) : (emitLit b k).len.toNat = k.len.toNat + 1 :=
  Packer.toNat_len_push b hl

theorem emitMatch_toNat_len (pos : Pos) (len : BitVec 5) (hl : k.len.toNat < 15) :
    (emitMatch pos len k).len.toNat = k.len.toNat + 2 := by
  rw [emitMatch_len]
  bv_omega

end Sys2Proof.Machine

namespace Sys2Proof

open Sys2Proof.Machine

/-! ### The packer of a block -/

/-- The control byte of a block with one more token (30_encoding.md R134). -/
theorem controlByteFrom_concat (n : Nat) (ts : List Instr) (i : Instr) :
    controlByteFrom n (ts ++ [i]) = controlByteFrom n ts ||| (if i.isLit then 1#8 <<< (n + ts.length) else 0#8) := by
  induction ts generalizing n with
  | nil => simp [controlByteFrom]
  | cons j ts ih =>
    rw [List.cons_append, controlByteFrom, ih, controlByteFrom, BitVec.or_assoc, List.length_cons]
    congr 4
    omega

theorem controlByte_concat (ts : List Instr) (i : Instr) :
    controlByte (ts ++ [i]) = controlByte ts ||| (if i.isLit then 1#8 <<< ts.length else 0#8) := by
  rw [controlByte, controlByteFrom_concat, Nat.zero_add, controlByte]

/-- The packer holds the block of the tokens `ts` (42_encoder.md R232 to R234). -/
structure HoldsBlock (ts : List Instr) (k : Packer) : Prop where
  ctrl : k.ctrl = controlByte ts
  bit : k.bit.toNat = ts.length
  len : k.len.toNat = (ts.flatMap encode).length
  bytes : k.tokenBytes = ts.flatMap encode

variable {ts : List Instr} {k : Packer}

theorem HoldsBlock.blockBytes (h : HoldsBlock ts k) : k.blockBytes = encodeBlock ts := by
  rw [Packer.blockBytes, h.ctrl, h.bytes]
  rfl

theorem HoldsBlock.toNat_bit_add_one (h : HoldsBlock ts k) (hlen : ts.length < 8) : (k.bit + 1#4).toNat = ts.length + 1 := by
  have := h.bit
  bv_omega

theorem HoldsBlock.emitLit (h : HoldsBlock ts k) (hts : AllTokens ts) (hlen : ts.length < 8) (d : Byte) :
    HoldsBlock (ts ++ [.lit d]) (emitLit d k) := by
  have hl : k.len.toNat < 16 := by
    have := h.len
    have := tokenBytes_length_le hts
    omega
  constructor
  case ctrl =>
    rw [emitLit_ctrl, setControlBit, h.ctrl, h.bit, controlByte_concat]
    rfl
  case bit =>
    rw [emitLit_bit, h.toNat_bit_add_one hlen, List.length_append, List.length_singleton]
  case len =>
    rw [emitLit_toNat_len d hl, h.len, List.flatMap_append, List.length_append]
    rfl
  case bytes =>
    rw [emitLit_tokenBytes d hl, h.bytes, List.flatMap_append]
    rfl

theorem HoldsBlock.emitMatch (h : HoldsBlock ts k) (hts : AllTokens ts) (hlen : ts.length < 8) (pos : Pos) (len : BitVec 5) :
    HoldsBlock (ts ++ [.matchTok pos len]) (emitMatch pos len k) := by
  have hl : k.len.toNat < 15 := by
    have := h.len
    have := tokenBytes_length_le hts
    omega
  constructor
  case ctrl =>
    rw [emitMatch_ctrl, h.ctrl, controlByte_concat]
    exact BitVec.or_zero.symm
  case bit =>
    rw [emitMatch_bit, h.toNat_bit_add_one hlen, List.length_append, List.length_singleton]
  case len =>
    rw [emitMatch_toNat_len pos len hl, h.len, List.flatMap_append, List.length_append]
    rfl
  case bytes =>
    rw [emitMatch_tokenBytes pos len hl, h.bytes, List.flatMap_append]
    rfl

/-- Emitting one more token of a block that is not full. -/
theorem HoldsBlock.emitInstr (h : HoldsBlock ts k) (hts : AllTokens ts) (hlen : ts.length < 8) {i : Instr}
    (hi : i.place = .literal ∨ i.place = .matchSlot) : HoldsBlock (ts ++ [i]) (emitInstr k i) := by
  cases i with
  | lit d => exact h.emitLit hts hlen d
  | matchTok pos len => exact h.emitMatch hts hlen pos len
  | _ => simp [Instr.place] at hi

theorem holdsBlock_foldl_emitInstr {k0 : Packer} (hts : AllTokens ts) (hlen : ts.length ≤ 8) (h0 : HoldsBlock [] k0) :
    HoldsBlock ts (ts.foldl emitInstr k0) := by
  induction ts using List.reverseRecOn with
  | nil => exact h0
  | append_singleton ts i ih =>
    obtain ⟨hts, hi⟩ := List.forall_mem_append.1 hts
    rw [List.length_append, List.length_singleton] at hlen
    rw [List.foldl_append]
    exact (ih hts (by omega)).emitInstr hts (by omega) (hi i (List.mem_singleton_self i))

/-- Settles O9: by induction on the tokens, the packer holds the block of those emitted so far. -/
theorem packerAssemblesTheEncodedBlock : Obligations.PackerAssemblesTheEncodedBlock := by
  intro ts k0 hts hlen hctrl hbit hlen0
  have h0 : HoldsBlock [] k0 := ⟨hctrl, by rw [hbit]; rfl, by rw [hlen0]; rfl, by rw [Packer.tokenBytes, hlen0]; rfl⟩
  have h := holdsBlock_foldl_emitInstr hts hlen h0
  have hl : (ts.foldl emitInstr k0).len.toNat ≤ 16 := by
    have := h.len
    have := tokenBytes_length_le hts
    omega
  rw [← h.blockBytes, Packer.length_blockBytes hl]
  exact ⟨h.bit, rfl, fun n hn => Packer.getElem?_blockBytes hl (by omega)⟩

/-- Settles O10: register by register; a pair of bytes takes two places of the buffer. -/
theorem emitWritesTheTokenBytes : Obligations.EmitWritesTheTokenBytes := by
  intro k b pos len
  refine ⟨⟨rfl, rfl, rfl, Vector.toList_setIfInBounds⟩, fun hl => ⟨rfl, rfl, ?_, ?_⟩⟩
  · rw [emitMatch_len, BitVec.add_assoc]
    rfl
  · have hnext : (k.len + 1#5).toNat = k.len.toNat + 1 := by bv_omega
    rw [emitMatch_buf, Vector.toList_setIfInBounds, Vector.toList_setIfInBounds, hnext]
    rfl

end Sys2Proof
end

section
/-!
PROOFS. FLUSH and ENC_FINAL (42_encoder.md R235 to R237): a FLUSH whose bytes are all accepted, from any byte on, by induction on
the bytes that are left; and the end of ENC_STEP, which also follows a FLUSH.
-/

namespace Sys2Proof.Machine

variable {s t : State}

/-- A run begins with its first step. -/
theorem core_run_succ (n : Nat) (h : step s = .next t) : Sys2Proof.core.run (n + 1) s = Sys2Proof.core.run n t := by
  have hstep : Sys2Proof.core.step s = .next t := h
  simp only [Host.Core.run, hstep]

/-! ### The end of ENC_STEP -/

/-- Where a token starts, `enc_skip` is what the token leaves (42_encoder.md R226, R231). -/
theorem nextSkip_of_token {e : EncRegs} (he : e.skip = 0#4) (f : Finder) : nextSkip e f = skipAfter f.len := by
  simp [nextSkip, skipAfter, Config.threshold, he]

/-- Inside a match `enc_skip` counts down (42_encoder.md R226, R231). -/
theorem nextSkip_inside {e : EncRegs} (he : e.skip ≠ 0#4) (f : Finder) : nextSkip e f = e.skip - 1#4 := by
  simp [nextSkip, he]

theorem encStepTail_phase_of_encStep (hp : s.phase = .encStep) : (encStepTail s).phase = phaseAfter s.enc := by
  rw [encStepTail_phase, hp]
  rfl

theorem encStepTail_enc_of_token (hk : s.enc.skip = 0#4) : (encStepTail s).enc =
    { s.enc with skip := skipAfter s.finder.len, run := runAfter s.enc, p := s.enc.p + 1#12 } := by
  rw [encStepTail_enc, nextSkip_of_token hk]
  rfl

theorem encStepTail_enc_inside (hk : s.enc.skip ≠ 0#4) : (encStepTail s).enc =
    { s.enc with skip := s.enc.skip - 1#4, run := runAfter s.enc, p := s.enc.p + 1#12 } := by
  rw [encStepTail_enc, nextSkip_inside hk]
  rfl

/-! ### ENC_FINAL and what follows a FLUSH -/

theorem engineStep_encFinal (hf : s.flush = none) (hp : s.phase = .encFinal) : engineStep s = encFinalStep s := by
  rw [engineStep_phase hf]
  simp only [phaseStep, hp]

theorem afterFlush_final (hp : s.phase = .encFinal) : afterFlush s = runDone s := by simp [afterFlush, hp]

theorem afterFlush_step (hp : s.phase ≠ .encFinal) : afterFlush s = encStepTail s := by simp [afterFlush, hp]

@[simp] theorem afterFlush_pk (s : State) : (afterFlush s).pk = s.pk := by
  unfold afterFlush
  split <;> rfl

@[simp] theorem afterFlush_ports (s : State) : (afterFlush s).ports = s.ports := by
  unfold afterFlush
  split <;> rfl

@[simp] theorem afterFlush_outCount (s : State) : (afterFlush s).host.outCount = s.host.outCount := by
  unfold afterFlush
  split <;> rfl

theorem afterFlush_flush (hf : s.flush = none) : (afterFlush s).flush = none := by
  unfold afterFlush
  split
  · rfl
  · exact hf

theorem flushNext_last {n : BitVec 5} (hn : n = s.pk.len) : flushNext n s = afterFlush (endFlush s) := if_pos hn

theorem flushNext_more {n : BitVec 5} (hn : n ≠ s.pk.len) : flushNext n s = { s with flush := some (n + 1#5) } :=
  if_neg hn

/-! ### Accepted bytes -/

/-- An accepted byte is written, and the operation goes on by `k` (20_memory.md R91). -/
theorem offer_accepted {rest : List SinkAnswer} (hs : s.ports.sink = .ok :: rest) (b : Byte) (k : State → State) :
    offer b s k = .next (k (accepted b rest s)) := by
  simp [offer, outWrite, hs, accepted]

/-- The state after the bytes `bs` are accepted, one after the other (20_memory.md R91). -/
def acceptedAll (bs : List Byte) (rest : List SinkAnswer) (s : State) : State :=
  { s with
    ports := { s.ports with sink := rest, outStream := s.ports.outStream ++ bs }
    host := { s.host with outCount := s.host.outCount + BitVec.ofNat 32 bs.length } }

theorem acceptedAll_singleton (b : Byte) (rest : List SinkAnswer) (s : State) :
    acceptedAll [b] rest s = accepted b rest s := rfl

theorem acceptedAll_cons (b : Byte) (bs : List Byte) (r rest : List SinkAnswer) (s : State) :
    acceptedAll (b :: bs) rest s = acceptedAll bs rest (accepted b r s) := by
  have hcount : s.host.outCount + BitVec.ofNat 32 (b :: bs).length = s.host.outCount + 1#32 + BitVec.ofNat 32 bs.length := by
    rw [List.length_cons, Nat.add_comm bs.length, BitVec.ofNat_add, BitVec.add_assoc]
  simp only [acceptedAll, accepted, hcount, List.append_assoc, List.singleton_append]

/-! ### FLUSH, byte by byte -/

/-- A byte of a FLUSH is accepted (42_encoder.md R235). -/
theorem engineStep_flush_accepted {n : BitVec 5} {rest : List SinkAnswer} (hf : s.flush = some n)
    (hn : n.toNat ≤ s.pk.len.toNat) (hl : s.pk.len.toNat ≤ 16) (hs : s.ports.sink = .ok :: rest) :
    engineStep s = .next (flushNext n (accepted (s.pk.blockByte n.toNat) rest s)) := by
  rw [engineStep_flush hf, flushStep_inRange hn hl, offer_accepted hs]

/-- The last byte of a block is accepted (42_encoder.md R235). -/
theorem engineStep_flush_last {n : BitVec 5} {rest : List SinkAnswer} (hf : s.flush = some n) (hn : n = s.pk.len)
    (hl : s.pk.len.toNat ≤ 16) (hs : s.ports.sink = .ok :: rest) :
    engineStep s = .next (afterFlush (endFlush (accepted (s.pk.blockByte n.toNat) rest s))) := by
  rw [engineStep_flush_accepted hf (by rw [hn]) hl hs, flushNext_last (s := accepted _ rest s) hn]

/-- A byte of a block before its last is accepted (42_encoder.md R235). -/
theorem engineStep_flush_more {n : BitVec 5} {rest : List SinkAnswer} (hf : s.flush = some n)
    (hn : n.toNat < s.pk.len.toNat) (hl : s.pk.len.toNat ≤ 16) (hs : s.ports.sink = .ok :: rest) :
    engineStep s = .next { accepted (s.pk.blockByte n.toNat) rest s with flush := some (n + 1#5) } := by
  have hne : n ≠ s.pk.len := fun e => by simp [e] at hn
  rw [engineStep_flush_accepted hf hn.le hl hs, flushNext_more (s := accepted _ rest s) hne]

/-- A FLUSH with byte `n` and `d` more to write, all accepted, writes them in order and goes on as after its last byte
(42_encoder.md R235). -/
theorem run_flush_accepted {d : Nat} {n : BitVec 5} {rest : List SinkAnswer} (henv : s.env = []) (hf : s.flush = some n)
    (hn : n.toNat + d = s.pk.len.toNat) (hl : s.pk.len.toNat ≤ 16)
    (hs : s.ports.sink = List.replicate (d + 1) .ok ++ rest) :
    Sys2Proof.core.run (d + 1) s =
      .next (afterFlush (endFlush (acceptedAll (s.pk.blockBytes.drop n.toNat) rest s))) := by
  induction d generalizing s n with
  | zero =>
    have hlast : n = s.pk.len := BitVec.eq_of_toNat_eq hn
    have hnil : s.pk.blockBytes.drop (n.toNat + 1) = [] :=
      List.drop_of_length_le (by rw [Packer.length_blockBytes hl]; omega)
    rw [core_run_succ 0 ((step_engine henv).trans (engineStep_flush_last hf hlast hl hs)),
      Packer.drop_blockBytes hl (n := n.toNat) hn.le, hnil, acceptedAll_singleton]
    rfl
  | succ d ih =>
    have hnext : (n + 1#5).toNat = n.toNat + 1 := by bv_omega
    rw [core_run_succ (d + 1) ((step_engine henv).trans (engineStep_flush_more hf (by omega) hl hs)),
      Packer.drop_blockBytes hl (by omega), acceptedAll_cons, ← hnext]
    exact ih henv rfl (show (n + 1#5).toNat + d = s.pk.len.toNat by omega) hl rfl

end Sys2Proof.Machine

namespace Sys2Proof

open Sys2Proof.Machine

/-- Settles O11: the run over the whole block from its byte 0, then what follows a FLUSH in either phase. -/
theorem flushWritesTheWholeBlock : Obligations.FlushWritesTheWholeBlock := by
  intro s rest henv hf hl hs
  refine ⟨_, run_flush_accepted henv hf (Nat.zero_add _) hl hs, ?_⟩
  rw [BitVec.toNat_zero, List.drop_zero]
  have hcount := congrArg (BitVec.ofNat 32) (Packer.length_blockBytes hl)
  have hports := afterFlush_ports (endFlush (acceptedAll s.pk.blockBytes rest s))
  have hpk := afterFlush_pk (endFlush (acceptedAll s.pk.blockBytes rest s))
  refine ⟨congrArg Ports.outStream hports, congrArg Ports.sink hports, ?_, ?_,
    congrArg Packer.ctrl hpk, congrArg Packer.bit hpk, congrArg Packer.len hpk, afterFlush_flush rfl, fun hp => ?_,
    fun hp hk => ?_⟩
  · rw [hports]
    rfl
  · rw [afterFlush_outCount, ← hcount]
    rfl
  · rw [afterFlush_final (s := endFlush (acceptedAll s.pk.blockBytes rest s)) hp]
    exact ⟨rfl, rfl⟩
  · have hne : s.phase ≠ .encFinal := by simp [hp]
    rw [afterFlush_step (s := endFlush (acceptedAll s.pk.blockBytes rest s)) hne]
    exact ⟨rfl, encStepTail_phase_of_encStep hp, encStepTail_enc_of_token hk⟩

/-- Settles O28: ENC_FINAL by `pk_bit`, and the last byte of its FLUSH. -/
theorem finalFlushesAPartialBlockOnly : Obligations.FinalFlushesAPartialBlockOnly := by
  intro s hp
  refine ⟨fun hf hb => ⟨runDone s, ?_, ⟨rfl, rfl, rfl⟩, rfl⟩, fun hf hb => ?_, fun rest hf hl hs => ?_⟩
  · rw [engineStep_encFinal hf hp]
    exact if_pos hb
  · rw [engineStep_encFinal hf hp]
    exact if_neg hb
  · refine ⟨_, engineStep_flush_last hf rfl hl hs, ?_⟩
    rw [afterFlush_final (s := endFlush (accepted _ rest s)) hp]
    exact ⟨rfl, rfl, rfl⟩

end Sys2Proof
end

section
/-!
PROOFS. ENC_PRELOAD and ENC_STEP (42_encoder.md R222 to R231): what a step of each comes to, by the source's answer.
-/

namespace Sys2Proof.Machine

variable {s u : State}

/-! ### ENC_PRELOAD -/

theorem engineStep_encPreload (hf : s.flush = none) (hp : s.phase = .encPreload) : engineStep s = preloadStep s := by
  rw [engineStep_phase hf]
  simp only [phaseStep, hp]

theorem preloading_iff {e : EncRegs} : preloading e = true ↔ e.la.toNat < 16 ∧ e.eos = false := by
  simp [preloading, Config.F]

/-- Once the loop is over or its read is answered by DATA or END, the step goes on to the loop's exit (42_encoder.md R224). -/
theorem PreloadRead.preloadStep (h : PreloadRead s u) : preloadStep s = .next (preloadExit u) := by
  cases h with
  | noRead hl => simp only [Machine.preloadStep, hl, Bool.false_eq_true, if_false]
  | data hl hi => simp only [Machine.preloadStep, hl, if_true, inRead, hi]
  | ended hl hi => simp only [Machine.preloadStep, hl, if_true, inRead, hi]

theorem preloadStep_err {rest : List InItem} (hl : preloading s.enc = true) (hi : s.ports.inStream = .err :: rest) :
    preloadStep s = .next (raiseError .inIo { s with ports := { s.ports with inStream := rest } }) := by
  simp only [preloadStep, hl, if_true, inRead, hi]

/-- The preload goes on while its loop's condition holds (42_encoder.md R224). -/
theorem preloadExit_more (h : preloading s.enc = true) : preloadExit s = s := if_pos h

/-- The preload ends with `enc_run` the bytes it has read (42_encoder.md R224). -/
theorem preloadExit_over (h : preloading s.enc = false) : preloadExit s =
    { s with enc := { s.enc with run := s.enc.la }, phase := if s.enc.la.toNat = 0 then .encFinal else .encStep } := by
  simp only [preloadExit, h, Bool.false_eq_true, if_false]

/-! ### ENC_STEP -/

theorem engineStep_encStep (hf : s.flush = none) (hp : s.phase = .encStep) : engineStep s = encStep s := by
  rw [engineStep_phase hf]
  simp only [phaseStep, hp]

/-- After DELETE, and once END was read before or the source answers DATA or END, the step goes on to INSERT (42_encoder.md
R226, R229). -/
theorem LookaheadRead.encStep {tr : Tree} (h : LookaheadRead s tr u) (hg : encStepInRange s = true)
    (hd : delete (lookaheadSlot s.enc) s.tree = .ok tr) : encStep s = encStepInsert u := by
  cases h with
  | noRead he => simp [Machine.encStep, encStepRead, encStepHolds, hg, hd, he]
  | data he hi => simp [Machine.encStep, encStepRead, encStepHolds, inRead, hg, hd, he, hi]
  | ended he hi => simp [Machine.encStep, encStepRead, encStepHolds, inRead, hg, hd, he, hi]

/-- After DELETE, the source's ERR ends the run in the error (42_encoder.md R229; 60_exceptions.md R341). -/
theorem encStep_err {tr : Tree} {rest : List InItem} (hg : encStepInRange s = true) (he : s.enc.eos = false)
    (hd : delete (lookaheadSlot s.enc) s.tree = .ok tr) (hi : s.ports.inStream = .err :: rest) :
    encStep s = .next (raiseError .inIo { s with tree := tr, ports := { s.ports with inStream := rest } }) := by
  simp [encStep, encStepRead, encStepHolds, inRead, hg, hd, he, hi]

theorem encStepInsert_ok {tr : Tree} {f : Finder} (h : insert s.ring s.enc.p s.enc.run.toNat s.tree s.finder = .ok (tr, f)) :
    encStepInsert s = .next (encStepEmit (recordMatch f { s with tree := tr })) := by
  obtain ⟨_, h', -⟩ | ⟨tr', f', h', e⟩ := encStepInsert_cases s <;> cases h.symm.trans h'
  exact e

/-! ### What the end of ENC_STEP leaves -/

/-- The token that starts at `enc_p` (42_encoder.md R226, R230). -/
theorem emitToken_recordMatch (s : State) (f : Finder) : emitToken (recordMatch f s) =
    if 3 ≤ f.len.toNat then emitMatch f.pos f.len s.pk else emitLit (rbRead s.enc.p s.ring) s.pk := by
  rw [emitToken, recordMatch_len, recordMatch_pk, recordMatch_enc, recordMatch_ring, Config.threshold]
  by_cases hlen : 3 ≤ f.len.toNat
  · rw [if_pos hlen, if_pos hlen, recordMatch_finder s f hlen]
  · rw [if_neg hlen, if_neg hlen]

/-- The token fills its block exactly when it is the eighth (42_encoder.md R234). -/
theorem emitToken_bit_full (s : State) : (emitToken s).bit = 8#4 ↔ s.pk.bit = 7#4 := by
  rw [emitToken_bit]
  constructor <;> intro h <;> bv_omega

theorem encStepEmit_inside (hk : s.enc.skip ≠ 0#4) : encStepEmit s = encStepTail s := if_neg hk

theorem encStepEmit_full (hk : s.enc.skip = 0#4) (hb : s.pk.bit = 7#4) :
    encStepEmit s = beginFlush { s with pk := emitToken s } :=
  (if_pos hk).trans (if_pos ((emitToken_bit_full s).2 hb))

theorem encStepEmit_notFull (hk : s.enc.skip = 0#4) (hb : s.pk.bit ≠ 7#4) :
    encStepEmit s = encStepTail { s with pk := emitToken s } :=
  (if_pos hk).trans (if_neg fun h => hb ((emitToken_bit_full s).1 h))

theorem encStepEmit_pk_of_token (hk : s.enc.skip = 0#4) : (encStepEmit s).pk = emitToken s := by
  by_cases hb : s.pk.bit = 7#4
  · rw [encStepEmit_full hk hb]
    rfl
  · rw [encStepEmit_notFull hk hb]
    rfl

theorem encStepEmit_finder (s : State) : (encStepEmit s).finder = s.finder := by
  obtain ⟨-, e⟩ | ⟨-, -, e⟩ | ⟨-, -, e⟩ := encStepEmit_cases s <;> rw [e] <;> rfl

theorem encStepEmit_ports (s : State) : (encStepEmit s).ports = s.ports := by
  obtain ⟨-, e⟩ | ⟨-, -, e⟩ | ⟨-, -, e⟩ := encStepEmit_cases s <;> rw [e] <;> rfl

/-- From its INSERT on, ENC_STEP leaves what `StepEmits` says (42_encoder.md R226, R230, R231). -/
theorem stepEmits_encStepEmit (hp : s.phase = .encStep) (hf : s.flush = none) (f : Finder) :
    StepEmits s.enc s.pk s.ring f (encStepEmit (recordMatch f s)) := by
  have henc := recordMatch_enc s f
  have hpk := recordMatch_pk s f
  have hphase : (recordMatch f s).phase = .encStep := (recordMatch_phase s f).trans hp
  have hflush : (recordMatch f s).flush = none := (recordMatch_flush s f).trans hf
  constructor
  case len => rw [encStepEmit_finder, recordMatch_len]
  case found =>
    intro hlen
    rw [encStepEmit_finder, recordMatch_finder s f hlen]
  case ring => rw [encStepEmit_ring, recordMatch_ring]
  case inside =>
    intro hk
    rw [← henc] at hk ⊢
    rw [encStepEmit_inside hk]
    exact ⟨hpk, hflush, encStepTail_phase_of_encStep hphase, encStepTail_enc_inside hk⟩
  case token =>
    intro hk
    rw [encStepEmit_pk_of_token (by rw [henc, hk]), emitToken_recordMatch]
  case notFull =>
    intro hk hb
    rw [← henc] at hk ⊢
    rw [encStepEmit_notFull hk (by rw [hpk]; exact hb), ← recordMatch_len s f]
    exact ⟨hflush, encStepTail_phase_of_encStep hphase, encStepTail_enc_of_token hk⟩
  case full =>
    intro hk hb
    rw [encStepEmit_full (by rw [henc, hk]) (by rw [hpk, hb])]
    exact ⟨rfl, hphase, henc⟩

/-- A step of ENC_STEP whose DELETE and INSERT answer, from the state `u` its read leaves: the tree of its INSERT, what
`StepEmits` says, and the rest as the read left it (42_encoder.md R226). -/
theorem LookaheadRead.engineStep {tr tr1 : Tree} {f : Finder} (h : LookaheadRead s tr u) (hf : s.flush = none)
    (hp : s.phase = .encStep) (hg : encStepInRange s = true) (hd : delete (lookaheadSlot s.enc) s.tree = .ok tr)
    (hi : insert u.ring u.enc.p u.enc.run.toNat u.tree u.finder = .ok (tr1, f)) :
    ∃ t, engineStep s = .next t ∧ t.tree = tr1 ∧ StepEmits u.enc u.pk u.ring f t ∧
      t.ports = u.ports ∧ t.host = u.host ∧ t.dec = u.dec := by
  have hpu : u.phase = .encStep := by cases h <;> exact hp
  have hfu : u.flush = none := by cases h <;> exact hf
  refine ⟨_, (engineStep_encStep hf hp).trans ((h.encStep hg hd).trans (encStepInsert_ok hi)), ?_,
    stepEmits_encStepEmit (s := { u with tree := tr1 }) hpu hfu f, ?_, ?_, ?_⟩
  · rw [encStepEmit_tree, recordMatch_tree]
  · rw [encStepEmit_ports, recordMatch_ports]
  · rw [encStepEmit_host, recordMatch_host]
  · rw [encStepEmit_dec, recordMatch_dec]

theorem runAfter_toNat {e : EncRegs} (he : e.eos = true) (hrun : 1 ≤ e.run.toNat) :
    (runAfter e).toNat = e.run.toNat - 1 := by
  rw [runAfter, if_pos he]
  bv_omega

theorem runAfter_eq_zero_iff {e : EncRegs} (he : e.eos = true) : runAfter e = 0#5 ↔ e.run = 1#5 := by
  rw [runAfter, if_pos he]
  constructor <;> intro h <;> bv_omega

end Sys2Proof.Machine

namespace Sys2Proof

open Sys2Proof.Machine

/-- Settles O25: by the source's answer; the byte that fills the lookahead and END leave the loop. -/
theorem preloadReadsTheFirstBytes : Obligations.PreloadReadsTheFirstBytes := by
  intro s hf hp hla he
  have hl : preloading s.enc = true := preloading_iff.2 ⟨hla, he⟩
  have hstep := engineStep_encPreload hf hp
  refine ⟨fun b rest hi => ⟨_, hstep.trans (PreloadRead.data hl hi).preloadStep, ?_⟩,
    fun rest hi => ⟨_, hstep.trans (PreloadRead.ended hl hi).preloadStep, ?_⟩,
    fun rest hi => ⟨_, hstep.trans (preloadStep_err hl hi), ⟨rfl, rfl, rfl⟩⟩⟩
  · by_cases h15 : s.enc.la = 15#5
    · have hover : preloading { s.enc with la := s.enc.la + 1#5 } = false := by
        rw [h15]
        rfl
      rw [preloadExit_over hover]
      refine ⟨rfl, rfl, he, rfl, rfl, fun _ => ?_, fun h => absurd h15 h⟩
      rw [h15]
      exact ⟨rfl, rfl⟩
    · have hmore : preloading { s.enc with la := s.enc.la + 1#5 } = true :=
        preloading_iff.2 ⟨by show (s.enc.la + 1#5).toNat < 16; bv_omega, he⟩
      rw [preloadExit_more hmore]
      exact ⟨rfl, rfl, he, rfl, rfl, fun h => absurd h h15, fun _ => ⟨rfl, hp⟩⟩
  · have hover : preloading { s.enc with eos := true } = false := by simp [preloading]
    rw [preloadExit_over hover]
    refine ⟨rfl, rfl, rfl, rfl, rfl, rfl, fun h0 => ?_, fun h0 => ?_⟩
    · exact if_pos (congrArg BitVec.toNat h0)
    · exact if_neg fun h => h0 (BitVec.eq_of_toNat_eq h)

/-- Settles O26: by the source's answer; after DATA and END the step is one whose INSERT answers. -/
theorem encoderStepDeletesWritesInserts : Obligations.EncoderStepDeletesWritesInserts := by
  intro s rest t1 hf hp hg he hd
  refine ⟨fun b t2 f hi hins => (LookaheadRead.data he hi).engineStep hf hp hg hd hins,
    fun t2 f hi hins => (LookaheadRead.ended he hi).engineStep hf hp hg hd hins, fun hi => ?_⟩
  exact ⟨_, (engineStep_encStep hf hp).trans (encStep_err hg he hd hi), ⟨rfl, rfl, rfl⟩, rfl, rfl, rfl, rfl⟩

/-- Settles O27: with nothing to read the step is one whose INSERT answers, and END has been read. -/
theorem encoderDrainsAfterEnd : Obligations.EncoderDrainsAfterEnd := by
  intro s t1 t2 f hf hp hg he hd hins
  obtain ⟨t, hstep, htree, hemits, hrest⟩ := (LookaheadRead.noRead he).engineStep hf hp hg hd hins
  have hrun : 1 ≤ s.enc.run.toNat := by
    simp only [encStepInRange, Bool.and_eq_true, decide_eq_true_eq] at hg
    omega
  have hzero := runAfter_eq_zero_iff he
  exact ⟨t, hstep, htree, hemits, runAfter_toNat he hrun, fun hone => if_pos (hzero.2 hone),
    fun hne => if_neg fun h => hne (hzero.1 h), hrest⟩

end Sys2Proof
end

section
/-!
PROOFS. The decode run (43_decoder.md): what CTRL, LIT and MATCH can come to and leave alone, the reading of a token's bytes,
DEC_COPY byte by byte, and a whole copy with its overlap, by induction on the bytes that are left.
-/

namespace Sys2Proof.Machine

variable {s t : State}

/-! ### The answers of a port -/

/-- A refused byte ends the run in the error (20_memory.md R91; 60_exceptions.md R342). -/
theorem offer_refused {rest : List SinkAnswer} (hs : s.ports.sink = .err :: rest) (b : Byte) (k : State → State) :
    offer b s k = .next (raiseError .outIo (turnedAway rest s)) := by
  simp [offer, outWrite, hs, turnedAway]

theorem errorEntry_turnedAway (rest : List SinkAnswer) (s : State) :
    ErrorEntry .outIo s (raiseError .outIo (turnedAway rest s)) := ⟨rfl, rfl, rfl⟩

theorem readTokenByte_data {b : Byte} {rest : List InItem} (hi : s.ports.inStream = .data b :: rest) :
    readTokenByte s = .next { s with
      ports := { s.ports with inStream := rest }, host := { s.host with inCount := s.host.inCount + 1#32 },
      latch := s.latch ++ [b] } := by
  simp [readTokenByte, inRead, hi]

theorem readTokenByte_eos {rest : List InItem} (hi : s.ports.inStream = .eos :: rest) :
    readTokenByte s = .next (runDone { s with ports := { s.ports with inStream := rest } }) := by
  simp [readTokenByte, inRead, hi]

theorem readTokenByte_err {rest : List InItem} (hi : s.ports.inStream = .err :: rest) :
    readTokenByte s = .next (raiseError .inIo { s with ports := { s.ports with inStream := rest } }) := by
  simp [readTokenByte, inRead, hi]

/-! ### Reads after RB_WRITE -/

/-- RB_WRITE writes no slot but `p` and its padding copy (40_ring_buffer.md R162). -/
theorem rbReadPhys_rbWrite_of_ne {m : Ring} {p : Pos} {q : Nat} (b : Byte) (hm : Memory.wf m = true) (hq : q ≠ p.toNat)
    (hpad : ¬ (p.toNat < Config.F ∧ q = Config.N + p.toNat)) : rbReadPhys q (rbWrite p b m) = rbReadPhys q m := by
  rw [rbReadPhys_rbWrite p b q hm, if_neg (not_or.2 ⟨hq, hpad⟩)]

theorem rbRead_rbWrite {m : Ring} (hm : Memory.wf m = true) (p q : Pos) (b : Byte) :
    rbRead q (rbWrite p b m) = if q = p then b else rbRead q m := by
  have hq := q.isLt
  have hslot : (q.toNat = p.toNat ∨ p.toNat < Config.F ∧ q.toNat = Config.N + p.toNat) ↔ q = p := by
    rw [← BitVec.toNat_inj]
    simp only [Config.N]
    omega
  rw [rbRead, rbReadPhys_rbWrite p b _ hm, rbRead]
  simp only [hslot]

/-! ### The token instructions -/

/-- Everything CTRL, LIT and MATCH can come to (43_decoder.md R274, R276, R278). -/
theorem exec_token_cases {i : Instr} (hi : i.place ≠ .command) (h : exec i s = .next t) :
    (∃ k, i = .ctrl k ∧ t = { s with dec := { s.dec with ctrl := k, bit := 0#4 }, phase := .decToken, latch := [] }) ∨
    (∃ d, i = .lit d ∧ t = s) ∨
    (∃ d rest, i = .lit d ∧ t = litDone d (accepted d rest s)) ∨
    (∃ d rest, i = .lit d ∧ t = raiseError .outIo (turnedAway rest s)) ∨
    (∃ pos len, i = .matchTok pos len ∧
      t = { s with dec := { s.dec with pos := pos, rem := len }, phase := .decCopy, latch := [] }) := by
  cases i with
  | ctrl k => cases h; exact .inl ⟨k, rfl, rfl⟩
  | lit d =>
    right
    obtain ⟨-, e⟩ | ⟨rest, -, e⟩ | ⟨rest, -, e⟩ := offer_cases d s (litDone d) <;> cases e.symm.trans h
    · exact .inl ⟨d, rfl, rfl⟩
    · exact .inr (.inl ⟨d, rest, rfl, rfl⟩)
    · exact .inr (.inr (.inl ⟨d, rest, rfl, rfl⟩))
  | matchTok pos len => cases h; exact .inr (.inr (.inr (.inr ⟨pos, len, rfl, rfl⟩)))
  | cmdNop | cmdStartEncode | cmdStartDecode | cmdReserved => exact absurd rfl hi

/-! ### The token stream -/

/-- At the token stream a step runs the instruction the latch decodes to (43_decoder.md R274 to R278). -/
theorem engineStep_of_decoded {i : Instr} {rest : List Byte} (h : AtToken s)
    (hd : decode (streamPlace s) s.latch = .ok (i, rest)) : engineStep s = exec i s := by
  have hl : latched s = some i := by simp [latched, hd]
  rw [engineStep_of_atToken h, decodeStep_of_latched h.bit_inRange hl]

/-- While a byte of the token is missing a step reads it (43_decoder.md R274, R276, R278). -/
theorem engineStep_of_missing (h : AtToken s) (hl : s.latch.length < (streamPlace s).size) :
    engineStep s = readTokenByte s := by
  rw [engineStep_of_atToken h, decodeStep_of_not_latched h.bit_inRange (latched_eq_none hl)]

/-- A 32-bit host write at offset 0 is a write of CMD (44_host_commands.md R317). -/
theorem hostAccess_cmd (w : Word) (s : State) : hostAccess { op := .write w, off := 0, size := 4 } s = cmdWrite w s := rfl

theorem cmdWrite_of_decoded {w : Word} {i : Instr} {rest : List Byte} (hd : decode .command (wordBytes w) = .ok (i, rest))
    (s : State) : cmdWrite w s = exec i s := by
  simp [cmdWrite, hd]

/-! ### DEC_COPY, one byte -/

/-- While bytes are left a step of DEC_COPY offers the byte at the source (43_decoder.md R279). -/
theorem engineStep_decCopy (hf : s.flush = none) (hp : s.phase = .decCopy) (hr : s.dec.rem ≠ 0#5) :
    engineStep s = offer (rbRead s.dec.pos s.ring) s (copyDone (rbRead s.dec.pos s.ring)) := by
  rw [engineStep_phase hf]
  simp only [phaseStep, hp, copyStep, if_neg hr]

theorem engineStep_copy_accepted {rest : List SinkAnswer} (hf : s.flush = none) (hp : s.phase = .decCopy)
    (hr : s.dec.rem ≠ 0#5) (hs : s.ports.sink = .ok :: rest) :
    engineStep s = .next (copyDone (rbRead s.dec.pos s.ring) (accepted (rbRead s.dec.pos s.ring) rest s)) := by
  rw [engineStep_decCopy hf hp hr, offer_accepted hs]

theorem engineStep_copy_refused {rest : List SinkAnswer} (hf : s.flush = none) (hp : s.phase = .decCopy)
    (hr : s.dec.rem ≠ 0#5) (hs : s.ports.sink = .err :: rest) :
    engineStep s = .next (raiseError .outIo (turnedAway rest s)) := by
  rw [engineStep_decCopy hf hp hr, offer_refused hs]

theorem lastByte_iff {rem : BitVec 5} : rem - 1#5 = 0#5 ↔ rem = 1#5 := by bv_omega

/-- After a byte that is not the last one the copy goes on (43_decoder.md R279). -/
theorem copyDone_more (x : Byte) (hr : s.dec.rem ≠ 1#5) : copyDone x s = copyAdvanced x s := by
  obtain ⟨-, e⟩ | ⟨h, -⟩ := copyDone_cases x s
  · exact e
  · exact absurd (lastByte_iff.1 h) hr

/-- After the last byte the token ends (43_decoder.md R279). -/
theorem copyDone_last (x : Byte) (hr : s.dec.rem = 1#5) : copyDone x s = tokenDone (copyAdvanced x s) := by
  obtain ⟨h, -⟩ | ⟨-, e⟩ := copyDone_cases x s
  · exact absurd (lastByte_iff.2 hr) h
  · exact e

/-! ### The bytes of a copy -/

/-- The bytes of a copy from `pos`, written from `cur` on, each read after the one before is written (43_decoder.md R279,
R280). -/
def copyBytes : Nat → Pos → Pos → Ring → List Byte
  | 0, _, _, _ => []
  | n + 1, pos, cur, m =>
    rbRead pos m :: copyBytes n (pos + 1#12) (cur + 1#12) (rbWrite cur (rbRead pos m) m)

@[simp] theorem length_copyBytes (n : Nat) (pos cur : Pos) (m : Ring) : (copyBytes n pos cur m).length = n := by
  induction n generalizing pos cur m with
  | zero => rfl
  | succ n ih => rw [copyBytes, List.length_cons, ih]

/-- With the byte of a copy at distance `d` stored, the source plus `r` holds that byte for `d = r`, and what it held before
for every other `d`. -/
theorem rbRead_rbWrite_ahead {m : Ring} (hm : Memory.wf m = true) (pos cur : Pos) (b : Byte) {r : Nat} (hr : r < 4096) :
    rbRead (pos + BitVec.ofNat 12 r) (rbWrite cur b m) =
      if (cur - pos).toNat = r then b else rbRead (pos + BitVec.ofNat 12 r) m := by
  have hmeet : pos + BitVec.ofNat 12 r = cur ↔ (cur - pos).toNat = r := by bv_omega
  rw [rbRead_rbWrite hm]
  simp only [hmeet]

/-- Byte `r` of a copy at distance `d` is its byte `r - d` for `1 <= d <= r`, and otherwise what the ring held at the source
plus `r` (43_decoder.md R280). By induction on the length: the byte stored first is the one `d = r` reads again. -/
theorem getElem?_copyBytes {n r : Nat} {m : Ring} (hm : Memory.wf m = true) (hn : n ≤ 4096) (hr : r < n) (pos cur : Pos) :
    (copyBytes n pos cur m)[r]? =
      if 1 ≤ (cur - pos).toNat ∧ (cur - pos).toNat ≤ r then (copyBytes n pos cur m)[r - (cur - pos).toNat]?
      else some (rbRead (pos + BitVec.ofNat 12 r) m) := by
  induction n generalizing pos cur m r with
  | zero => omega
  | succ n ih =>
    cases r with
    | zero =>
      rw [if_neg (by omega)]
      simp [copyBytes]
    | succ r =>
      have hdist : cur + 1#12 - (pos + 1#12) = cur - pos := by bv_omega
      have hsource : pos + 1#12 + BitVec.ofNat 12 r = pos + BitVec.ofNat 12 (r + 1) := by bv_omega
      have htail := ih (Memory.wf_rbWrite cur (rbRead pos m) hm) (by omega) (by omega : r < n) (pos + 1#12) (cur + 1#12)
      rw [hdist, hsource, rbRead_rbWrite_ahead hm pos cur _ (by omega)] at htail
      rw [copyBytes, List.getElem?_cons_succ, htail]
      generalize (cur - pos).toNat = d
      obtain hd | rfl | hd : (1 ≤ d ∧ d ≤ r) ∨ d = r + 1 ∨ ¬ (1 ≤ d ∧ d ≤ r + 1) := by omega
      · rw [if_pos hd, if_pos (by omega), Nat.sub_add_comm hd.2, List.getElem?_cons_succ]
      · simp
      · rw [if_neg (by omega), if_neg (by omega), if_neg hd]

/-! ### A whole copy -/

/-- What a whole copy leaves, with `bs` the bytes it has output and `rest` the sink's further answers (43_decoder.md
R279). -/
structure CopyEnd (bs : List Byte) (rest : List SinkAnswer) (s t : State) : Prop where
  outStream : t.ports.outStream = s.ports.outStream ++ bs
  cur : t.dec.cur = s.dec.cur + s.dec.rem.setWidth 12
  rem : t.dec.rem = 0#5
  bit : t.dec.bit = s.dec.bit + 1#4
  sink : t.ports.sink = rest

/-- The last byte of a copy (43_decoder.md R279). -/
theorem CopyEnd.last (x : Byte) (rest : List SinkAnswer) (hr : s.dec.rem = 1#5) :
    CopyEnd [x] rest s (copyDone x (accepted x rest s)) := by
  rw [copyDone_last (s := accepted x rest s) x hr]
  refine ⟨rfl, ?_, ?_, rfl, rfl⟩
  · rw [hr]; rfl
  · exact lastByte_iff.2 hr

/-- A byte before the last, then the rest of the copy (43_decoder.md R279). -/
theorem CopyEnd.cons {bs : List Byte} {x : Byte} {r rest : List SinkAnswer} (hr : s.dec.rem ≠ 0#5)
    (h : CopyEnd bs rest (copyAdvanced x (accepted x r s)) t) : CopyEnd (x :: bs) rest s t := by
  have hcur : s.dec.cur + 1#12 + (s.dec.rem - 1#5).setWidth 12 = s.dec.cur + s.dec.rem.setWidth 12 := by bv_omega
  exact ⟨h.outStream.trans (List.append_assoc _ [x] bs), h.cur.trans hcur, h.rem, h.bit, h.sink⟩

/-- A copy with `n + 1` bytes left, all accepted, outputs them in order and ends its token (43_decoder.md R279). -/
theorem run_copy_accepted {n : Nat} {rest : List SinkAnswer} (henv : s.env = []) (hf : s.flush = none)
    (hp : s.phase = .decCopy) (hn : s.dec.rem.toNat = n + 1) (hs : s.ports.sink = List.replicate (n + 1) .ok ++ rest) :
    ∃ t, Sys2Proof.core.run (n + 1) s = .next t ∧ CopyEnd (copyBytes (n + 1) s.dec.pos s.dec.cur s.ring) rest s t := by
  induction n generalizing s with
  | zero =>
    have hr : s.dec.rem = 1#5 := BitVec.eq_of_toNat_eq hn
    have hstep := (step_engine henv).trans (engineStep_copy_accepted hf hp (by simp [hr]) hs)
    exact ⟨_, core_run_succ 0 hstep, .last _ rest hr⟩
  | succ n ih =>
    have hr : s.dec.rem ≠ 0#5 := fun e => by simp [e] at hn
    have hmore : s.dec.rem ≠ 1#5 := fun e => by simp [e] at hn
    have hstep := (step_engine henv).trans (engineStep_copy_accepted hf hp hr hs)
    rw [copyDone_more (s := accepted _ _ s) _ hmore] at hstep
    have hn' : (s.dec.rem - 1#5).toNat = n + 1 := by bv_omega
    obtain ⟨t, hrun, hend⟩ := ih (s := copyAdvanced _ (accepted _ _ s)) henv hf hp hn' rfl
    exact ⟨t, (core_run_succ (n + 1) hstep).trans hrun, hend.cons hr⟩

end Sys2Proof.Machine

namespace Sys2Proof

open Sys2Proof.Machine

/-- Settles O15: by what a token instruction can come to; LIT alone writes the ring, at the cursor. -/
theorem tokenInstructionsFrame : Obligations.TokenInstructionsFrame := by
  intro i s t hi h
  obtain ⟨k, rfl, rfl⟩ | ⟨d, rfl, rfl⟩ | ⟨d, rest, rfl, rfl⟩ | ⟨d, rest, rfl, rfl⟩ | ⟨pos, len, rfl, rfl⟩ :=
    exec_token_cases hi h
  all_goals refine ⟨⟨rfl, rfl, rfl, rfl, rfl, rfl, rfl, rfl, rfl, rfl, rfl⟩, ?_⟩
  · exact ⟨fun _ => ⟨rfl, rfl, rfl, rfl, fun _ _ => rfl⟩, fun _ => ⟨rfl, rfl⟩, nofun, nofun⟩
  · exact ⟨fun hp => absurd rfl hp, nofun, nofun, fun _ => ⟨rfl, rfl, rfl, fun _ _ _ _ _ => rfl⟩⟩
  · exact ⟨fun hp => absurd rfl hp, nofun, nofun, fun _ => ⟨rfl, rfl, rfl, fun hm _ _ => rbReadPhys_rbWrite_of_ne d hm⟩⟩
  · exact ⟨fun hp => absurd rfl hp, nofun, nofun, fun _ => ⟨rfl, rfl, rfl, fun _ _ _ _ _ => rfl⟩⟩
  · exact ⟨fun _ => ⟨rfl, rfl, rfl, rfl, fun _ _ => rfl⟩, nofun, fun _ => ⟨rfl, rfl⟩, nofun⟩

/-- Settles O24: the bytes of the copy are those of its run, whose overlap `getElem?_copyBytes` says. -/
theorem copyRepeatsWhatItJustWrote : Obligations.CopyRepeatsWhatItJustWrote := by
  intro s rest henv hf hp hr hm hs
  have hlt := s.dec.rem.isLt
  obtain ⟨n, hn⟩ : ∃ n, s.dec.rem.toNat = n + 1 := Nat.exists_eq_add_one.2 (by bv_omega)
  rw [hn] at hs ⊢
  obtain ⟨t, hrun, hend⟩ := run_copy_accepted henv hf hp hn hs
  exact ⟨t, _, hrun, length_copyBytes _ _ _ _, hend.outStream,
    fun _ hr => getElem?_copyBytes hm (by omega) hr _ _, hend.cur, hend.rem, hend.bit, hend.sink⟩

/-- Settles O12: the definition of CTRL's meaning. -/
theorem ctrlSetsTheControlByte : Obligations.CtrlSetsTheControlByte := fun _ _ => rfl

/-- Settles O13: by the sink's answer. -/
theorem litOutputsAndStoresItsByte : Obligations.LitOutputsAndStoresItsByte := by
  intro d s hm
  refine ⟨fun rest hs => ?_, fun rest hs => ?_, fun hs => offer_held d (litDone d) hs⟩
  · exact ⟨_, offer_accepted hs d (litDone d), rfl, rfl, rfl, rfl, rfl, fun q _ => rbReadPhys_rbWrite s.dec.cur d q hm⟩
  · exact ⟨_, offer_refused hs d (litDone d), errorEntry_turnedAway rest s, rfl, rfl, rfl⟩

/-- Settles O14: the definition of MATCH's meaning. -/
theorem matchStartsTheCopy : Obligations.MatchStartsTheCopy := fun _ _ _ => rfl

/-- Settles O21: the engine's turn, by default or by the list, then the host's. -/
theorem stepRunsTheDecodedInstruction : Obligations.StepRunsTheDecodedInstruction := by
  refine ⟨fun s i rest ht hd => ⟨fun henv => ?_, fun e henv => ?_⟩, fun s w i rest e henv hd => ?_⟩
  · rw [step_engine henv, engineStep_of_decoded ht hd]
  · rw [step_turn henv]
    exact engineStep_of_decoded (s := { s with env := e }) ht hd
  · rw [step_turn henv]
    exact (hostAccess_cmd w _).trans (cmdWrite_of_decoded hd _)

/-- Settles O22: by the source's answer. -/
theorem tokenBytesAreReadOneItemAtATime : Obligations.TokenBytesAreReadOneItemAtATime := by
  intro s ht hl
  rw [engineStep_of_missing ht hl]
  refine ⟨fun b rest hi => readTokenByte_data hi, fun rest hi => ?_, fun rest hi => ?_⟩
  · exact ⟨_, readTokenByte_eos hi, ⟨rfl, rfl, rfl⟩, rfl, rfl, rfl⟩
  · exact ⟨_, readTokenByte_err hi, ⟨rfl, rfl, rfl⟩, rfl, rfl, rfl⟩

/-- Settles O23: by the sink's answer; an accepted byte is the last of its copy or not. -/
theorem copyMovesOneByte : Obligations.CopyMovesOneByte := by
  intro s hf hp hr hm
  refine ⟨fun rest hs => ⟨_, engineStep_copy_accepted hf hp hr hs, ?_⟩, fun rest hs => ?_⟩
  · have hring := fun q (_ : q < 4112) => rbReadPhys_rbWrite s.dec.cur (rbRead s.dec.pos s.ring) q hm
    by_cases hlast : s.dec.rem = 1#5
    · rw [copyDone_last (s := accepted _ rest s) _ hlast]
      exact ⟨rfl, rfl, rfl, rfl, rfl, rfl, fun h => absurd hlast h, fun _ => ⟨rfl, rfl⟩, hring⟩
    · rw [copyDone_more (s := accepted _ rest s) _ hlast]
      exact ⟨rfl, rfl, rfl, rfl, rfl, rfl, fun _ => ⟨rfl, hp⟩, fun h => absurd h hlast, hring⟩
  · exact ⟨_, engineStep_copy_refused hf hp hr hs, errorEntry_turnedAway rest s, rfl, rfl, rfl⟩

end Sys2Proof
end

section
/-!
PROOFS. The host's commands and the register block (44_host_commands.md): what a command can come to, and what an aligned
32-bit access of the block reads or writes.
-/

namespace Sys2Proof.Machine

variable {s t : State}

/-! ### The commands -/

/-- A START while no run is in progress is accepted (44_host_commands.md R311). -/
theorem exec_startEncode_accepted (ign : BitVec 28) (hb : s.host.state ≠ .busy) :
    exec (.cmdStartEncode ign) s = .next (encInit (startCommon .encode s)) := if_neg hb

/-- A START while no run is in progress is accepted (44_host_commands.md R313). -/
theorem exec_startDecode_accepted (ign : BitVec 28) (hb : s.host.state ≠ .busy) :
    exec (.cmdStartDecode ign) s = .next (decInit (startCommon .decode s)) := if_neg hb

/-- A START while BUSY is ignored (44_host_commands.md R315). -/
theorem exec_startEncode_busy (ign : BitVec 28) (hb : s.host.state = .busy) :
    exec (.cmdStartEncode ign) s = .next s := if_pos hb

/-- A START while BUSY is ignored (44_host_commands.md R315). -/
theorem exec_startDecode_busy (ign : BitVec 28) (hb : s.host.state = .busy) :
    exec (.cmdStartDecode ign) s = .next s := if_pos hb

/-- Everything a command can come to (44_host_commands.md R310 to R315). -/
theorem exec_command_cases {i : Instr} (hi : i.place = .command) (h : exec i s = .next t) :
    t = s ∨
    (s.host.state ≠ .busy ∧ ∃ ign, i = .cmdStartEncode ign ∧ t = encInit (startCommon .encode s)) ∨
    (s.host.state ≠ .busy ∧ ∃ ign, i = .cmdStartDecode ign ∧ t = decInit (startCommon .decode s)) := by
  cases i with
  | ctrl | lit | matchTok => cases hi
  | cmdNop | cmdReserved => cases h; exact .inl rfl
  | cmdStartEncode ign =>
    by_cases hb : s.host.state = .busy
    · cases (exec_startEncode_busy ign hb).symm.trans h
      exact .inl rfl
    · cases (exec_startEncode_accepted ign hb).symm.trans h
      exact .inr (.inl ⟨hb, ign, rfl, rfl⟩)
  | cmdStartDecode ign =>
    by_cases hb : s.host.state = .busy
    · cases (exec_startDecode_busy ign hb).symm.trans h
      exact .inl rfl
    · cases (exec_startDecode_accepted ign hb).symm.trans h
      exact .inr (.inr ⟨hb, ign, rfl, rfl⟩)

/-! ### Aligned accesses of the register block -/

/-- A 32-bit access at any of the 64 aligned offsets is taken (10_state.md R41). -/
theorem HostAccess.refusal_aligned (op : HostOp) {k : Nat} (hk : k < 64) :
    HostAccess.refusal { op := op, off := (4 * k : Nat), size := 4 } = none := by
  rw [HostAccess.refusal_none_iff]
  dsimp only
  omega

theorem hostAccess_read_aligned {k : Nat} (hk : k < 64) (s : State) :
    hostAccess { op := .read, off := (4 * k : Nat), size := 4 } s = .next { s with hostData := regRead (4 * k) s.host } := by
  simp only [hostAccess, HostAccess.refusal_aligned .read hk, Int.toNat_natCast]

theorem hostAccess_write_aligned {k : Nat} (w : Word) (hk : k < 64) (s : State) :
    hostAccess { op := .write w, off := (4 * k : Nat), size := 4 } s = regWrite (4 * k) w s := by
  simp only [hostAccess, HostAccess.refusal_aligned (.write w) hk, Int.toNat_natCast]

/-- The registers by the number of their word in the block (10_state.md R32; 44_host_commands.md R316). -/
theorem regRead_aligned (k : Nat) (r : HostRegs) :
    regRead (4 * k) r =
      if k = 1 then r.statusWord
      else if k = 2 then (if r.ie then 1#32 else 0#32)
      else if k = 3 then r.inCount else if k = 4 then r.outCount else 0#32 := by
  have h1 : 4 * k = 0x04 ↔ k = 1 := by omega
  have h2 : 4 * k = 0x08 ↔ k = 2 := by omega
  have h3 : 4 * k = 0x0C ↔ k = 3 := by omega
  have h4 : 4 * k = 0x10 ↔ k = 4 := by omega
  simp only [regRead, h1, h2, h3, h4]

theorem regWrite_cmd (w : Word) (s : State) : regWrite 0x00 w s = exec (decodeCommand w) s := cmdWrite_eq w s

theorem regWrite_irqEn (w : Word) (s : State) :
    regWrite 0x08 w s = .next { s with host := { s.host with ie := w.getLsbD 0 } } := rfl

/-- A write of any other register has no effect (44_host_commands.md R317). -/
theorem regWrite_noEffect {off : Nat} (w : Word) (s : State) (hcmd : off ≠ 0x00) (hirq : off ≠ 0x08) :
    regWrite off w s = .next s := by
  rw [regWrite, if_neg hcmd, if_neg hirq]

end Sys2Proof.Machine

namespace Sys2Proof

open Sys2Proof.Machine

/-- Settles O16: the definitions of the two meanings. -/
theorem nopAndReservedCommandsHaveNoEffect : Obligations.NopAndReservedCommandsHaveNoEffect :=
  fun _ _ _ => ⟨rfl, rfl⟩

/-- Settles O17: START_COMMON, then ENC_INIT with RB_FILL and TREE_INIT. -/
theorem startEncodeBeginsAFreshRun : Obligations.StartEncodeBeginsAFreshRun := by
  intro ign s hb
  refine ⟨_, exec_startEncode_accepted ign hb, rfl, rfl, rfl, rfl, rfl, rfl, ?_, ?_, ?_, ?_⟩
  · exact fun q _ => rbReadPhys_rbFill q
  · exact treeInit_rootAt
  · exact treeInit_parentOf
  · exact fun q => ⟨treeInit_leftOf q, treeInit_rightOf q⟩

/-- Settles O18: START_COMMON, then DEC_INIT with RB_FILL. -/
theorem startDecodeBeginsAFreshRun : Obligations.StartDecodeBeginsAFreshRun := by
  intro ign s hb
  exact ⟨_, exec_startDecode_accepted ign hb, rfl, rfl, rfl, fun q _ => rbReadPhys_rbFill q, rfl⟩

/-- Settles O19: both STARTs look at STATE first. -/
theorem startWhileBusyHasNoEffect : Obligations.StartWhileBusyHasNoEffect :=
  fun ign _ hb => ⟨exec_startEncode_busy ign hb, exec_startDecode_busy ign hb⟩

/-- Settles O20: a command leaves the state, or is an accepted START of one of the two runs. -/
theorem commandsFrame : Obligations.CommandsFrame := by
  intro i s t hi h
  obtain rfl | ⟨hb, ign, rfl, rfl⟩ | ⟨hb, ign, rfl, rfl⟩ := exec_command_cases hi h
  all_goals refine ⟨⟨rfl, rfl, rfl, rfl, rfl, rfl, rfl, rfl, rfl⟩, ?_⟩
  · exact ⟨fun _ => rfl, fun _ _ => rfl, fun _ _ => ⟨rfl, rfl, rfl⟩, fun _ _ => rfl, fun _ _ _ => rfl⟩
  · exact ⟨fun h => absurd h hb, fun _ _ => rfl, nofun, nofun, nofun⟩
  · exact ⟨fun h => absurd h hb, nofun, fun _ _ => ⟨rfl, rfl, rfl⟩, nofun, nofun⟩

/-- Settles O42: an aligned read is taken and returns its register; STATUS code by code. -/
theorem registerReadsReturnTheRegisters : Obligations.RegisterReadsReturnTheRegisters := by
  intro s k rest hk henv
  have hstep : step s = .next { s with env := rest, hostData := regRead (4 * k) s.host } :=
    (step_turn henv).trans (hostAccess_read_aligned hk _)
  rw [hstep, regRead_aligned]
  congr 2
  refine ite_congr rfl (fun _ => ?_) (fun _ => rfl)
  refine congrArg₂ _ (congrArg₂ _ ?err ?mode) ?state
  case err => cases s.host.err <;> rfl
  case mode => cases s.host.mode <;> rfl
  case state => cases s.host.state <;> rfl

/-- Settles O43: an aligned write is taken; IRQ_EN is word 2 of the block and CMD word 0. -/
theorem registerWritesHaveTheirEffect : Obligations.RegisterWritesHaveTheirEffect := by
  intro s k w rest hk henv
  have hstep : step s = regWrite (4 * k) w { s with env := rest } :=
    (step_turn henv).trans (hostAccess_write_aligned w hk _)
  rw [hstep]
  refine ⟨?_, ?_, fun h0 h2 => regWrite_noEffect w _ (by omega) (by omega)⟩
  · rintro rfl
    exact regWrite_irqEn w _
  · rintro rfl
    exact regWrite_cmd w _

end Sys2Proof
end

section
/-!
PROOFS. Error entry, the block's one exception (60_exceptions.md R341 to R343), read off the moves of the engine; what the
engine does with no run in progress (R365); and the interrupt line (R350).
-/

namespace Sys2Proof.Machine

variable {s t u : State}

/-! ### Error entry -/

/-- From `s` to `t` no port's ERR answer is taken and ERROR is not entered: where an ERR waits, its stream stays. -/
structure NoErrorTaken (s t : State) : Prop where
  source : ∀ rest, s.ports.inStream = .err :: rest → t.ports.inStream = s.ports.inStream
  sink : ∀ rest, s.ports.sink = .err :: rest → t.ports.sink = s.ports.sink
  state : t.host.state = .error → s.host.state = .error

theorem NoErrorTaken.of_ports_eq (hp : t.ports = s.ports) (hst : t.host.state = .error → s.host.state = .error) :
    NoErrorTaken s t :=
  ⟨fun _ _ => congrArg Ports.inStream hp, fun _ _ => congrArg Ports.sink hp, hst⟩

/-- An item that is not ERR may be taken. -/
theorem NoErrorTaken.of_item {x : InItem} {rest : List InItem} (hi : s.ports.inStream = x :: rest) (hx : x ≠ .err)
    (hp : t.ports.sink = s.ports.sink) (hst : t.host.state = .error → s.host.state = .error) : NoErrorTaken s t :=
  ⟨fun _ he => absurd (List.cons.inj (hi.symm.trans he)).1 hx, fun _ _ => hp, hst⟩

/-- A byte may be accepted. -/
theorem NoErrorTaken.accepted {rest : List SinkAnswer} (hs : s.ports.sink = .ok :: rest) (b : Byte) :
    NoErrorTaken s (accepted b rest s) :=
  ⟨fun _ _ => rfl, fun _ he => (nomatch hs.symm.trans he), id⟩

/-- What follows the port event of a step keeps the streams and does not enter ERROR. -/
theorem NoErrorTaken.followed (h : NoErrorTaken s u) (hp : t.ports = u.ports)
    (hst : t.host.state = .error → u.host.state = .error) : NoErrorTaken s t :=
  ⟨fun rest he => hp ▸ h.source rest he, fun rest he => hp ▸ h.sink rest he, h.state ∘ hst⟩

theorem PreloadRead.noErrorTaken (h : PreloadRead s u) : NoErrorTaken s u := by
  cases h with
  | noRead => exact .of_ports_eq rfl id
  | data _ hi => exact .of_item hi nofun rfl id
  | ended _ hi => exact .of_item hi nofun rfl id

theorem LookaheadRead.noErrorTaken {tr : Tree} (h : LookaheadRead s tr u) : NoErrorTaken s u := by
  cases h with
  | noRead => exact .of_ports_eq rfl id
  | data _ hi => exact .of_item hi nofun rfl id
  | ended _ hi => exact .of_item hi nofun rfl id

theorem preloadExit_ports (s : State) : (preloadExit s).ports = s.ports := congrArg Prod.fst (preloadExit_portSide s)

theorem flushNext_ports (n : BitVec 5) (s : State) : (flushNext n s).ports = s.ports :=
  congrArg Prod.fst (flushNext_portSide n s)

/-- A FLUSH with its byte accepted leaves STATE or ends the run in DONE (42_encoder.md R235, R236). -/
theorem flushNext_state_error (n : BitVec 5) (h : (flushNext n s).host.state = .error) : s.host.state = .error := by
  obtain ⟨-, e⟩ | ⟨-, -, e⟩ | ⟨-, -, e⟩ := flushNext_cases n s <;> rw [e] at h
  · exact h
  · cases h
  · exact h

/-- A move of the engine takes an ERR of the source and enters IN_IO, takes an ERR of the sink and enters OUT_IO, or does
neither and does not enter ERROR (60_exceptions.md R341 to R343). -/
theorem EngineMove.error_cases (h : EngineMove s t) :
    (∃ rest, s.ports.inStream = .err :: rest ∧ t.ports = { s.ports with inStream := rest } ∧ ErrorEntry .inIo s t) ∨
    (∃ rest, s.ports.sink = .err :: rest ∧ t.ports = { s.ports with sink := rest } ∧ ErrorEntry .outIo s t) ∨
    NoErrorTaken s t := by
  cases h with
  | inputError _ _ _ hi => exact .inl ⟨_, hi, rfl, rfl, rfl, rfl⟩
  | outputError _ hs => exact .inr (.inl ⟨_, hs, rfl, errorEntry_turnedAway _ s⟩)
  | hold | finalFlush | ctrl | matchTok | copyOver => exact .inr (.inr (.of_ports_eq rfl id))
  | finalDone => exact .inr (.inr (.of_ports_eq rfl nofun))
  | tokenByte _ _ _ hi => exact .inr (.inr (.of_item hi nofun rfl id))
  | streamEnd _ _ hi => exact .inr (.inr (.of_item hi nofun rfl nofun))
  | flushByte _ _ _ hs =>
    exact .inr (.inr ((NoErrorTaken.accepted hs _).followed (flushNext_ports _ _) (flushNext_state_error _)))
  | lit _ _ _ _ hs => exact .inr (.inr ((NoErrorTaken.accepted hs _).followed rfl id))
  | copyByte _ _ _ hs =>
    exact .inr (.inr ((NoErrorTaken.accepted hs _).followed (copyDone_ports _ _) (by rw [copyDone_host]; exact id)))
  | preload _ _ hr =>
    exact .inr (.inr (hr.noErrorTaken.followed (preloadExit_ports _) (by rw [preloadExit_host]; exact id)))
  | encStep _ _ _ _ hr _ =>
    exact .inr (.inr (hr.noErrorTaken.followed ((encStepEmit_ports _).trans (recordMatch_ports _ _))
      (by rw [encStepEmit_host, recordMatch_host]; exact id)))

/-- A stream that is kept has lost no item. -/
theorem not_taken_of_kept {α : Type} {x : α} {rest stream stream' : List α} (hs : stream = x :: rest)
    (hk : stream' = stream) : stream' ≠ rest := by
  rw [hk, hs]
  exact List.cons_ne_self x rest

/-! ### No run in progress -/

/-- With no run in progress the engine is in IDLE or HALTED (10_state.md R47). -/
theorem StatusInv.phase_of_not_busy (h : StatusInv s) (hb : s.host.state ≠ .busy) :
    s.phase = .idle ∨ s.phase = .halted := by
  by_contra hp
  exact hb (h.busy.2 (not_or.1 hp))

/-- With no run in progress no FLUSH is (42_encoder.md R235). -/
theorem StatusInv.flush_none_of_not_busy (h : StatusInv s) (hb : s.host.state ≠ .busy) : s.flush = none := by
  by_contra hf
  exact hb (h.busy_of_encoding (encoding_of_encStep_or_encFinal (h.flush hf)))

theorem phaseStep_waiting (hp : s.phase = .idle ∨ s.phase = .halted) : phaseStep s = .next s := by
  obtain hp | hp := hp <;> simp [phaseStep, hp]

/-! ### The interrupt line -/

theorem HostRegs.irq_iff (r : HostRegs) : r.irq = true ↔ r.ie = true ∧ (r.state = .done ∨ r.state = .error) := by
  simp [HostRegs.irq]

/-- A run in progress does not assert the line (60_exceptions.md R350). -/
theorem HostRegs.irq_of_busy {r : HostRegs} (hb : r.state = .busy) : r.irq = false := by
  simp [HostRegs.irq, hb]

/-- A register read writes no register (44_host_commands.md R316). -/
theorem hostAccess_read_host {a : HostAccess} (ho : a.op = .read) (h : hostAccess a s = .next t) : t.host = s.host := by
  cases hostAccess_move h with
  | read => rfl
  | noEffect hw => cases ho.symm.trans hw
  | setIe | startEncode | startDecode => cases ho

end Sys2Proof.Machine

namespace Sys2Proof

open Sys2Proof.Machine

/-- Settles O36: a move that takes an ERR is the error entry of its port and keeps the other stream, and no other move takes
an ERR or enters ERROR. -/
theorem anErrAnswerEntersTheError : Obligations.AnErrAnswerEntersTheError := by
  intro s t h
  obtain ⟨r, hi, hp, he⟩ | ⟨r, hs, hp, he⟩ | hn := (engineStep_move h).error_cases
  · have hkept : t.ports.sink = s.ports.sink := by rw [hp]
    exact ⟨fun _ _ _ => he, fun _ hs ht => absurd ht (not_taken_of_kept hs hkept),
      fun _ _ => .inl ⟨r, hi, congrArg Ports.inStream hp⟩⟩
  · have hkept : t.ports.inStream = s.ports.inStream := by rw [hp]
    exact ⟨fun _ hi ht => absurd ht (not_taken_of_kept hi hkept), fun _ _ _ => he,
      fun _ _ => .inr ⟨r, hs, congrArg Ports.sink hp⟩⟩
  · exact ⟨fun rest hi ht => absurd ht (not_taken_of_kept hi (hn.source rest hi)),
      fun rest hs ht => absurd ht (not_taken_of_kept hs (hn.sink rest hs)),
      fun hs ht => absurd (hn.state ht) hs⟩

/-- Settles O38: the engine waits in IDLE or HALTED with no FLUSH in progress. -/
theorem noRunMeansNoChange : Obligations.NoRunMeansNoChange := by
  intro s h hb
  rw [engineStep_phase (h.flush_none_of_not_busy hb), phaseStep_waiting (h.phase_of_not_busy hb)]

/-- Settles O46: the line's equation; an accepted START is BUSY; a read leaves the registers. -/
theorem interruptLineFollowsTheRunState : Obligations.InterruptLineFollowsTheRunState := by
  refine ⟨HostRegs.irq_iff, fun s t ign hb h => HostRegs.irq_of_busy ?_, fun s t a ho h => ?_⟩
  · obtain h | h := h
    · cases (exec_startEncode_accepted ign hb).symm.trans h
      rfl
    · cases (exec_startDecode_accepted ign hb).symm.trans h
      rfl
  · rw [hostAccess_read_host ho h]

end Sys2Proof
end

section
/-!
PROOFS. The reset event as a turn (70_reset_and_hazards.md R380, R381): it is taken in every state, and the registers it leaves
are those of the state after reset.
-/

namespace Sys2Proof.Machine

variable {s : State} {rest : List Turn}

/-- A reset turn is taken whatever the block is doing. -/
theorem step_resetTurn (h : s.env = .reset :: rest) : step s = .next (resetEvent { s with env := rest }) :=
  step_turn h

/-- Of the packer a reset draws `pk_buf` only; the counts and the control byte are those after reset. -/
theorem resetEvent_pk_registers (s : State) :
    (resetEvent s).pk.ctrl = 0#8 ∧ (resetEvent s).pk.bit = 0#4 ∧ (resetEvent s).pk.len = 0#5 := by
  rw [resetEvent_pk]
  exact ⟨rfl, rfl, rfl⟩

end Sys2Proof.Machine

namespace Sys2Proof

open Sys2Proof.Machine

/-- Settles O48: the step is the reset event, read register by register. -/
theorem resetAbandonsTheRun : Obligations.ResetAbandonsTheRun := by
  intro s rest h
  obtain ⟨hctrl, hbit, hlen⟩ := resetEvent_pk_registers { s with env := rest }
  exact ⟨_, step_resetTurn h, resetEvent_host _, resetEvent_phase _, resetEvent_enc _, resetEvent_finder _, resetEvent_dec _,
    hctrl, hbit, hlen, resetEvent_latch _, resetEvent_flush _, resetEvent_ports _, resetEvent_env _⟩

end Sys2Proof
end
